-- ==== Sys2Proof/Word.lean ====
section
/-! DEFINITION. The word types of the core: the 32-bit register word, the byte lane, and the ordered bit
sequence of R8 (spec/00_scope.md). -/

namespace Sys2Proof

/-- Every register is 32 bits wide (spec/10_state.md section 2, R64). -/
abbrev Word := BitVec 32

/-- One byte lane of a word on the bus port (R63). -/
abbrev Byte := BitVec 8

/-- An ordered bit sequence `v[0], …, v[L−1]` of any length (R8): a key, a block, a pattern, a buffer. -/
abbrev Bits := List Bool

end Sys2Proof
end

