-- ==== Sys2Proof/Syntax.lean ====
section
/-! DEFINITION. The commands of the core: one constructor per row of spec/opcode_table.json (R82). -/

namespace Sys2Proof

/-- A command (R80, R82). The only operands in the word are the one-bit immediates ORIG and SEED (R81). -/
inductive Instr where
  /-- R104 -/
  | nop
  /-- R105 -/
  | cfgBuild
  /-- R111 -/
  | cfgUnlock
  /-- R112 -/
  | xfer
  /-- R128 -/
  | encBlk
  /-- R129 -/
  | synBlk
  /-- R130 -/
  | decBlk
  /-- R151 -/
  | encKey
  /-- R152: `orig` is W[8], "original length supplied" -/
  | decKey (orig : Bool)
  /-- R165: `orig` is W[8] -/
  | locate (orig : Bool)
  /-- R180 -/
  | paCompress
  /-- R181: `seed` is W[9] -/
  | paRecover (seed : Bool)
deriving DecidableEq, Repr

end Sys2Proof
end

