-- ==== Sys2Proof/WellFormed.lean ====
section
/-! DEFINITION. The fields of a command word (R80) and the four conditions under which they are legal (R83). The
operands of Instr are Booleans, so every Instr has legal fields; what can be ill-formed is a set of fields. -/

namespace Sys2Proof

/-- The fields of a command word (R80): OPC [7:0], ORIG [8], SEED [9], reserved [31:10]. -/
structure CmdFields where
  opc  : BitVec 8
  orig : Bool
  seed : Bool
  rsvd : BitVec 22
deriving DecidableEq, Repr

/-- The defined opcodes (R82, R83). -/
def definedOpcodes : List (BitVec 8) :=
  [0x00, 0x01, 0x02, 0x03, 0x10, 0x11, 0x12, 0x20, 0x21, 0x28, 0x30, 0x31]

namespace CmdFields

/-- R83, first condition: the opcode is defined. -/
def opcodeDefined (f : CmdFields) : Bool := definedOpcodes.contains f.opc

/-- R83, second condition: W[31:10] = 0. -/
def reservedZero (f : CmdFields) : Bool := f.rsvd == 0

/-- R83, third condition: ORIG only on DEC_KEY and LOCATE. -/
def origAllowed (f : CmdFields) : Bool := !f.orig || f.opc == 0x21 || f.opc == 0x28

/-- R83, fourth condition: SEED only on PA_RECOVER. -/
def seedAllowed (f : CmdFields) : Bool := !f.seed || f.opc == 0x31

/-- R83: `legal(W)`, on the fields of W. -/
def legal (f : CmdFields) : Bool :=
  f.opcodeDefined && f.reservedZero && f.origAllowed && f.seedAllowed

end CmdFields

/-- The opcode of a command (R82). -/
def Instr.opcode : Instr → BitVec 8
  | .nop => 0x00
  | .cfgBuild => 0x01
  | .cfgUnlock => 0x02
  | .xfer => 0x03
  | .encBlk => 0x10
  | .synBlk => 0x11
  | .decBlk => 0x12
  | .encKey => 0x20
  | .decKey _ => 0x21
  | .locate _ => 0x28
  | .paCompress => 0x30
  | .paRecover _ => 0x31

/-- W[8] of a command's word: 1 only where "original length supplied" was asked for (R81). -/
def Instr.origBit : Instr → Bool
  | .decKey orig | .locate orig => orig
  | .nop | .cfgBuild | .cfgUnlock | .xfer | .encBlk | .synBlk | .decBlk | .encKey => false
  | .paCompress | .paRecover _ => false

/-- W[9] of a command's word: the seed of PA_RECOVER (R81). -/
def Instr.seedBit : Instr → Bool
  | .paRecover seed => seed
  | .nop | .cfgBuild | .cfgUnlock | .xfer | .encBlk | .synBlk | .decBlk | .encKey => false
  | .decKey _ | .locate _ | .paCompress => false

/-- The fields of a command's word (R80, R82). -/
def Instr.fields (i : Instr) : CmdFields :=
  { opc := i.opcode, orig := i.origBit, seed := i.seedBit, rsvd := 0 }

/-- A command is well-formed when its fields are legal (R83). -/
def Instr.wf (i : Instr) : Bool := i.fields.legal

end Sys2Proof
end

