-- ==== Sys2Proof/Decode.lean ====
section
/-! DEFINITION. The decoder of command words, total on all 2^32 words and on any bytes, rejecting by name (R80,
R83, R84), and after it the encoder written from the same encoding table (R80, R82). -/

namespace Sys2Proof

/-- Why a word is no legal command (R83, U15). The core completes such a command with ILLEGAL_CMD. -/
inductive DecodeError where
  /-- the bytes are not exactly one 32-bit word (R84) -/
  | notOneWord
  /-- OPC is none of the twelve defined opcodes -/
  | undefinedOpcode
  /-- W[31:10] ≠ 0 -/
  | reservedBits
  /-- ORIG is set on a command other than DEC_KEY and LOCATE -/
  | origNotAllowed
  /-- SEED is set on a command other than PA_RECOVER -/
  | seedNotAllowed
deriving DecidableEq, Repr

/-- R80: the fields of a word. -/
def CmdFields.ofWord (w : Word) : CmdFields :=
  { opc := w.extractLsb' 0 8, orig := w.getLsbD 8, seed := w.getLsbD 9, rsvd := w.extractLsb' 10 22 }

/-- R80: the word of given fields. -/
def CmdFields.toWord (f : CmdFields) : Word :=
  BitVec.ofNat 32 (f.opc.toNat + f.orig.toNat * 2 ^ 8 + f.seed.toNat * 2 ^ 9 + f.rsvd.toNat * 2 ^ 10)

/-- R82: the command an opcode names, with its one-bit operands. -/
def commandOf (opc : BitVec 8) (orig seed : Bool) : Option Instr :=
  match opc.toNat with
  | 0x00 => some .nop
  | 0x01 => some .cfgBuild
  | 0x02 => some .cfgUnlock
  | 0x03 => some .xfer
  | 0x10 => some .encBlk
  | 0x11 => some .synBlk
  | 0x12 => some .decBlk
  | 0x20 => some .encKey
  | 0x21 => some (.decKey orig)
  | 0x28 => some (.locate orig)
  | 0x30 => some .paCompress
  | 0x31 => some (.paRecover seed)
  | _ => none

/-- R80, R83: the command a word stands for, or the name of the first legality condition it breaks. -/
def decode (w : Word) : Except DecodeError Instr :=
  let f := CmdFields.ofWord w
  match commandOf f.opc f.orig f.seed with
  | none => .error .undefinedOpcode
  | some i =>
    if f.reservedZero = false then .error .reservedBits
    else if f.origAllowed = false then .error .origNotAllowed
    else if f.seedAllowed = false then .error .seedNotAllowed
    else .ok i

/-- R63: the word whose byte lane b is the b-th byte (little-endian), when there are exactly four. -/
def wordOfBytes : List Byte → Option Word
  | [b0, b1, b2, b3] =>
    some (BitVec.ofNat 32 (b0.toNat + b1.toNat * 2 ^ 8 + b2.toNat * 2 ^ 16 + b3.toNat * 2 ^ 24))
  | _ => none

/-- R63: the byte lanes of a word, lane 0 first. -/
def bytesOfWord (w : Word) : List Byte :=
  [w.extractLsb' 0 8, w.extractLsb' 8 8, w.extractLsb' 16 8, w.extractLsb' 24 8]

/-- The decoder on bytes as the bus port carries them. -/
def decodeBytes (bytes : List Byte) : Except DecodeError Instr :=
  match wordOfBytes bytes with
  | none => .error .notOneWord
  | some w => decode w

/-- A row of spec/opcode_table.json is one 32-bit word whose bit 0 is bit 0 of `w`; bits above `nbits` are 0. -/
def tableWord (nbits w : Nat) : Word := BitVec.ofNat 32 (w % 2 ^ nbits)

/-- The instruction the decoder reads from a table row's word. -/
def decodeTableWord (nbits w : Nat) : Option Instr :=
  (decodeBytes (bytesOfWord (tableWord nbits w))).toOption

/-- R82: the word of a command. -/
def encode (i : Instr) : Word := i.fields.toWord

/-- R85: the assembler spelling of a command. -/
def Instr.spelling : Instr → String
  | .nop => "nop"
  | .cfgBuild => "cfg.build"
  | .cfgUnlock => "cfg.unlock"
  | .xfer => "xfer"
  | .encBlk => "enc.blk"
  | .synBlk => "syn.blk"
  | .decBlk => "dec.blk"
  | .encKey => "enc.key"
  | .decKey false => "dec.key"
  | .decKey true => "dec.key orig"
  | .locate false => "locate"
  | .locate true => "locate orig"
  | .paCompress => "pa.cmp"
  | .paRecover false => "pa.rec 0"
  | .paRecover true => "pa.rec 1"

/-- The commands with every value of their one-bit operands: the fifteen legal words of R82. -/
def allInstrs : List Instr :=
  [.nop, .cfgBuild, .cfgUnlock, .xfer, .encBlk, .synBlk, .decBlk, .encKey, .decKey false, .decKey true,
    .locate false, .locate true, .paCompress, .paRecover false, .paRecover true]

/-- R85: the command of an assembler spelling. -/
def assemble (text : String) : Option Instr := allInstrs.find? fun i => i.spelling == text

end Sys2Proof
end

