-- ==== Sys2Proof/Machine/Bits.lean ====
section
/-! DEFINITION. Bit vectors and GF(2) sums in the notation of spec/00_scope.md (R8, R9, R10) and the bit packing of
R62. -/

namespace Sys2Proof.Machine

namespace Bits

/-- R8: `v[i]`, and 0 where there is no such index. -/
def bit (v : Bits) (i : Nat) : Bool := v.getD i false

/-- R8: `slice(v, a, l)`. -/
def slice (v : Bits) (a l : Nat) : Bits := (v.drop a).take l

/-- R8: `zeros(L)`. -/
def zeros (l : Nat) : Bits := List.replicate l false

/-- R8: `e_p`, the unit vector of length `n` with its 1 at `p`. -/
def unit (n p : Nat) : Bits := (List.range n).map fun j => j == p

/-- R8: `wt(v)`. -/
def weight (v : Bits) : Nat := v.count true

/-- R8: `v ⊕ w` of two equal-length vectors. -/
def add (v w : Bits) : Bits := List.zipWith xor v w

/-- R62: the integer whose bit i is `v[i]`. -/
def toNat : Bits → Nat
  | [] => 0
  | b :: v => b.toNat + 2 * toNat v

/-- R10, R62: `zext_32` of a vector of at most 32 bits, bit i of the word being `v[i]`. -/
def toWord (v : Bits) : Word := BitVec.ofNat 32 (toNat v)

/-- R62: the 32 bits of a word, bit 0 first. -/
def ofWord (w : Word) : Bits := (List.range 32).map w.getLsbD

/-- R62: word `w` of a bit buffer. -/
def wordAt (v : Bits) (w : Nat) : Word := toWord (slice v (32 * w) 32)

/-- R62: a bit buffer with its word `w` replaced. -/
def setWordAt (v : Bits) (w : Nat) (x : Word) : Bits :=
  v.take (32 * w) ++ ofWord x ++ v.drop (32 * w + 32)

/-- A buffer whose first bits are `v` and whose other bits are those of `old`. -/
def overlay (v old : Bits) : Bits := v ++ old.drop v.length

end Bits

/-- R9: the sum over GF(2) of `f 0, …, f (n − 1)`. -/
def bitSum : (n : Nat) → (Nat → Bool) → Bool
  | 0, _ => false
  | n + 1, f => xor (bitSum n f) (f n)

end Sys2Proof.Machine
end

