-- ==== Sys2Proof/Config.lean ====
section
/-! DEFINITION. What an implementation or the platform fixes (R5, R7, D2, D40, D49), and the free values of
spec/93_implementation_defined.md (U1, U2, U3) as constants without a body. -/

namespace Sys2Proof

/-- The implementation parameters of R5 (U17). They stand in State as plain data that no step changes, so a
statement about every state covers every implementation, not the default one alone. -/
structure Params where
  /-- `NMAX`: the largest codeword length. -/
  nmax     : Nat
  /-- `RMAX`: the largest number of parity-check rows; the syndrome table has 2^RMAX entries. -/
  rmax     : Nat
  /-- `KMAXBITS`: bits of IBUF and of OBUF, entries of LOCBUF. -/
  kmaxBits : Nat
deriving DecidableEq, Repr

/-- The legal ranges of R5. -/
abbrev Params.Legal (p : Params) : Prop :=
  (2 ≤ p.nmax ∧ p.nmax ≤ 32) ∧ (1 ≤ p.rmax ∧ p.rmax ≤ min 16 (p.nmax - 1)) ∧
    (p.kmaxBits % 32 = 0 ∧ 32 ≤ p.kmaxBits ∧ p.kmaxBits ≤ 16384)

/-- The default parameters of R5. -/
def Params.standard : Params := { nmax := 32, rmax := 8, kmaxBits := 4096 }

/-- A code configuration as the host loads it: N, K and the packed rows of G and H (R7, R28, R29). -/
structure CodeConfig where
  n     : Nat
  k     : Nat
  gRows : List Word
  hRows : List Word
deriving DecidableEq, Repr, Inhabited

namespace Config

/-- R7: the systematic Hamming [7,4,3] test configuration. PRESUMED by the spec (G1), log 27. -/
def ham74 : CodeConfig :=
  { n := 7, k := 4, gRows := [0x31, 0x52, 0x64, 0x78], hRows := [0x1B, 0x2D, 0x4E] }

/-- R7: the [7,1] repetition test configuration. -/
def rep7 : CodeConfig :=
  { n := 7, k := 1, gRows := [0x7F], hRows := [0x03, 0x05, 0x09, 0x11, 0x21, 0x41] }

/-- R7, D40, U11: the OPEN parameter `STEANE_CFG`. Nothing is known of it. DESIGN CHOICE, log 2 (with BASE and
IRQ_ROUTE below). -/
opaque steaneCfg : CodeConfig

/-- D2, U7: where the platform places the window, counted in windows of 0x20000 bytes. OPEN. -/
opaque baseWindow : Nat

/-- R5: `BASE`, aligned to 0x20000 by construction. -/
def base : Nat := 0x20000 * baseWindow

/-- R60: the host bus address of the byte offset `off` of the window. -/
def busAddress (off : Nat) : Nat := base + off

/-- R196, U8: the OPEN parameter `IRQ_ROUTE`, how IRQ reaches a host CPU. The core never reads it. -/
opaque irqRoute : Nat

/-- R22: the identification constant, "QFEC" with its first character in the most significant byte. -/
def idValue : Word := 0x51464543

/-- U1, U2: bit `i` of draw number `draw`, a FREE VALUE: an unspecified bit of IBUF or OBUF. DESIGN CHOICE,
log 3. -/
opaque freeBit (draw i : Nat) : Bool

/-- U1, U2, U3: word `i` of draw number `draw`, a FREE VALUE: an unspecified LOCBUF entry (one per entry), or
the unspecified value of a read while BUSY (word 0). -/
opaque freeWord (draw i : Nat) : Word

end Config

/-- The bits `start, …, start + len − 1` of one draw. -/
def freeBits (draw : Nat) : (start len : Nat) → Bits
  | _, 0 => []
  | i, len + 1 => Config.freeBit draw i :: freeBits draw (i + 1) len

/-- The words `start, …, start + len − 1` of one draw. -/
def freeWords (draw : Nat) : (start len : Nat) → List Word
  | _, 0 => []
  | i, len + 1 => Config.freeWord draw i :: freeWords draw (i + 1) len

end Sys2Proof
end

