-- ==== Sys2Proof/Machine/State.lean ====
section
/-! DEFINITION. Every piece of state the spec gives the core (R20), the model's own environment fields (the host
script, the schedule, the reset input, the draw counter), the reasons a step can stop, and the state after reset. -/

namespace Sys2Proof.Machine

/-- STATUS (R23) without ERRF, which is computed from ERR (R102), and without its reserved bits, which read 0. -/
structure Status where
  /-- bit 0 -/
  busy     : Bool
  /-- bit 1, W1C -/
  done     : Bool
  /-- bit 3 -/
  uncorr   : Bool
  /-- bit 4 -/
  underlen : Bool
  /-- bit 5, W1C -/
  ovr      : Bool
  /-- bit 6, W1C -/
  wign     : Bool
  /-- bit 7 -/
  locked   : Bool
deriving DecidableEq, Repr

/-- ERR.CODE (R191). The codes 0x09–0xFF are never produced (U16), so they have no constructor. -/
inductive ErrCode where
  | none
  | illegalCmd
  | notConfigured
  | cfgLocked
  | cfgRange
  | cfgOrtho
  | cfgMpos
  | invalidLength
  | capacity
deriving DecidableEq, Repr

/-- ERR (R25): CODE and OPC. Its reserved bits read 0. -/
structure ErrReg where
  code : ErrCode
  opc  : BitVec 8
deriving DecidableEq, Repr

/-- CFG (R27): N, K and PA. Its reserved bits read 0 and ignore writes. -/
structure Cfg where
  n  : BitVec 6
  k  : BitVec 6
  pa : Bool
deriving DecidableEq, Repr

/-- A valid entry of the syndrome table (R42): the pattern, N bits, and its weight (0, 1 or 2). -/
structure TblEntry where
  pattern : Bits
  weight  : BitVec 2
deriving DecidableEq, Repr

/-- The data buffers (R39, R40, R41), every bit and every entry listed: unspecified ones hold a free value
(DESIGN CHOICE, log 5). -/
structure Memory where
  /-- IBUF: KMAXBITS bits, bit i first -/
  ibuf   : Bits
  /-- OBUF: KMAXBITS bits -/
  obuf   : Bits
  /-- LOCBUF: KMAXBITS entries -/
  locbuf : List Word
deriving DecidableEq, Repr

/-- The one form a memory has under given parameters: every buffer at its full size (R39–R41). With it, equal
contents are equal data. -/
def Memory.wf (p : Params) (m : Memory) : Bool :=
  m.ibuf.length == p.kmaxBits && m.obuf.length == p.kmaxBits && m.locbuf.length == p.kmaxBits

/-- A value in a host script (R86): a literal, or the host's variable `t`, which the last read set. -/
inductive HostVal where
  | lit (v : Word)
  | t
deriving DecidableEq, Repr

/-- A statement of a host script (R86). Offsets are byte offsets from BASE, widths are in bytes (R64). -/
inductive HostStmt where
  /-- `MemWrite(offset, width, v)` -/
  | wr (offset width : Nat) (v : HostVal)
  /-- `rd` and `t = rd`: `MemRead(offset, width)`, its value left in `t` (for a plain `rd`: DESIGN CHOICE, log 10) -/
  | rd (offset width : Nat)
  /-- `L:` -/
  | label (l : Nat)
  /-- `bnz v, mask, L` -/
  | bnz (v : HostVal) (mask : Word) (l : Nat)
  /-- `b L` -/
  | b (l : Nat)
deriving DecidableEq, Repr

/-- The host agent (R202): its script, the index of its next statement and its variable `t`. THE MODEL'S OWN: the
host's program counter and registers are outside the core (R21). -/
structure HostAgent where
  script : List HostStmt
  pc     : Nat
  t      : Word
deriving DecidableEq, Repr

/-- Who moves next (U12): the two agents of R202, and the two edges of the reset input (R215). -/
inductive Turn where
  | host
  | core
  | resetAssert
  | resetRelease
deriving DecidableEq, Repr

structure State where
  /-- NMAX, RMAX, KMAXBITS: constants of the implementation, read through PARAM (R5, R22). DESIGN CHOICE, log 1 -/
  params  : Params
  /-- STATUS (R23); `busy` is also the hidden BUSY condition of R43 -/
  status  : Status
  /-- CTRL.IE (R24) -/
  ie      : Bool
  /-- ERR (R25) -/
  err     : ErrReg
  /-- PEND (R43), which is also the CMD readback (R26). DEDUCED, log 12 -/
  pend    : Word
  /-- CFG (R27) -/
  cfg     : Cfg
  /-- G_ROW[0..31] (R28); slots that do not exist hold 0 -/
  gRow    : Vector Word 32
  /-- H_ROW[0..31] (R29); slots that do not exist hold 0 -/
  hRow    : Vector Word 32
  /-- MPOS[0..31] (R30) -/
  mpos    : Vector (BitVec 5) 32
  /-- TABLE (R42): 2^RMAX entries by syndrome, `none` for an invalid one -/
  table   : List (Option TblEntry)
  /-- ILEN (R31) -/
  ilen    : Word
  /-- ORIGLEN (R32) -/
  origLen : Word
  /-- OLEN (R33) -/
  olen    : Word
  /-- SYND[15:0] (R34) -/
  synd    : BitVec 16
  /-- EPAT (R35) -/
  epat    : Word
  /-- NBLK (R36) -/
  nblk    : Word
  /-- NCORR (R36) -/
  ncorr   : Word
  /-- NUNCORR (R36) -/
  nuncorr : Word
  /-- LOCCNT (R37) -/
  loccnt  : Word
  /-- TBL_IDX[15:0] (R38) -/
  tblIdx  : BitVec 16
  /-- IBUF, OBUF, LOCBUF (R39, R40, R41) -/
  mem     : Memory
  /-- the reset input (R215): true while it is asserted. An input of the core, held here. DESIGN CHOICE, log 8 -/
  resetIn : Bool
  /-- the host agent. THE MODEL'S OWN: DESIGN CHOICE, log 10 -/
  host    : HostAgent
  /-- the turns that come next, the first first; when none is left, `defaultTurn` decides. THE MODEL'S OWN:
  DESIGN CHOICE, log 9 -/
  sched   : List Turn
  /-- the number of the next draw of free values. THE MODEL'S OWN: DESIGN CHOICE, log 3 -/
  draws   : Nat
deriving DecidableEq, Repr

/-- The reasons the machine stops with a fault. THERE IS NONE: an error is a property of one command's completion,
never a trap, and no fault state blocks later commands (R190; DEDUCED, log 23). Every command answers a next state. -/
inductive Fault where
deriving DecidableEq, Repr

/-- The reasons a step is refused. -/
inductive Refusal where
  /-- An instruction without a meaning. Nothing raises it: every arm of exec has its meaning. Safe. -/
  | notModelled (mnemonic : String)
  /-- Raised by the host agent's `wr` or `rd` when the access is not an aligned 32-bit access inside the window:
  R64 and U4 say a model refuses it. Safe. -/
  | undefinedAccess (offset width : Nat)
  /-- Raised by the host agent's `wr` or `rd` while the reset input is asserted: R215 and U14 say a model refuses
  it. Safe. -/
  | accessDuringReset (offset : Nat)
  /-- Raised by the host agent's `bnz` or `b` when the script has no such label: no host script of R86. Safe. -/
  | undefinedLabel (l : Nat)
deriving DecidableEq, Repr

/-- R46, R215: the core right after reset, with the default parameters of R5. IBUF, OBUF and LOCBUF are the draws
0, 1 and 2 (U1; DESIGN CHOICE, log 4). The environment: an empty script, no turns, the reset input released. -/
def State.reset : State :=
  { params := Params.standard
    status :=
      { busy := false, done := false, uncorr := false, underlen := false, ovr := false, wign := false,
        locked := false }
    ie := false
    err := { code := .none, opc := 0 }
    pend := 0
    cfg := { n := 0, k := 0, pa := false }
    gRow := Vector.replicate 32 0
    hRow := Vector.replicate 32 0
    mpos := Vector.replicate 32 0
    table := List.replicate (2 ^ Params.standard.rmax) none
    ilen := 0
    origLen := 0
    olen := 0
    synd := 0
    epat := 0
    nblk := 0
    ncorr := 0
    nuncorr := 0
    loccnt := 0
    tblIdx := 0
    mem :=
      { ibuf := freeBits 0 0 Params.standard.kmaxBits
        obuf := freeBits 1 0 Params.standard.kmaxBits
        locbuf := freeWords 2 0 Params.standard.kmaxBits }
    resetIn := false
    host := { script := [], pc := 0, t := 0 }
    sched := []
    draws := 3 }

end Sys2Proof.Machine
end

