-- ==== Sys2Proof/Machine/Flags.lean ====
section
/-! DEFINITION. The words of the status, control, error and parameter registers, computed from their fields, and the
interrupt output (R22–R25, R27, R44). -/

namespace Sys2Proof.Machine

/-- R191: the number of an error code. -/
def ErrCode.number : ErrCode → BitVec 8
  | .none => 0x00
  | .illegalCmd => 0x01
  | .notConfigured => 0x02
  | .cfgLocked => 0x03
  | .cfgRange => 0x04
  | .cfgOrtho => 0x05
  | .cfgMpos => 0x06
  | .invalidLength => 0x07
  | .capacity => 0x08

namespace State

/-- R23, R102: STATUS.ERRF reads `ERR.CODE ≠ 0` (no state of its own: DEDUCED, log 13). -/
def errf (s : State) : Bool := s.err.code.number != 0

/-- R44, R196: IRQ = STATUS.DONE AND CTRL.IE. -/
def irq (s : State) : Bool := s.status.done && s.ie

/-- R23: the STATUS word with its bits 2, 3, 4 and 7 given. -/
def statusBits (s : State) (errf uncorr underlen locked : Bool) : Word :=
  Bits.toWord
    [s.status.busy, s.status.done, errf, uncorr, underlen, s.status.ovr, s.status.wign, locked]

/-- R23: the STATUS word. -/
def statusWord (s : State) : Word :=
  s.statusBits s.errf s.status.uncorr s.status.underlen s.status.locked

/-- R219: what STATUS reads while BUSY = 1: BUSY, DONE, OVR and WIGN are defined, ERRF, UNCORR, UNDERLEN and LOCKED
are those bits of the free value `draw`, the reserved bits read 0 (R23; DEDUCED, log 15). -/
def statusWordBusy (s : State) (draw : Word) : Word :=
  s.statusBits (draw.getLsbD 2) (draw.getLsbD 3) (draw.getLsbD 4) (draw.getLsbD 7)

/-- R24: the CTRL word; SRST reads 0. -/
def ctrlWord (s : State) : Word := Bits.toWord [s.ie]

/-- R25: the ERR word. -/
def errWord (s : State) : Word :=
  BitVec.ofNat 32 (s.err.code.number.toNat + s.err.opc.toNat * 2 ^ 8)

/-- R22: the PARAM word: NMAX at [5:0], RMAX at [12:8], KMAXBITS / 32 at [31:16]. -/
def paramWord (s : State) : Word :=
  BitVec.ofNat 32 (s.params.nmax + s.params.rmax * 2 ^ 8 + s.params.kmaxBits / 32 * 2 ^ 16)

/-- R27: the CFG word. -/
def cfgWord (s : State) : Word :=
  BitVec.ofNat 32 (s.cfg.n.toNat + s.cfg.k.toNat * 2 ^ 8 + s.cfg.pa.toNat * 2 ^ 16)

end State

/-- R27: the fields of a word written to CFG; its reserved bits are ignored. -/
def Cfg.ofWord (v : Word) : Cfg :=
  { n := v.extractLsb' 0 6, k := v.extractLsb' 8 6, pa := v.getLsbD 16 }

/-- R23: a write to STATUS clears the W1C bits DONE, OVR and WIGN written with 1; every other bit is unaffected. -/
def Status.clearW1C (st : Status) (v : Word) : Status :=
  { st with
    done := st.done && !v.getLsbD 1
    ovr := st.ovr && !v.getLsbD 5
    wign := st.wign && !v.getLsbD 6 }

end Sys2Proof.Machine
end

