-- ==== Sys2Proof/Machine/Linear.lean ====
section
/-! DEFINITION. The linear block code and the syndrome decoder as functions of a code and a table
(spec/41_linear_block_code.md, and the build steps R106–R109 of spec/40_control.md). -/

namespace Sys2Proof.Machine

/-- The LinearCode: N, K and the rows of G and H. A view of CFG, G_ROW and H_ROW (R20), not state of its own. -/
structure Code where
  n : Nat
  k : Nat
  g : Vector Word 32
  h : Vector Word 32
deriving DecidableEq, Repr

/-- R12: bit p of row i of a packed matrix. -/
def rowBit (rows : Vector Word 32) (i p : Nat) : Bool := (rows[i]?.getD 0).getLsbD p

/-- The values of a list of options, when every one is there. -/
def allSome : List (Option Nat) → Option (List Nat)
  | [] => some []
  | none :: _ => none
  | some a :: rest => (allSome rest).map (a :: ·)

namespace Code

/-- R6: R = N − K. -/
def r (c : Code) : Nat := c.n - c.k

/-- R12: `G[i][p]`. -/
def gBit (c : Code) (i p : Nat) : Bool := rowBit c.g i p

/-- R12: `H[r][p]`. -/
def hBit (c : Code) (i p : Nat) : Bool := rowBit c.h i p

/-- R121: the syndrome vector, bit r being `Σ_{p<N} H[r][p]·v[p]`. -/
def svec (c : Code) (v : Bits) : Bits :=
  (List.range c.r).map fun i => bitSum c.n fun p => c.hBit i p && Bits.bit v p

/-- R121: the canonical syndrome integer. -/
def syn (c : Code) (v : Bits) : Nat := Bits.toNat (c.svec v)

/-- R12: `HCOL[p]`, the integer whose bit r is `H[r][p]`. -/
def hcol (c : Code) (p : Nat) : Nat := Bits.toNat ((List.range c.r).map fun i => c.hBit i p)

/-- R122: encoding, bit p being `Σ_{i<K} m[i]·G[i][p]`. -/
def enc (c : Code) (m : Bits) : Bits :=
  (List.range c.n).map fun p => bitSum c.k fun i => Bits.bit m i && c.gBit i p

/-- R123: E0. -/
def patterns0 (c : Code) : List Bits := [Bits.zeros c.n]

/-- R123: E1, ascending position. -/
def patterns1 (c : Code) : List Bits := (List.range c.n).map (Bits.unit c.n)

/-- R123: E2, lexicographic (p, q) with p < q. -/
def patterns2 (c : Code) : List Bits :=
  (List.range c.n).flatMap fun p =>
    (List.range' (p + 1) (c.n - (p + 1))).map fun q => Bits.add (Bits.unit c.n p) (Bits.unit c.n q)

/-- R123: the enumeration order E. -/
def patterns (c : Code) : List Bits := c.patterns0 ++ c.patterns1 ++ c.patterns2

/-- R106: check_range. -/
def rangeOk (p : Params) (c : Code) : Bool :=
  decide (1 ≤ c.k) && decide (c.k < c.n) && decide (c.n ≤ p.nmax) && decide (c.r ≤ p.rmax)

/-- R107: check_ortho, H·Gᵗ = 0. -/
def orthoOk (c : Code) : Bool :=
  (List.range c.r).all fun i => (List.range c.k).all fun j =>
    !(bitSum c.n fun p => c.hBit i p && c.gBit j p)

/-- R108: column p of G is the unit column e_j. -/
def isUnitColumn (c : Code) (j p : Nat) : Bool :=
  (List.range c.k).all fun i => c.gBit i p == (i == j)

/-- R108: the lowest codeword position whose G column is e_j. -/
def messagePosition (c : Code) (j : Nat) : Option Nat := (List.range c.n).find? (c.isUnitColumn j)

/-- R108: derive_mpos, `none` when some message index has no unit column. -/
def deriveMpos (c : Code) : Option (List Nat) := allSome ((List.range c.k).map c.messagePosition)

/-- R109: one pattern of the enumeration offered to the table, first-writer-wins (outside the table: DESIGN CHOICE,
log 18). -/
def claim (c : Code) (table : List (Option TblEntry)) (e : Bits) : List (Option TblEntry) :=
  match table[c.syn e]? with
  | some none => table.set (c.syn e) (some { pattern := e, weight := BitVec.ofNat 2 (Bits.weight e) })
  | some (some _) | none => table

/-- R109: build_table, on a table of 2^RMAX entries. -/
def buildTable (p : Params) (c : Code) : List (Option TblEntry) :=
  c.patterns.foldl c.claim (List.replicate (2 ^ p.rmax) none)

/-- R124: the bounded minimum-weight search. -/
def search (c : Code) (s : Nat) : Option Bits := (c.patterns1 ++ c.patterns2).find? fun e => c.syn e == s

/-- R124: resolution of a syndrome: the pattern, or `none` for UNCORRECTABLE. -/
def resolve (c : Code) (table : List (Option TblEntry)) (s : Nat) : Option Bits :=
  match table.getD s none with
  | some entry => some entry.pattern
  | none => c.search s

/-- R125: `first(s)`, the first pattern of the enumeration with syndrome s. -/
def first (c : Code) (s : Nat) : Option Bits := c.patterns.find? fun e => c.syn e == s

end Code

/-- What the decoder finds in one block (R127): its syndrome, the pattern resolution gave (zeros when
uncorrectable), and whether the syndrome was correctable. -/
structure BlockResult where
  synd        : Nat
  pattern     : Bits
  correctable : Bool
deriving DecidableEq, Repr

namespace Code

/-- R124, R127: syndrome and resolution of a received block. -/
def inspect (c : Code) (table : List (Option TblEntry)) (v : Bits) : BlockResult :=
  match c.resolve table (c.syn v) with
  | some e => { synd := c.syn v, pattern := e, correctable := true }
  | none => { synd := c.syn v, pattern := Bits.zeros c.n, correctable := false }

/-- R165: as `inspect`, but a zero syndrome is taken as error-free without resolution. -/
def inspectNonzero (c : Code) (table : List (Option TblEntry)) (v : Bits) : BlockResult :=
  if c.syn v = 0 then { synd := 0, pattern := Bits.zeros c.n, correctable := true }
  else c.inspect table v

/-- R126: message bit j is read at MPOS[j]. -/
def extract (c : Code) (mpos : Vector (BitVec 5) 32) (v : Bits) : Bits :=
  (List.range c.k).map fun j => Bits.bit v (mpos[j]?.getD 0).toNat

/-- R127: the message of a received block after correction. -/
def decodeMessage (c : Code) (mpos : Vector (BitVec 5) 32) (table : List (Option TblEntry)) (v : Bits) : Bits :=
  c.extract mpos (Bits.add v (c.inspect table v).pattern)

end Code

namespace BlockResult

/-- R36: the resolved pattern was non-zero and applied. -/
def corrected (b : BlockResult) : Bool := b.correctable && b.pattern.any id

end BlockResult

end Sys2Proof.Machine
end

