-- ==== Sys2Proof/Machine/Operands.lean ====
section
/-! DEFINITION. The operands of the commands (R81): the configuration, the input `IBUF[0..ILEN−1]`, its segmentation
into blocks (R150), and the optional length ORIGLEN. -/

namespace Sys2Proof.Machine

/-- R150: `nblocks(L, b) = ⌈L / b⌉`, 0 when L = 0. -/
def nblocks (l b : Nat) : Nat := (l + b - 1) / b

/-- R150: `v` with as few trailing zeros as make its length a multiple of `b`. -/
def padded (v : Bits) (b : Nat) : Bits := v ++ Bits.zeros (nblocks v.length b * b - v.length)

/-- R150: `block_t`. -/
def blockAt (v : Bits) (b t : Nat) : Bits := Bits.slice (padded v b) (t * b) b

/-- R150: the blocks of `v` in order. -/
def blocks (v : Bits) (b : Nat) : List Bits := (List.range (nblocks v.length b)).map (blockAt v b)

namespace State

/-- R27–R29: the code that CFG, G_ROW and H_ROW hold. -/
def code (s : State) : Code :=
  { n := s.cfg.n.toNat, k := s.cfg.k.toNat, g := s.gRow, h := s.hRow }

/-- R31, R81: the input `IBUF[0..ILEN−1]`. -/
def input (s : State) : Bits := Bits.slice s.mem.ibuf 0 s.ilen.toNat

/-- R193: ILEN ≤ KMAXBITS fails. -/
def inputTooLong (s : State) : Bool := decide (s.params.kmaxBits < s.ilen.toNat)

/-- R152: `Lout = min(ORIGLEN, full)` when ORIG = 1, else `full`. -/
def outputLength (s : State) (orig : Bool) (full : Nat) : Nat :=
  if orig then min s.origLen.toNat full else full

/-- R165: a global position is reported when ORIG = 0 or it is below ORIGLEN. -/
def positionKept (s : State) (orig : Bool) (g : Nat) : Bool := !orig || decide (g < s.origLen.toNat)

end State

end Sys2Proof.Machine
end

