-- ==== Sys2Proof/Machine/Ops.lean ====
section
/-! DEFINITION. The operations every command shares: acceptance (R100), completion (R102), raising an error (R11,
R190, R195), the frame of EXEC (R101), reset (R46), and the writes to OBUF, LOCBUF and the block counters. -/

namespace Sys2Proof.Machine

namespace State

/-- R100: acceptance of the word `w`. -/
def accept (w : Word) (s : State) : State :=
  { s with
    pend := w
    err := { code := .none, opc := 0 }
    status := { s.status with busy := true, done := false, uncorr := false, underlen := false } }

/-- R102: completion. -/
def complete (s : State) : State :=
  { s with status := { s.status with busy := false, done := true } }

/-- R11, R25, R191, R195: TAKING AN ERROR, the core's one exception: CODE and the opcode of the failing command are
recorded, nothing else is written, and the command completes (R102). There is no redirection and no return
(R190, R197): the host acknowledges by `clearW1C` or by the next acceptance. -/
def raiseError (code : ErrCode) (s : State) : State :=
  { s with err := { code := code, opc := s.pend.extractLsb' 0 8 } }.complete

/-- R23, R194: `set UNCORR` when `b` holds. -/
def setUncorrWhen (b : Bool) (s : State) : State :=
  { s with status := { s.status with uncorr := s.status.uncorr || b } }

/-- R23, R194: `set UNDERLEN` when `b` holds. -/
def setUnderlenWhen (b : Bool) (s : State) : State :=
  { s with status := { s.status with underlen := s.status.underlen || b } }

/-- R33, R40, U2: OBUF[0..OLEN−1] holds `out`; every bit at or above OLEN is a fresh free value
(DEDUCED, log 6). -/
def writeObuf (out : Bits) (s : State) : State :=
  { s with
    mem.obuf := out ++ freeBits s.draws out.length (s.params.kmaxBits - out.length)
    olen := BitVec.ofNat 32 out.length
    draws := s.draws + 1 }

/-- R37, R41, U2: LOCBUF[0..LOCCNT−1] holds `positions`; every entry at or above LOCCNT is a fresh free value
(DEDUCED, log 6). -/
def writeLocbuf (positions : List Nat) (s : State) : State :=
  { s with
    mem.locbuf :=
      positions.map (BitVec.ofNat 32) ++
        freeWords s.draws positions.length (s.params.kmaxBits - positions.length)
    loccnt := BitVec.ofNat 32 positions.length
    draws := s.draws + 1 }

/-- R34, R35, R36, R194: SYND and EPAT of the last block (0 when there is none), NBLK, NCORR and NUNCORR, and
UNCORR when some block was uncorrectable. -/
def writeBlockResults (results : List BlockResult) (s : State) : State :=
  { s.setUncorrWhen (results.any fun b => !b.correctable) with
    synd := (results.getLast?.map fun b => BitVec.ofNat 16 b.synd).getD 0
    epat := (results.getLast?.map fun b => Bits.toWord b.pattern).getD 0
    nblk := BitVec.ofNat 32 results.length
    ncorr := BitVec.ofNat 32 (results.countP BlockResult.corrected)
    nuncorr := BitVec.ofNat 32 (results.countP fun b => !b.correctable) }

/-- R46, R215, R216: every piece of the core's state at its reset value; the buffers are three fresh draws (U1;
DEDUCED, log 7). The parameters and the environment (host, schedule, reset input) are kept. -/
def resetCore (s : State) : State :=
  { s with
    status :=
      { busy := false, done := false, uncorr := false, underlen := false, ovr := false, wign := false,
        locked := false }
    ie := false
    err := { code := .none, opc := 0 }
    pend := 0
    cfg := { n := 0, k := 0, pa := false }
    gRow := Vector.replicate 32 0
    hRow := Vector.replicate 32 0
    mpos := Vector.replicate 32 0
    table := List.replicate (2 ^ s.params.rmax) none
    ilen := 0
    origLen := 0
    olen := 0
    synd := 0
    epat := 0
    nblk := 0
    ncorr := 0
    nuncorr := 0
    loccnt := 0
    tblIdx := 0
    mem :=
      { ibuf := freeBits s.draws 0 s.params.kmaxBits
        obuf := freeBits (s.draws + 1) 0 s.params.kmaxBits
        locbuf := freeWords (s.draws + 2) 0 s.params.kmaxBits }
    draws := s.draws + 3 }

end State

/-- R101, R195: EXEC of one command, given what its rule does: either the results are written and it completes, or
an error is raised before any write and it completes. -/
def runCommand (body : State → Except ErrCode State) (s : State) : Host.Outcome State Fault Refusal :=
  match body s with
  | .ok t => .next t.complete
  | .error code => .next (s.raiseError code)

end Sys2Proof.Machine
end

