-- ==== Sys2Proof/Machine/Block.lean ====
section
/-! DEFINITION. The block commands ENC_BLK, SYN_BLK and DEC_BLK (spec/41_linear_block_code.md section 2). -/

namespace Sys2Proof.Machine

/-- R128. -/
def encBlkBody (s : State) : Except ErrCode State :=
  if s.status.locked = false then .error .notConfigured
  else if s.inputTooLong = true then .error .capacity
  else if s.ilen.toNat ≠ s.code.k then .error .invalidLength
  else .ok (s.writeObuf (s.code.enc s.input))

/-- ENC_BLK (R128). -/
def execEncBlk (s : State) : Host.Outcome State Fault Refusal := runCommand encBlkBody s

/-- R129. -/
def synBlkBody (s : State) : Except ErrCode State :=
  if s.status.locked = false then .error .notConfigured
  else if s.inputTooLong = true then .error .capacity
  else if s.ilen.toNat ≠ s.code.n then .error .invalidLength
  else .ok { s.writeObuf (s.code.svec s.input) with synd := BitVec.ofNat 16 (s.code.syn s.input) }

/-- SYN_BLK (R129). -/
def execSynBlk (s : State) : Host.Outcome State Fault Refusal := runCommand synBlkBody s

/-- R130. -/
def decBlkBody (s : State) : Except ErrCode State :=
  if s.status.locked = false then .error .notConfigured
  else if s.inputTooLong = true then .error .capacity
  else if s.ilen.toNat ≠ s.code.n then .error .invalidLength
  else
    .ok ((s.writeObuf (s.code.decodeMessage s.mpos s.table s.input)).writeBlockResults
      [s.code.inspect s.table s.input])

/-- DEC_BLK (R130). -/
def execDecBlk (s : State) : Host.Outcome State Fault Refusal := runCommand decBlkBody s

end Sys2Proof.Machine
end

