-- ==== Sys2Proof/Machine/Control.lean ====
section
/-! DEFINITION. The control commands NOP, CFG_BUILD, CFG_UNLOCK and XFER (spec/40_control.md). -/

namespace Sys2Proof.Machine

/-- NOP (R104). -/
def execNop (s : State) : Host.Outcome State Fault Refusal := runCommand .ok s

/-- R110: commit of a build. -/
def State.commitBuild (mpos : List Nat) (table : List (Option TblEntry)) (s : State) : State :=
  { s with
    mpos := Vector.ofFn fun j => BitVec.ofNat 5 (mpos.getD j.val 0)
    table := table
    status := { s.status with locked := true } }

/-- R105: CFG_LOCKED, CFG_RANGE, CFG_ORTHO and CFG_MPOS in that order, then the commit. -/
def cfgBuildBody (s : State) : Except ErrCode State :=
  if s.status.locked = true then .error .cfgLocked
  else if s.code.rangeOk s.params = false then .error .cfgRange
  else if s.code.orthoOk = false then .error .cfgOrtho
  else
    match s.code.deriveMpos with
    | none => .error .cfgMpos
    | some mpos => .ok (s.commitBuild mpos (s.code.buildTable s.params))

/-- CFG_BUILD (R105). -/
def execCfgBuild (s : State) : Host.Outcome State Fault Refusal := runCommand cfgBuildBody s

/-- R111: LOCKED, TABLE and MPOS are released; CFG, G_ROW and H_ROW keep their values. -/
def State.unlock (s : State) : State :=
  { s with
    status := { s.status with locked := false }
    table := List.replicate (2 ^ s.params.rmax) none
    mpos := Vector.replicate 32 0 }

/-- CFG_UNLOCK (R111). -/
def execCfgUnlock (s : State) : Host.Outcome State Fault Refusal := runCommand (fun s => .ok s.unlock) s

/-- R112: IBUF[0..OLEN−1] and ILEN become those of OBUF; IBUF bits at or above OLEN are unchanged. -/
def State.transfer (s : State) : State :=
  { s with
    mem.ibuf := Bits.overlay (Bits.slice s.mem.obuf 0 s.olen.toNat) s.mem.ibuf
    ilen := s.olen }

/-- XFER (R112). -/
def execXfer (s : State) : Host.Outcome State Fault Refusal := runCommand (fun s => .ok s.transfer) s

end Sys2Proof.Machine
end

