-- ==== Sys2Proof/Machine/KeyCodec.lean ====
section
/-! DEFINITION. The key commands ENC_KEY and DEC_KEY (spec/42_key_codec.md). -/

namespace Sys2Proof.Machine

/-- R151: the blocks of the padded key, each encoded, in order. -/
def Code.encodeKey (c : Code) (key : Bits) : Bits := (blocks key c.k).flatMap c.enc

/-- R151. -/
def encKeyBody (s : State) : Except ErrCode State :=
  if s.status.locked = false then .error .notConfigured
  else if s.inputTooLong = true then .error .capacity
  else if s.params.kmaxBits < nblocks s.ilen.toNat s.code.k * s.code.n then .error .capacity
  else .ok (s.writeObuf (s.code.encodeKey s.input))

/-- ENC_KEY (R151). -/
def execEncKey (s : State) : Host.Outcome State Fault Refusal := runCommand encKeyBody s

/-- R152: the messages of the blocks of the padded received key, in order, before trimming. -/
def Code.decodeKey (c : Code) (mpos : Vector (BitVec 5) 32) (table : List (Option TblEntry)) (received : Bits) :
    Bits :=
  (blocks received c.n).flatMap (c.decodeMessage mpos table)

/-- R152: every block is decoded and counted, also where the trim drops its output. -/
def decKeyBody (orig : Bool) (s : State) : Except ErrCode State :=
  if s.status.locked = false then .error .notConfigured
  else if s.inputTooLong = true then .error .capacity
  else
    let lout := s.outputLength orig (nblocks s.ilen.toNat s.code.n * s.code.k)
    if s.params.kmaxBits < lout then .error .capacity
    else
      .ok ((s.writeObuf ((s.code.decodeKey s.mpos s.table s.input).take lout)).writeBlockResults
        ((blocks s.input s.code.n).map (s.code.inspect s.table)))

/-- DEC_KEY (R152). -/
def execDecKey (orig : Bool) (s : State) : Host.Outcome State Fault Refusal := runCommand (decKeyBody orig) s

end Sys2Proof.Machine
end

