-- ==== Sys2Proof/Machine/Locator.lean ====
section
/-! DEFINITION. The error locator LOCATE (spec/43_error_locator.md). -/

namespace Sys2Proof.Machine

/-- R165: the results of the blocks of the padded received key, in order. -/
def Code.locateResults (c : Code) (table : List (Option TblEntry)) (received : Bits) : List BlockResult :=
  (blocks received c.n).map (c.inspectNonzero table)

/-- R165: the set bits of block t's pattern as global positions `t·N + p`, ascending p. -/
def Code.blockPositions (c : Code) (t : Nat) (b : BlockResult) : List Nat :=
  ((List.range c.n).filter (Bits.bit b.pattern)).map fun p => t * c.n + p

/-- R165: the global positions of all blocks in order, the first block having index `t`. -/
def Code.globalPositions (c : Code) : (t : Nat) → List BlockResult → List Nat
  | _, [] => []
  | t, b :: rest => c.blockPositions t b ++ c.globalPositions (t + 1) rest

/-- R165. OBUF and OLEN are not written. -/
def locateBody (orig : Bool) (s : State) : Except ErrCode State :=
  if s.status.locked = false then .error .notConfigured
  else if s.inputTooLong = true then .error .capacity
  else
    let results := s.code.locateResults s.table s.input
    .ok ((s.writeLocbuf ((s.code.globalPositions 0 results).filter (s.positionKept orig))).writeBlockResults results)

/-- LOCATE (R165). -/
def execLocate (orig : Bool) (s : State) : Host.Outcome State Fault Refusal := runCommand (locateBody orig) s

end Sys2Proof.Machine
end

