-- ==== Sys2Proof/Machine/Amplifier.lean ====
section
/-! DEFINITION. The two privacy-amplification schemes as functions of bit vectors (spec/44_privacy_amplifier.md,
R176–R179). -/

namespace Sys2Proof.Machine.Amplifier

/-- R176: `(x⊕y, y⊕z)` for each non-overlapping triple; trailing bits that fill no triple are dropped. -/
def windows : Bits → Bits
  | x :: y :: z :: rest => xor x y :: xor y z :: windows rest
  | [_, _] | [_] | [] => []

/-- R176: three-bit compression; the flag is UNDER. -/
def compress3 (k : Bits) : Bits × Bool :=
  if k.length < 3 then (k, true) else (windows k, false)

/-- R177, R179: the chain that starts at `r` and adds each stored bit in turn: `r, r⊕c[0], r⊕c[0]⊕c[1], …`. -/
def chain (r : Bool) : Bits → Bits
  | [] => [r]
  | b :: c => r :: chain (xor r b) c

/-- R177: three-bit recovery; the flag is UNDER. `c[0]` and an odd trailing bit are not read. -/
def recover3 (c : Bits) (seed : Bool) : Bits × Bool :=
  let w := c.length / 2
  if w = 0 then ([], true) else (chain seed ((c.take (2 * w)).drop 1), false)

/-- R178: adjacent-XOR compression; the flag is UNDER. -/
def compressA (k : Bits) : Bits × Bool :=
  if k.length < 2 then (k, true) else (List.zipWith xor k (k.drop 1), false)

/-- R179: adjacent-XOR recovery; it has no under-length case. -/
def recoverA (c : Bits) (seed : Bool) : Bits × Bool := (chain seed c, false)

end Sys2Proof.Machine.Amplifier
end

