-- ==== Sys2Proof/Machine/PrivacyAmp.lean ====
section
/-! DEFINITION. The privacy-amplification commands PA_COMPRESS and PA_RECOVER (R175, R180, R181). -/

namespace Sys2Proof.Machine

/-- R180, R181: OBUF and OLEN from the output, and UNDERLEN when the flag says so. -/
def State.writeAmplified (result : Bits × Bool) (s : State) : State :=
  (s.writeObuf result.1).setUnderlenWhen result.2

/-- R175: CFG.PA = 0 selects the three-bit scheme, 1 the adjacent-XOR scheme. -/
def State.compressed (s : State) : Bits × Bool :=
  if s.cfg.pa = true then Amplifier.compressA s.input else Amplifier.compress3 s.input

/-- R175, for recovery. -/
def State.recovered (seed : Bool) (s : State) : Bits × Bool :=
  if s.cfg.pa = true then Amplifier.recoverA s.input seed else Amplifier.recover3 s.input seed

/-- R180. -/
def paCompressBody (s : State) : Except ErrCode State :=
  if s.status.locked = false then .error .notConfigured
  else if s.inputTooLong = true then .error .capacity
  else .ok (s.writeAmplified s.compressed)

/-- PA_COMPRESS (R180). -/
def execPaCompress (s : State) : Host.Outcome State Fault Refusal := runCommand paCompressBody s

/-- R181. -/
def paRecoverBody (seed : Bool) (s : State) : Except ErrCode State :=
  if s.status.locked = false then .error .notConfigured
  else if s.inputTooLong = true then .error .capacity
  else if s.cfg.pa = true ∧ s.params.kmaxBits < s.ilen.toNat + 1 then .error .capacity
  else .ok (s.writeAmplified (s.recovered seed))

/-- PA_RECOVER (R181). -/
def execPaRecover (seed : Bool) (s : State) : Host.Outcome State Fault Refusal := runCommand (paRecoverBody seed) s

end Sys2Proof.Machine
end

