-- ==== Sys2Proof/Machine/Dispatch.lean ====
section
/-! DEFINITION. One arm per command: EXEC of rule R101 for a legal command word. -/

namespace Sys2Proof.Machine

def exec (i : Instr) (s : State) : Host.Outcome State Fault Refusal :=
  match i with
  | .nop => Sys2Proof.Machine.execNop s
  | .cfgBuild => Sys2Proof.Machine.execCfgBuild s
  | .cfgUnlock => Sys2Proof.Machine.execCfgUnlock s
  | .xfer => Sys2Proof.Machine.execXfer s
  | .encBlk => Sys2Proof.Machine.execEncBlk s
  | .synBlk => Sys2Proof.Machine.execSynBlk s
  | .decBlk => Sys2Proof.Machine.execDecBlk s
  | .encKey => Sys2Proof.Machine.execEncKey s
  | .decKey orig => Sys2Proof.Machine.execDecKey orig s
  | .locate orig => Sys2Proof.Machine.execLocate orig s
  | .paCompress => Sys2Proof.Machine.execPaCompress s
  | .paRecover seed => Sys2Proof.Machine.execPaRecover seed s

end Sys2Proof.Machine
end

