-- ==== Sys2Proof/Machine/Bus.lean ====
section
/-! DEFINITION. The register window: the address map (R61), host writes (R45, R47, R65, R66, R100, R103, R216, R218)
and host reads (R22–R41, R65, R66, R219). -/

namespace Sys2Proof.Machine

/-- What stands at an offset of the window (R61). -/
inductive Reg where
  | id | param | ctrl | status | err | cmd | cfg | ilen | origLen | olen | synd | epat | nblk | ncorr | nuncorr
  | loccnt | tblIdx | tblPat | tblInfo
  | gRow (i : Nat)
  | hRow (r : Nat)
  | mpos (j : Nat)
  | ibuf (w : Nat)
  | obuf (w : Nat)
  | locbuf (e : Nat)
  /-- a reserved offset or an unimplemented slot (R65) -/
  | reserved
deriving DecidableEq, Repr

/-- R61: the byte offset of a register from BASE. A reserved place has none of its own; the first one is given
(DESIGN CHOICE, log 28). -/
def Reg.offset : Reg → Nat
  | .id => 0x000
  | .param => 0x004
  | .ctrl => 0x008
  | .status => 0x00C
  | .err => 0x010
  | .cmd => 0x014
  | .cfg => 0x018
  | .ilen => 0x01C
  | .origLen => 0x020
  | .olen => 0x024
  | .synd => 0x028
  | .epat => 0x02C
  | .nblk => 0x030
  | .ncorr => 0x034
  | .nuncorr => 0x038
  | .loccnt => 0x03C
  | .tblIdx => 0x040
  | .tblPat => 0x044
  | .tblInfo => 0x048
  | .gRow i => 0x100 + 4 * i
  | .hRow r => 0x180 + 4 * r
  | .mpos j => 0x200 + 4 * j
  | .ibuf w => 0x4000 + 4 * w
  | .obuf w => 0x8000 + 4 * w
  | .locbuf e => 0x10000 + 4 * e
  | .reserved => 0x04C

/-- R61: the registers of offsets below 0x04C, by word index. -/
def controlReg (w : Nat) : Reg :=
  match w with
  | 0 => .id
  | 1 => .param
  | 2 => .ctrl
  | 3 => .status
  | 4 => .err
  | 5 => .cmd
  | 6 => .cfg
  | 7 => .ilen
  | 8 => .origLen
  | 9 => .olen
  | 10 => .synd
  | 11 => .epat
  | 12 => .nblk
  | 13 => .ncorr
  | 14 => .nuncorr
  | 15 => .loccnt
  | 16 => .tblIdx
  | 17 => .tblPat
  | 18 => .tblInfo
  | _ => .reserved

/-- R28, R29, R30, R39, R40, R41, R65: the slots that exist. A write to another sets no WIGN (DEDUCED, log 16). -/
def slot (exists? : Bool) (r : Reg) : Reg := if exists? = true then r else .reserved

/-- R61, R65: what an aligned offset of the window reaches. -/
def regAt (p : Params) (a : Nat) : Reg :=
  if a < 0x100 then controlReg (a / 4)
  else if a < 0x180 then slot ((a - 0x100) / 4 + 1 < p.nmax) (.gRow ((a - 0x100) / 4))
  else if a < 0x200 then slot ((a - 0x180) / 4 < p.rmax) (.hRow ((a - 0x180) / 4))
  else if a < 0x280 then slot ((a - 0x200) / 4 + 1 < p.nmax) (.mpos ((a - 0x200) / 4))
  else if a < 0x4000 then .reserved
  else if a < 0x8000 then slot ((a - 0x4000) / 4 < p.kmaxBits / 32) (.ibuf ((a - 0x4000) / 4))
  else if a < 0x10000 then slot ((a - 0x8000) / 4 < p.kmaxBits / 32) (.obuf ((a - 0x8000) / 4))
  else if a < 0x20000 then slot ((a - 0x10000) / 4 < p.kmaxBits) (.locbuf ((a - 0x10000) / 4))
  else .reserved

/-- R64: the defined accesses: one aligned 32-bit word inside the window (DEDUCED, log 22). -/
def accessDefined (a width : Nat) : Bool := width == 4 && a % 4 == 0 && decide (a < 0x20000)

namespace State

/-- R45, R218, R198: a host write that is ignored and recorded. -/
def setWign (s : State) : State := { s with status := { s.status with wign := true } }

/-- R103: a CMD write while busy. -/
def setOvr (s : State) : State := { s with status := { s.status with ovr := true } }

/-- R218: a write to a plain writable register takes effect only while BUSY = 0. -/
def unlessBusy (s t : State) : State := if s.status.busy = true then s.setWign else t

/-- R45, R218: a write to the configuration takes effect only while BUSY = 0 and LOCKED = 0. -/
def unlessFrozen (s t : State) : State :=
  if (s.status.busy || s.status.locked) = true then s.setWign else t

/-- R28, R29: bits of a row at or above NMAX are ignored. -/
def rowValue (s : State) (v : Word) : Word := v &&& BitVec.ofNat 32 (2 ^ s.params.nmax - 1)

/-- R216: a write to CTRL: a soft reset when bit 1 is 1 (the IE it carries is discarded, R24), else IE. -/
def writeCtrl (v : Word) (s : State) : State :=
  if v.getLsbD 1 = true then s.resetCore else { s with ie := v.getLsbD 0 }

/-- R26, R100, R103: a write to CMD. -/
def writeCmd (v : Word) (s : State) : State := if s.status.busy = true then s.setOvr else s.accept v

/-- R47, R66: a host write of `v` to what stands at an offset. -/
def writeReg (r : Reg) (v : Word) (s : State) : State :=
  match r with
  | .ctrl => s.writeCtrl v
  | .status => { s with status := s.status.clearW1C v }
  | .cmd => s.writeCmd v
  | .cfg => s.unlessFrozen { s with cfg := Cfg.ofWord v }
  | .gRow i => s.unlessFrozen { s with gRow := s.gRow.setIfInBounds i (s.rowValue v) }
  | .hRow i => s.unlessFrozen { s with hRow := s.hRow.setIfInBounds i (s.rowValue v) }
  | .ilen => s.unlessBusy { s with ilen := v }
  | .origLen => s.unlessBusy { s with origLen := v }
  | .tblIdx => s.unlessBusy { s with tblIdx := v.extractLsb' 0 16 }
  | .ibuf w => s.unlessBusy { s with mem.ibuf := Bits.setWordAt s.mem.ibuf w v }
  | .id | .param | .err | .olen | .synd | .epat | .nblk | .ncorr | .nuncorr | .loccnt | .tblPat | .tblInfo => s
  | .mpos _ | .obuf _ | .locbuf _ | .reserved => s

/-- `MemWrite(a, 4, v)` (R64). -/
def hostWrite (a : Nat) (v : Word) (s : State) : State := s.writeReg (regAt s.params a) v

/-- R38: the table entry that TBL_IDX selects, when it is valid and TBL_IDX < 2^R (unlocked: DEDUCED, log 19). -/
def tableWindow (s : State) : Option TblEntry :=
  if s.tblIdx.toNat < 2 ^ s.code.r then s.table.getD s.tblIdx.toNat none else none

/-- R38: TBL_PAT. -/
def tblPatWord (s : State) : Word :=
  match s.tableWindow with
  | some e => Bits.toWord e.pattern
  | none => 0

/-- R38: TBL_INFO: VALID at bit 0, WEIGHT at bits [2:1]. -/
def tblInfoWord (s : State) : Word :=
  match s.tableWindow with
  | some e => if s.status.locked = true then BitVec.ofNat 32 (1 + e.weight.toNat * 2) else 0
  | none => 0

/-- R30: MPOS[j] while LOCKED = 1 and j < K, else 0. -/
def mposWord (s : State) (j : Nat) : Word :=
  if s.status.locked = true ∧ j < s.code.k then (s.mpos[j]?.getD 0).setWidth 32 else 0

/-- R22–R41, R65: the value a register reads as while BUSY = 0. -/
def readReg (r : Reg) (s : State) : Word :=
  match r with
  | .id => Config.idValue
  | .param => s.paramWord
  | .ctrl => s.ctrlWord
  | .status => s.statusWord
  | .err => s.errWord
  | .cmd => s.pend
  | .cfg => s.cfgWord
  | .ilen => s.ilen
  | .origLen => s.origLen
  | .olen => s.olen
  | .synd => s.synd.setWidth 32
  | .epat => s.epat
  | .nblk => s.nblk
  | .ncorr => s.ncorr
  | .nuncorr => s.nuncorr
  | .loccnt => s.loccnt
  | .tblIdx => s.tblIdx.setWidth 32
  | .tblPat => s.tblPatWord
  | .tblInfo => s.tblInfoWord
  | .gRow i => s.gRow[i]?.getD 0
  | .hRow i => s.hRow[i]?.getD 0
  | .mpos j => s.mposWord j
  | .ibuf w => Bits.wordAt s.mem.ibuf w
  | .obuf w => Bits.wordAt s.mem.obuf w
  | .locbuf e => s.mem.locbuf.getD e 0
  | .reserved => 0

/-- The word at offset `a` of the window while BUSY = 0. -/
def windowWord (s : State) (a : Nat) : Word := s.readReg (regAt s.params a)

/-- R63: the byte at byte offset `a`: lane `a mod 4` of the word that holds it. -/
def windowByte (s : State) (a : Nat) : Byte := (s.windowWord (a - a % 4)).extractLsb' (8 * (a % 4)) 8

/-- R219, U3: a read that takes a fresh free value. -/
def freeRead (s : State) (f : Word → Word) : Word × State :=
  (f (Config.freeWord s.draws 0), { s with draws := s.draws + 1 })

/-- R219: what a read returns while BUSY = 1. Reserved offsets and missing slots read 0 as ever (R65; beside R219: DEDUCED,
log 14). -/
def readBusy (r : Reg) (s : State) : Word × State :=
  match r with
  | .id | .param | .ctrl | .cmd | .reserved => (s.readReg r, s)
  | .status => s.freeRead s.statusWordBusy
  | .err | .cfg | .ilen | .origLen | .olen | .synd | .epat | .nblk | .ncorr | .nuncorr => s.freeRead id
  | .loccnt | .tblIdx | .tblPat | .tblInfo | .gRow _ | .hRow _ | .mpos _ => s.freeRead id
  | .ibuf _ | .obuf _ | .locbuf _ => s.freeRead id

/-- `MemRead(a, 4)` (R64): the value, and the state, which differs at most in the draw counter (R66). -/
def hostRead (a : Nat) (s : State) : Word × State :=
  if s.status.busy = true then s.readBusy (regAt s.params a) else (s.windowWord a, s)

end State

end Sys2Proof.Machine
end

