-- ==== Sys2Proof/Machine/HostSide.lean ====
section
/-! DEFINITION. The host agent: one statement of its script (R86), each bus access a defined one or refused (R64,
R215), and the reset input (R215). -/

namespace Sys2Proof.Machine

namespace State

/-- R86: a value of the script. -/
def hostVal (s : State) : HostVal → Word
  | .lit v => v
  | .t => s.host.t

/-- The host goes on to its next statement. -/
def hostNext (s : State) : State := { s with host.pc := s.host.pc + 1 }

/-- R86: the index of a label in the script. -/
def labelIndex (s : State) (l : Nat) : Option Nat := s.host.script.findIdx? fun st => st == .label l

/-- R86: a branch to a label. -/
def hostJump (l : Nat) (s : State) : Host.Outcome State Fault Refusal :=
  match s.labelIndex l with
  | some i => .next { s with host.pc := i }
  | none => .refused (.undefinedLabel l)

/-- R64, R215: a bus access, when it is a defined one and reset is not asserted. -/
def hostAccess (a width : Nat) (effect : State → State) (s : State) : Host.Outcome State Fault Refusal :=
  if s.resetIn = true then .refused (.accessDuringReset a)
  else if accessDefined a width = false then .refused (.undefinedAccess a width)
  else .next (effect s).hostNext

/-- R86: `MemRead(a, 4)` of either `rd REG` or `t = rd REG`. R86 does not say where the value of a plain `rd REG` goes:
here every `rd` leaves it in `t` (DESIGN CHOICE, log 10). -/
def readIntoT (a : Nat) (s : State) : State :=
  let result := s.hostRead a
  { result.2 with host.t := result.1 }

/-- R86: one statement. -/
def hostStmt (st : HostStmt) (s : State) : Host.Outcome State Fault Refusal :=
  match st with
  | .wr a width v => s.hostAccess a width fun s => s.hostWrite a (s.hostVal v)
  | .rd a width => s.hostAccess a width fun s => s.readIntoT a
  | .label _ => .next s.hostNext
  | .bnz v mask l => if s.hostVal v &&& mask ≠ 0 then s.hostJump l else .next s.hostNext
  | .b l => s.hostJump l

/-- R202: the host's step: its next statement, or nothing when the script has ended (R204: idle; DESIGN CHOICE,
log 10). -/
def hostStep (s : State) : Host.Outcome State Fault Refusal :=
  match s.host.script[s.host.pc]? with
  | some st => s.hostStmt st
  | none => .next s

/-- R215: the reset input is asserted. -/
def assertReset (s : State) : State := { s.resetCore with resetIn := true }

/-- R215: the reset input is released; the state is again as R46 lists. -/
def releaseReset (s : State) : State :=
  if s.resetIn = true then { s.resetCore with resetIn := false } else s

end State

/-! Script statements under the register names of R61, and the pseudo-instructions of R87. -/

namespace Script

/-- R86: `wr REG, v`. -/
def wr (r : Reg) (v : Word) : HostStmt := .wr r.offset 4 (.lit v)

/-- R86: `rd REG`. -/
def rd (r : Reg) : HostStmt := .rd r.offset 4

/-- R85: a command mnemonic. -/
def command (i : Instr) : HostStmt := wr .cmd (encode i)

/-- R87: `wait`, under the label `l`. -/
def wait (l : Nat) : List HostStmt := [.label l, rd .status, .bnz .t 0x1 l]

/-- R87: `run X`. -/
def run (l : Nat) (i : Instr) : List HostStmt := command i :: wait l

/-- R87: `ack`. -/
def acknowledge : HostStmt := wr .status 0x62

/-- R87: `ldbits v`. -/
def ldbits (v : Bits) : List HostStmt :=
  ((List.range (nblocks v.length 32)).map fun w => wr (.ibuf w) (Bits.wordAt v w)) ++
    [wr .ilen (BitVec.ofNat 32 v.length)]

/-- R87: `ldcode N, K, PA, …`. -/
def ldcode (c : CodeConfig) (pa : Bool) : List HostStmt :=
  wr .cfg (BitVec.ofNat 32 (c.n + c.k * 2 ^ 8 + pa.toNat * 2 ^ 16)) ::
    (c.gRows.zipIdx.map fun row => wr (.gRow row.2) row.1) ++ (c.hRows.zipIdx.map fun row => wr (.hRow row.2) row.1)

end Script

end Sys2Proof.Machine
end

