-- ==== Sys2Proof/Machine/Engine.lean ====
section
/-! DEFINITION. The core agent's one step EXEC (R101), and a turn of either agent or of the reset input. -/

namespace Sys2Proof.Machine

/-- R101, R192 step 1: the pending word is executed when it is a legal command, and fails with ILLEGAL_CMD when not
(R83). -/
def execPending (s : State) : Host.Outcome State Fault Refusal :=
  match decode s.pend with
  | .ok i => exec i s
  | .error _ => .next (s.raiseError .illegalCmd)

/-- R101: EXEC is enabled while BUSY = 1 and only then (and never during reset, R215); with nothing enabled the core
stays idle (R204). -/
def coreStep (s : State) : Host.Outcome State Fault Refusal :=
  if s.status.busy = true ∧ s.resetIn = false then execPending s else .next s

/-- One turn. -/
def takeTurn (turn : Turn) (s : State) : Host.Outcome State Fault Refusal :=
  match turn with
  | .host => s.hostStep
  | .core => coreStep s
  | .resetAssert => .next s.assertReset
  | .resetRelease => .next s.releaseReset

/-- Whose turn it is when the schedule names none: the core's while EXEC is enabled (weak fairness, R101, R220), else
the host's. DESIGN CHOICE, log 9. -/
def defaultTurn (s : State) : Turn := if s.status.busy = true ∧ s.resetIn = false then .core else .host

/-- The turn that comes next, and the state with that turn taken off the schedule. -/
def nextTurn (s : State) : Turn × State :=
  match s.sched with
  | turn :: rest => (turn, { s with sched := rest })
  | [] => (defaultTurn s, s)

/-- A command word given to the core for its very next step: accepted (R100) and its EXEC scheduled first (DESIGN
CHOICE, log 11). -/
def giveCommand (w : Word) (s : State) : State :=
  { s.accept w with resetIn := false, sched := .core :: s.sched }

end Sys2Proof.Machine
end

