-- ==== Sys2Proof/Machine/Step.lean ====
section
/-! DEFINITION. One step of the machine: one turn of the host, of the core or of the reset input (R202). -/

namespace Sys2Proof.Machine

/-- One step (R68, R101, R202): the agents take turns, each turn atomic; the schedule in State says whose turn it is. -/
def step (s : State) : Host.Outcome State Fault Refusal := takeTurn (nextTurn s).1 (nextTurn s).2

/-- The state whose very next step runs the command word `w` of a row of spec/opcode_table.json: the word is accepted
(R100), as by the host's CMD write, and the core has the next turn. -/
def State.withFetchWord (s : State) (nbits w : Nat) : State := giveCommand (tableWord nbits w) s

end Sys2Proof.Machine
end

