-- ==== Sys2Proof/Safety.lean ====
section
/-! DEFINITION. What claims call a safe state and a safe run: the invariant of the core, and the outcomes by name. -/

namespace Sys2Proof.Machine

namespace Code

/-- R107, in the spec's own words: for every row of H and every row of G the sum over the columns is 0. -/
def Orthogonal (c : Code) : Prop :=
  ∀ i < c.r, ∀ j < c.k, (bitSum c.n fun p => c.hBit i p && c.gBit j p) = false

/-- R106, in the spec's own words. -/
def InRange (p : Params) (c : Code) : Prop := 1 ≤ c.k ∧ c.k < c.n ∧ c.n ≤ p.nmax ∧ c.n - c.k ≤ p.rmax

/-- R108: column p of G equals the unit column e_j. -/
def UnitColumn (c : Code) (j p : Nat) : Prop := ∀ i < c.k, c.gBit i p = (i == j)

/-- R108: `p` is the lowest codeword position whose G column is e_j. -/
def LowestUnitColumn (c : Code) (j p : Nat) : Prop :=
  p < c.n ∧ c.UnitColumn j p ∧ ∀ q < p, ¬ c.UnitColumn j q

/-- R131, R166: the columns of H are non-zero and pairwise distinct. -/
def DistinctColumns (c : Code) : Prop :=
  ∀ p < c.n, c.hcol p ≠ 0 ∧ ∀ q < c.n, c.hcol p = c.hcol q → p = q

end Code

namespace State

/-- R42, R45, R110: a locked configuration is a legal code, orthogonal, with the message positions of R108 and the
table of R109. -/
structure BuiltConfig (s : State) : Prop where
  inRange    : s.code.InRange s.params
  orthogonal : s.code.Orthogonal
  positions  : ∀ j < s.code.k, s.code.LowestUnitColumn j (s.mpos[j]?.getD 0).toNat
  beyond     : ∀ j, s.code.k ≤ j → s.mpos[j]?.getD 0 = 0
  table      : s.table = s.code.buildTable s.params

/-- R30, R42: an unlocked core has no message positions and no valid table entry. -/
structure NoConfig (s : State) : Prop where
  positions : s.mpos = Vector.replicate 32 0
  table     : s.table = List.replicate (2 ^ s.params.rmax) none

/-- The invariant of the core: what rules R5, R22–R46, R100, R102, R195 and R215 say of every state that occurs. -/
structure Inv (s : State) : Prop where
  /-- R5 -/
  params    : s.params.Legal
  /-- R39, R40, R41 -/
  memory    : s.mem.wf s.params = true
  /-- R33, R193 -/
  olen      : s.olen.toNat ≤ s.params.kmaxBits
  /-- R37, R166 law 4 -/
  loccnt    : s.loccnt.toNat ≤ s.params.kmaxBits
  /-- R28: slots that do not exist and bits at or above NMAX hold 0 -/
  gRow      : ∀ i p, rowBit s.gRow i p = true → i + 1 < s.params.nmax ∧ p < s.params.nmax
  /-- R29: slots that do not exist and bits at or above NMAX hold 0 -/
  hRow      : ∀ r p, rowBit s.hRow r p = true → r < s.params.rmax ∧ p < s.params.nmax
  /-- R42, R110 -/
  locked    : s.status.locked = true → s.BuiltConfig
  /-- R30, R42, R111 -/
  unlocked  : s.status.locked = false → s.NoConfig
  /-- R100, R102: DONE and the last results are clear while a command is pending -/
  busy      : s.status.busy = true →
    s.status.done = false ∧ s.err = { code := .none, opc := 0 } ∧ s.status.uncorr = false ∧
      s.status.underlen = false
  /-- R25: OPC is 0 when CODE = 0 -/
  noErr     : s.err.code = .none → s.err.opc = 0
  /-- R195: a command that ended in an error set no soft condition -/
  errSoft   : s.err.code ≠ .none → s.status.uncorr = false ∧ s.status.underlen = false
  /-- R215: while reset is asserted the core is idle, unconfigured and its interrupt masked -/
  reset     : s.resetIn = true → s.status.busy = false ∧ s.status.done = false ∧ s.status.locked = false ∧ s.ie = false

/-- R46: every piece of the core's state at its reset value; the buffers have their sizes and unspecified contents. -/
structure AtReset (s : State) : Prop where
  status  : s.status =
    { busy := false, done := false, uncorr := false, underlen := false, ovr := false, wign := false, locked := false }
  ie      : s.ie = false
  err     : s.err = { code := .none, opc := 0 }
  pend    : s.pend = 0
  cfg     : s.cfg = { n := 0, k := 0, pa := false }
  gRow    : ∀ i : Nat, s.gRow[i]?.getD 0 = 0
  hRow    : ∀ r : Nat, s.hRow[r]?.getD 0 = 0
  mpos    : ∀ j : Nat, s.mpos[j]?.getD 0 = 0
  table   : s.table.length = 2 ^ s.params.rmax ∧ ∀ x : Nat, s.table.getD x none = none
  lengths : s.ilen = 0 ∧ s.origLen = 0 ∧ s.olen = 0
  results : s.synd = 0 ∧ s.epat = 0 ∧ s.nblk = 0 ∧ s.ncorr = 0 ∧ s.nuncorr = 0 ∧ s.loccnt = 0
  tblIdx  : s.tblIdx = 0
  memory  : s.mem.wf s.params = true
  irq     : s.irq = false

/-- R102: how every command leaves STATUS: BUSY 0 and DONE 1, the other bits as `st` has them. -/
def completed (st : Status) : Status := { st with busy := false, done := true }

/-- R195: how a command that raises an error leaves the machine: ERR and the completion, and nothing else. -/
def failedWith (code : ErrCode) (s : State) : State :=
  { s with err := { code := code, opc := s.pend.extractLsb' 0 8 }, status := completed s.status }

/-- R101: EXEC is enabled. -/
def Pending (s : State) : Prop := s.status.busy = true ∧ s.resetIn = false

/-- R150: bit p of block t of the received input, zero beyond ILEN. -/
def inputBit (s : State) (b t p : Nat) : Bool :=
  decide (t * b + p < s.ilen.toNat) && Bits.bit s.mem.ibuf (t * b + p)

/-- R150: block t of the input, cut into blocks of b bits. -/
def inputBlock (s : State) (b t : Nat) : Bits := (List.range b).map (s.inputBit b t)

/-- R124: the pattern resolution gives the syndrome of a received block, zeros when uncorrectable. -/
def patternOf (s : State) (v : Bits) : Bits :=
  (s.code.resolve s.table (s.code.syn v)).getD (Bits.zeros s.code.n)

/-- R124: the syndrome of a received block is uncorrectable. -/
def uncorrectable (s : State) (v : Bits) : Bool := (s.code.resolve s.table (s.code.syn v)).isNone

/-- R36: the resolved pattern of a received block is non-zero and applied. -/
def correctedBlock (s : State) (v : Bits) : Bool := !s.uncorrectable v && (s.patternOf v).any id

/-- R165: the pattern LOCATE takes for a received block: zeros on a zero syndrome, else as resolution gives it. -/
def locatedPattern (s : State) (v : Bits) : Bits :=
  if s.code.syn v = 0 then Bits.zeros s.code.n else s.patternOf v

/-- R165: LOCATE takes a received block as uncorrectable. -/
def locatedUncorrectable (s : State) (v : Bits) : Bool := s.code.syn v != 0 && s.uncorrectable v

/-- R165: LOCATE counts a received block as corrected. -/
def locatedCorrected (s : State) (v : Bits) : Bool := s.code.syn v != 0 && s.correctedBlock v

/-- R150: ⌈ILEN / b⌉, in the spec's own words: the least number of blocks of `b` bits that hold the input. -/
def blockCount (s : State) (b : Nat) : Nat := (s.ilen.toNat + b - 1) / b

/-- R152: Lout. -/
def trimmedLength (s : State) (orig : Bool) : Nat :=
  if orig = true then min s.origLen.toNat (s.blockCount s.code.n * s.code.k) else s.blockCount s.code.n * s.code.k

/-- R70: host steps taken one after the other while a command stays pending. -/
inductive HostDelay : State → State → Prop
  | none (s : State) : HostDelay s s
  | step {s t u : State} : HostDelay s t → t.hostStep = .next u → u.Pending → HostDelay s u

/-- The results of a command that a host can rely on (R33, R40, R41): all of the core's state but the pending word, the
interrupt enable, the sticky OVR and WIGN, and the unspecified tails of the buffers. -/
structure SameResults (s t : State) : Prop where
  err      : s.err = t.err
  done     : s.status.done = t.status.done ∧ s.status.busy = t.status.busy
  soft     : s.status.uncorr = t.status.uncorr ∧ s.status.underlen = t.status.underlen
  locked   : s.status.locked = t.status.locked
  config   : s.cfg = t.cfg ∧ s.gRow = t.gRow ∧ s.hRow = t.hRow ∧ s.mpos = t.mpos ∧ s.table = t.table
  input    : s.mem.ibuf = t.mem.ibuf ∧ s.ilen = t.ilen ∧ s.origLen = t.origLen
  output   : s.olen = t.olen ∧ s.mem.obuf.take s.olen.toNat = t.mem.obuf.take t.olen.toNat
  located  : s.loccnt = t.loccnt ∧ s.mem.locbuf.take s.loccnt.toNat = t.mem.locbuf.take t.loccnt.toNat
  results  : s.synd = t.synd ∧ s.epat = t.epat ∧ s.nblk = t.nblk ∧ s.ncorr = t.ncorr ∧ s.nuncorr = t.nuncorr
  tblIdx   : s.tblIdx = t.tblIdx

/-- A safe run goes on: the next step answers a state. -/
def RunsOn (s : State) : Prop := ∃ t, step s = .next t

end State

/-- R82, column "needs": the commands that need LOCKED = 1. -/
def needsConfig : Instr → Bool
  | .encBlk | .synBlk | .decBlk | .encKey | .decKey _ | .locate _ | .paCompress | .paRecover _ => true
  | .nop | .cfgBuild | .cfgUnlock | .xfer => false

/-- The commands whose rule writes OBUF and OLEN (R128–R130, R151, R152, R180, R181). -/
def writesOutput : Instr → Bool
  | .encBlk | .synBlk | .decBlk | .encKey | .decKey _ | .paCompress | .paRecover _ => true
  | .nop | .cfgBuild | .cfgUnlock | .xfer | .locate _ => false

/-- The commands whose rule writes EPAT, NBLK, NCORR and NUNCORR (R130, R152, R165). -/
def writesBlockResults : Instr → Bool
  | .decBlk | .decKey _ | .locate _ => true
  | .nop | .cfgBuild | .cfgUnlock | .xfer | .encBlk | .synBlk | .encKey | .paCompress | .paRecover _ => false

/-- The commands whose rule writes MPOS and TABLE, which TBL_PAT and TBL_INFO show (R105, R111). -/
def writesDerived : Instr → Bool
  | .cfgBuild | .cfgUnlock => true
  | .nop | .xfer | .encBlk | .synBlk | .decBlk | .encKey | .decKey _ | .locate _ | .paCompress | .paRecover _ => false

/-- The places of the window that EXEC of a command may change (the "Status written" lines of the command rules):
STATUS and ERR always, then the registers and the buffers its rule names. OBUF and LOCBUF count whole, since their
tails become unspecified (R40, R41). -/
def mayWrite (i : Instr) (r : Reg) : Bool :=
  match r with
  | .status | .err => true
  | .olen | .obuf _ => writesOutput i
  | .synd => writesBlockResults i || i == .synBlk
  | .epat | .nblk | .ncorr | .nuncorr => writesBlockResults i
  | .loccnt | .locbuf _ => i == .locate false || i == .locate true
  | .tblPat | .tblInfo | .mpos _ => writesDerived i
  | .ilen | .ibuf _ => i == .xfer
  | .id | .param | .ctrl | .cmd | .cfg | .origLen | .tblIdx | .gRow _ | .hRow _ | .reserved => false

end Sys2Proof.Machine
end

