-- ==== Sys2Proof/Certificates/Slice0/Obligations.lean ====
section
/-! DEFINITION. The statements for the provers, from the numbered rules of spec/. -/

open Sys2Proof Sys2Proof.Machine

/-! ## Encoding and decoding -/

/-- R82, R83, R85: the words of the opcode map decode to the commands they stand for; a few illegal ones are refused
by name. -/
def Obligations.OpcodeMapWordsDecode : Prop :=
  decode 0x00000000 = .ok .nop ∧ decode 0x00000001 = .ok .cfgBuild ∧ decode 0x00000002 = .ok .cfgUnlock ∧
    decode 0x00000003 = .ok .xfer ∧ decode 0x00000010 = .ok .encBlk ∧ decode 0x00000011 = .ok .synBlk ∧
    decode 0x00000012 = .ok .decBlk ∧ decode 0x00000020 = .ok .encKey ∧ decode 0x00000021 = .ok (.decKey false) ∧
    decode 0x00000121 = .ok (.decKey true) ∧ decode 0x00000028 = .ok (.locate false) ∧
    decode 0x00000128 = .ok (.locate true) ∧ decode 0x00000030 = .ok .paCompress ∧
    decode 0x00000031 = .ok (.paRecover false) ∧ decode 0x00000231 = .ok (.paRecover true) ∧
    decode 0x00000004 = .error .undefinedOpcode ∧ decode 0x00000400 = .error .reservedBits ∧
    decode 0x00000110 = .error .origNotAllowed ∧ decode 0x00000221 = .error .seedNotAllowed

/-- R80, R82: decoding and encoding are inverse on all 2^32 words and all commands, with every operand. -/
def Obligations.DecodeInvertsEncode : Prop :=
  ∀ (w : Word) (i : Instr), decode w = .ok i ↔ w = encode i

/-- R83: the legality predicate; the legal words are fifteen; an illegal word that was accepted completes with
ILLEGAL_CMD and has no other effect. -/
def Obligations.LegalityOfCommandWords : Prop :=
  (∀ w : Word, (∃ i, decode w = .ok i) ↔
    ((w.extractLsb' 0 8).toNat ∈ [0x00, 0x01, 0x02, 0x03, 0x10, 0x11, 0x12, 0x20, 0x21, 0x28, 0x30, 0x31] ∧
      w.extractLsb' 10 22 = 0 ∧
      (w.getLsbD 8 = false ∨ (w.extractLsb' 0 8).toNat ∈ [0x21, 0x28]) ∧
      (w.getLsbD 9 = false ∨ (w.extractLsb' 0 8).toNat = 0x31))) ∧
  (∃ words : List Word, words.length = 15 ∧ words.Nodup ∧ ∀ w, (∃ i, decode w = .ok i) ↔ w ∈ words) ∧
  (∀ s : State, s.Pending → (∀ i, decode s.pend ≠ .ok i) → coreStep s = .next (s.failedWith .illegalCmd))

/-! ## The command life cycle -/

/-- R101, R202, R215: what a step is. When it is the core's turn (by the schedule, or by default while EXEC is enabled
and the schedule is empty) and a command is pending, it is exec of the command the pending word decodes to, or the
ILLEGAL_CMD completion of an illegal word (R83), on the state with that turn taken off the schedule; with no command
pending the core's turn does nothing. When it is the host's turn (by the schedule, or by default while EXEC is not
enabled) it is the host's step, which is the statement of the script at the host's index, or nothing at its end. A reset
turn is the edge of the reset input, the turn of HardResetHoldsTheCore. The schedule, the script and the reset turns are
the model's choices (logs 9, 10, 8). -/
def Obligations.StepRunsDecodedCommand : Prop :=
  ∀ s : State,
    (s.Pending → ∀ i, decode s.pend = .ok i →
      (s.sched = [] → step s = exec i s) ∧
      (∀ rest, s.sched = .core :: rest → step s = exec i { s with sched := rest })) ∧
    (s.Pending → (∀ i, decode s.pend ≠ .ok i) →
      (s.sched = [] → step s = .next (s.failedWith .illegalCmd)) ∧
      (∀ rest, s.sched = .core :: rest →
        step s = .next (({ s with sched := rest } : State).failedWith .illegalCmd))) ∧
    (¬ s.Pending →
      (s.sched = [] → step s = s.hostStep) ∧
      (∀ rest, s.sched = .core :: rest → step s = .next { s with sched := rest })) ∧
    (∀ rest, s.sched = .host :: rest → step s = ({ s with sched := rest } : State).hostStep) ∧
    (∀ st, s.host.script[s.host.pc]? = some st → s.hostStep = s.hostStmt st) ∧
    (s.host.script[s.host.pc]? = none → s.hostStep = .next s) ∧
    (∀ rest, s.sched = .resetAssert :: rest →
      step s = takeTurn .resetAssert { s with sched := rest } ∧
        step s = .next ({ s with sched := rest } : State).assertReset) ∧
    (∀ rest, s.sched = .resetRelease :: rest →
      step s = takeTurn .resetRelease { s with sched := rest } ∧
        step s = .next ({ s with sched := rest } : State).releaseReset)

/-- The word that `withFetchWord` gives is accepted (R100) and the very next step runs its command. -/
def Obligations.FetchedWordRunsNext : Prop :=
  ∀ (s : State) (nbits w : Nat) (i : Instr), decodeTableWord nbits w = some i →
    step (s.withFetchWord nbits w) = exec i { s.accept (tableWord nbits w) with resetIn := false }

/-- R100: acceptance of a CMD write while BUSY = 0, whatever the word. -/
def Obligations.CommandWriteIsAccepted : Prop :=
  ∀ (s : State) (w : Word), s.status.busy = false →
    s.hostWrite 0x014 w =
      { s with
        pend := w
        err := { code := .none, opc := 0 }
        status := { s.status with busy := true, done := false, uncorr := false, underlen := false } } ∧
    (s.hostWrite 0x014 w).readReg .cmd = w ∧ (s.hostWrite 0x014 w).errf = false ∧ (s.hostWrite 0x014 w).irq = false

/-- R103: a CMD write while BUSY = 1 only sets OVR. -/
def Obligations.CommandWriteWhileBusySetsOvr : Prop :=
  ∀ (s : State) (w : Word), s.status.busy = true →
    s.hostWrite 0x014 w = { s with status := { s.status with ovr := true } }

/-- R102: EXEC always completes: BUSY 0, DONE 1, the readback kept, IRQ = CTRL.IE, ERRF = (CODE ≠ 0), and the command
never runs again. -/
def Obligations.EveryCommandCompletes : Prop :=
  ∀ s : State, s.Pending →
    ∃ t, coreStep s = .next t ∧ t.status.busy = false ∧ t.status.done = true ∧ t.pend = s.pend ∧
      t.readReg .cmd = s.pend ∧ t.ie = s.ie ∧ t.irq = s.ie ∧ t.errf = decide (t.err.code ≠ .none) ∧
      coreStep t = .next t

/-- R195: a command that ends with an error writes ERR.CODE and ERR.OPC, completes, and changes nothing else. -/
def Obligations.ErrorsArePrecise : Prop :=
  ∀ s t : State, s.Pending → s.err.code = .none → coreStep s = .next t → t.err.code ≠ .none →
    t = { s with
      err := { code := t.err.code, opc := s.pend.extractLsb' 0 8 }
      status := { s.status with busy := false, done := true } }

/-- R192: the checks of EXEC in their order, each with the code it raises when the earlier ones passed and with no other
effect; NOP, CFG_UNLOCK and XFER have none after legality. -/
def Obligations.ChecksInOrder : Prop :=
  ∀ s : State,
    (s.Pending → (∀ i, decode s.pend ≠ .ok i) → coreStep s = .next (s.failedWith .illegalCmd)) ∧
    (s.status.locked = true → exec .cfgBuild s = .next (s.failedWith .cfgLocked)) ∧
    (∀ i, needsConfig i = true → s.status.locked = false → exec i s = .next (s.failedWith .notConfigured)) ∧
    (∀ i ∈ [Instr.nop, .cfgUnlock, .xfer], ∃ t, exec i s = .next t ∧ t.err = s.err) ∧
    (s.status.locked = false → ¬ s.code.InRange s.params → exec .cfgBuild s = .next (s.failedWith .cfgRange)) ∧
    (s.status.locked = false → s.code.InRange s.params → ¬ s.code.Orthogonal →
      exec .cfgBuild s = .next (s.failedWith .cfgOrtho)) ∧
    (s.status.locked = false → s.code.InRange s.params → s.code.Orthogonal →
      (∃ j < s.code.k, ∀ p < s.code.n, ¬ s.code.UnitColumn j p) →
      exec .cfgBuild s = .next (s.failedWith .cfgMpos)) ∧
    (s.status.locked = true → s.params.kmaxBits < s.ilen.toNat →
      ∀ i, needsConfig i = true → exec i s = .next (s.failedWith .capacity)) ∧
    (s.status.locked = true → s.ilen.toNat ≤ s.params.kmaxBits →
      (s.ilen.toNat ≠ s.code.k → exec .encBlk s = .next (s.failedWith .invalidLength)) ∧
      (s.ilen.toNat ≠ s.code.n → exec .synBlk s = .next (s.failedWith .invalidLength)) ∧
      (s.ilen.toNat ≠ s.code.n → exec .decBlk s = .next (s.failedWith .invalidLength)) ∧
      (s.params.kmaxBits < s.blockCount s.code.k * s.code.n → exec .encKey s = .next (s.failedWith .capacity)) ∧
      (∀ orig, s.params.kmaxBits < s.trimmedLength orig →
        exec (.decKey orig) s = .next (s.failedWith .capacity)) ∧
      (∀ seed, s.cfg.pa = true → s.params.kmaxBits < s.ilen.toNat + 1 →
        exec (.paRecover seed) s = .next (s.failedWith .capacity)))

/-- "Status written" of the command rules, on the window: EXEC of any command, whether it succeeds or ends with an
error, leaves every byte of the window as it was except those of the registers and buffers its rule names. -/
def Obligations.CommandsLeaveOtherBytes : Prop :=
  ∀ (i : Instr) (s t : State), exec i s = .next t →
    ∀ a < 0x20000, mayWrite i (regAt s.params (a - a % 4)) = false → t.windowByte a = s.windowByte a

/-! ## The control commands -/

/-- R104: NOP has no effect but its completion; after acceptance in an idle core it leaves STATUS = 0x02 | LOCKED << 7
(with no sticky bit set) and ERR = 0. -/
def Obligations.NopOnlyCompletes : Prop :=
  (∀ s : State, exec .nop s = .next { s with status := { s.status with busy := false, done := true } }) ∧
  (∀ s : State, s.status.busy = false → s.resetIn = false → s.status.ovr = false → s.status.wign = false →
    ∃ t, coreStep (s.hostWrite 0x014 0x00000000) = .next t ∧ t.errWord = 0 ∧
      t.statusWord = if s.status.locked = true then 0x82 else 0x02)

/-- R105, R106, R107, R108, R110: CFG_BUILD on a legal configuration: MPOS from the unit columns of G, TABLE from H, and
LOCKED; nothing else but the completion. -/
def Obligations.BuildCommitsConfiguration : Prop :=
  ∀ (s : State) (pos : Nat → Nat), s.params.Legal → s.status.locked = false → s.code.InRange s.params →
    s.code.Orthogonal → (∀ j < s.code.k, s.code.LowestUnitColumn j (pos j)) →
    ∃ t, exec .cfgBuild s = .next t ∧
      (∀ j < s.code.k, (t.mpos[j]?.getD 0).toNat = pos j) ∧
      (∀ j, s.code.k ≤ j → t.mpos[j]?.getD 0 = 0) ∧
      t.table.length = 2 ^ s.params.rmax ∧
      (∀ x < 2 ^ s.params.rmax, t.table.getD x none =
        (s.code.first x).map fun e => { pattern := e, weight := BitVec.ofNat 2 (Bits.weight e) }) ∧
      t = { s with
        mpos := t.mpos
        table := t.table
        status := { s.status with busy := false, done := true, locked := true } }

/-- R113 laws 1–4 of a built table: the zero entry, the syndrome of every pattern, least weight, the number of
entries. -/
def Obligations.BuiltTableLaws : Prop :=
  ∀ (p : Params) (c : Code), p.Legal → c.InRange p →
    (c.buildTable p).getD 0 none = some { pattern := Bits.zeros c.n, weight := 0 } ∧
    (∀ x e, (c.buildTable p).getD x none = some e →
      c.syn e.pattern = x ∧ e.pattern.length = c.n ∧ e.weight.toNat = Bits.weight e.pattern ∧
        e.weight.toNat ≤ 2 ∧
        ∀ f ∈ c.patterns, c.syn f = x → e.weight.toNat ≤ Bits.weight f) ∧
    ((c.buildTable p).countP Option.isSome ≤ 1 + c.n + c.n * (c.n - 1) / 2) ∧
    ((c.buildTable p).countP Option.isSome ≤ 2 ^ c.r)

/-- R111: CFG_UNLOCK. -/
def Obligations.UnlockReleasesConfiguration : Prop :=
  ∀ s : State, ∃ t, exec .cfgUnlock s = .next t ∧ (∀ j : Nat, t.mpos[j]?.getD 0 = 0) ∧
    t.table.length = 2 ^ s.params.rmax ∧ (∀ x : Nat, t.table.getD x none = none) ∧
    t = { s with
      mpos := t.mpos
      table := t.table
      status := { s.status with busy := false, done := true, locked := false } }

/-- R112: XFER copies OBUF[0..OLEN−1] and OLEN to IBUF and ILEN, and changes nothing else but the completion. -/
def Obligations.XferCopiesOutputToInput : Prop :=
  ∀ s : State, s.mem.wf s.params = true → s.olen.toNat ≤ s.params.kmaxBits →
    ∃ t, exec .xfer s = .next t ∧
      (∀ i < s.olen.toNat, Bits.bit t.mem.ibuf i = Bits.bit s.mem.obuf i) ∧
      (∀ i, s.olen.toNat ≤ i → Bits.bit t.mem.ibuf i = Bits.bit s.mem.ibuf i) ∧
      t.mem.wf s.params = true ∧
      t = { s with
        mem.ibuf := t.mem.ibuf
        ilen := s.olen
        status := { s.status with busy := false, done := true } }

/-- R110, R111, R215, R216, a rule of the whole machine: LOCKED falls only when the core runs CFG_UNLOCK or the core is
reset, and while it stays 1 the configuration, MPOS and TABLE do not change. -/
def Obligations.LockedConfigurationIsFrozen : Prop :=
  ∀ s t : State, s.Inv → s.status.locked = true → step s = .next t →
    (t.status.locked = true ∧ t.cfg = s.cfg ∧ t.gRow = s.gRow ∧ t.hRow = s.hRow ∧ t.mpos = s.mpos ∧
      t.table = s.table) ∨
    (t.status.locked = false ∧ s.Pending ∧ decode s.pend = .ok .cfgUnlock ∧ t.cfg = s.cfg ∧ t.gRow = s.gRow ∧
      t.hRow = s.hRow) ∨
    t.AtReset

/-! ## The linear block code -/

/-- R121: the syndrome vector and integer; linearity; the XOR of the columns of H at the 1 bits. -/
def Obligations.SyndromeIsLinear : Prop :=
  ∀ (c : Code) (v w : Bits), v.length = c.n → w.length = c.n →
    (∀ r < c.r, Bits.bit (c.svec v) r = bitSum c.n fun p => c.hBit r p && Bits.bit v p) ∧
    (∀ r, (c.syn v).testBit r = (decide (r < c.r) && Bits.bit (c.svec v) r)) ∧
    c.syn v < 2 ^ c.r ∧
    c.syn (Bits.add v w) = c.syn v ^^^ c.syn w ∧
    c.syn v = ((List.range c.n).filter (Bits.bit v)).foldl (fun x p => x ^^^ c.hcol p) 0

/-- R123: the enumeration order: weight 0, then e_p ascending, then e_p ⊕ e_q lexicographic; its size; every pattern of
length N and weight at most 2 stands in it. -/
def Obligations.EnumerationOrder : Prop :=
  ∀ c : Code,
    c.patterns.length = 1 + c.n + c.n * (c.n - 1) / 2 ∧
    c.patterns[0]? = some (Bits.zeros c.n) ∧
    (∀ p < c.n, c.patterns[1 + p]? = some (Bits.unit c.n p)) ∧
    (∀ p q, p < q → q < c.n →
      ∃ k, c.patterns[k]? = some (Bits.add (Bits.unit c.n p) (Bits.unit c.n q)) ∧ c.n < k ∧
        ∀ p' q', p' < q' → q' < c.n → (p < p' ∨ (p = p' ∧ q < q')) →
          ∃ k', k < k' ∧ c.patterns[k']? = some (Bits.add (Bits.unit c.n p') (Bits.unit c.n q'))) ∧
    (∀ v : Bits, v.length = c.n → Bits.weight v ≤ 2 → v ∈ c.patterns)

/-- R125: with the built table, resolution is the first pattern of the enumeration with that syndrome, or uncorrectable
when there is none; the search finds nothing that the lookup missed; a table of only weight 0 and weight 1 would give the
same; the zero syndrome resolves to no correction. -/
def Obligations.ResolutionIsFirstPattern : Prop :=
  ∀ s : State, s.Inv → s.status.locked = true →
    (∀ x, s.code.resolve s.table x = s.code.first x) ∧
    (∀ x, s.table.getD x none = none → s.code.search x = none) ∧
    (∀ x, s.code.resolve
        ((s.code.patterns0 ++ s.code.patterns1).foldl s.code.claim (List.replicate (2 ^ s.params.rmax) none)) x =
      s.code.first x) ∧
    s.code.resolve s.table 0 = some (Bits.zeros s.code.n)

/-- R122, R128: ENC_BLK. -/
def Obligations.EncBlkWritesCodeword : Prop :=
  ∀ s : State, s.status.locked = true → s.ilen.toNat ≤ s.params.kmaxBits → s.ilen.toNat = s.code.k →
    ∃ t, exec .encBlk s = .next t ∧ t.olen.toNat = s.code.n ∧
      (∀ p < s.code.n, Bits.bit t.mem.obuf p =
        bitSum s.code.k fun i => Bits.bit s.mem.ibuf i && s.code.gBit i p) ∧
      t = { s with
        mem.obuf := t.mem.obuf
        olen := t.olen
        draws := t.draws
        status := { s.status with busy := false, done := true } }

/-- R121, R129: SYN_BLK. -/
def Obligations.SynBlkWritesSyndrome : Prop :=
  ∀ s : State, s.status.locked = true → s.ilen.toNat ≤ s.params.kmaxBits → s.ilen.toNat = s.code.n →
    s.code.r ≤ 16 →
    ∃ t, exec .synBlk s = .next t ∧ t.olen.toNat = s.code.n - s.code.k ∧
      (∀ r < s.code.n - s.code.k, Bits.bit t.mem.obuf r =
        bitSum s.code.n fun p => s.code.hBit r p && Bits.bit s.mem.ibuf p) ∧
      (∀ r, t.synd.getLsbD r = (decide (r < s.code.n - s.code.k) &&
        bitSum s.code.n fun p => s.code.hBit r p && Bits.bit s.mem.ibuf p)) ∧
      t = { s with
        mem.obuf := t.mem.obuf
        olen := t.olen
        synd := t.synd
        draws := t.draws
        status := { s.status with busy := false, done := true } }

/-- R124, R126, R127, R130: DEC_BLK: the message at MPOS of the received block corrected by the resolved pattern, the
syndrome, the pattern, the counters and UNCORR. -/
def Obligations.DecBlkCorrectsAndExtracts : Prop :=
  ∀ s : State, s.status.locked = true → s.mem.wf s.params = true → s.ilen.toNat ≤ s.params.kmaxBits →
    s.ilen.toNat = s.code.n →
    ∃ t, exec .decBlk s = .next t ∧ t.olen.toNat = s.code.k ∧
      (∀ j < s.code.k, Bits.bit t.mem.obuf j =
        Bits.bit (Bits.add (s.inputBlock s.code.n 0) (s.patternOf (s.inputBlock s.code.n 0)))
          (s.mpos[j]?.getD 0).toNat) ∧
      t.synd = BitVec.ofNat 16 (s.code.syn (s.inputBlock s.code.n 0)) ∧
      t.epat = Bits.toWord (s.patternOf (s.inputBlock s.code.n 0)) ∧
      t.nblk = 1 ∧
      t.ncorr = (if s.correctedBlock (s.inputBlock s.code.n 0) = true then 1 else 0) ∧
      t.nuncorr = (if s.uncorrectable (s.inputBlock s.code.n 0) = true then 1 else 0) ∧
      t = { s with
        mem.obuf := t.mem.obuf
        olen := t.olen
        synd := t.synd
        epat := t.epat
        nblk := t.nblk
        ncorr := t.ncorr
        nuncorr := t.nuncorr
        draws := t.draws
        status := { s.status with
          busy := false
          done := true
          uncorr := s.status.uncorr || s.uncorrectable (s.inputBlock s.code.n 0) } }

/-- R131 law 1: without errors every message comes back, with syndrome 0 and no correction. -/
def Obligations.ErrorFreeBlockDecodes : Prop :=
  ∀ (s : State) (m : Bits), s.Inv → s.status.locked = true → m.length = s.code.k →
    s.code.syn (s.code.enc m) = 0 ∧ s.code.decodeMessage s.mpos s.table (s.code.enc m) = m ∧
      s.correctedBlock (s.code.enc m) = false ∧ s.uncorrectable (s.code.enc m) = false

/-- R131 law 2: a single flip at position p has syndrome HCOL[p]; it is corrected when the columns of H are non-zero and
pairwise distinct, and more generally whenever the pattern found agrees with the flip at every message position. -/
def Obligations.SingleFlipIsCorrected : Prop :=
  ∀ (s : State) (m : Bits) (p : Nat), s.Inv → s.status.locked = true → m.length = s.code.k → p < s.code.n →
    s.code.syn (Bits.add (s.code.enc m) (Bits.unit s.code.n p)) = s.code.hcol p ∧
    (∀ e, s.code.first (s.code.hcol p) = some e →
      (∀ j < s.code.k, Bits.bit e (s.mpos[j]?.getD 0).toNat =
        Bits.bit (Bits.unit s.code.n p) (s.mpos[j]?.getD 0).toNat) →
      s.code.decodeMessage s.mpos s.table (Bits.add (s.code.enc m) (Bits.unit s.code.n p)) = m) ∧
    (s.code.DistinctColumns →
      s.code.decodeMessage s.mpos s.table (Bits.add (s.code.enc m) (Bits.unit s.code.n p)) = m)

/-- R131 law 3: two flips are corrected when their pair is the first pattern with its syndrome. -/
def Obligations.UnclaimedDoubleFlipIsCorrected : Prop :=
  ∀ (s : State) (m : Bits) (p q : Nat), s.Inv → s.status.locked = true → m.length = s.code.k → p < q →
    q < s.code.n →
    s.code.first (s.code.hcol p ^^^ s.code.hcol q) =
      some (Bits.add (Bits.unit s.code.n p) (Bits.unit s.code.n q)) →
    s.code.decodeMessage s.mpos s.table
      (Bits.add (s.code.enc m) (Bits.add (Bits.unit s.code.n p) (Bits.unit s.code.n q))) = m

/-! ## The key codec and the error locator -/

/-- R150, R151: ENC_KEY: each block of the zero-padded key is encoded, in order. -/
def Obligations.EncKeyEncodesPaddedBlocks : Prop :=
  ∀ s : State, s.params.Legal → s.status.locked = true → s.mem.wf s.params = true →
    s.ilen.toNat ≤ s.params.kmaxBits → s.blockCount s.code.k * s.code.n ≤ s.params.kmaxBits →
    ∃ t, exec .encKey s = .next t ∧ t.olen.toNat = s.blockCount s.code.k * s.code.n ∧
      (∀ b < s.blockCount s.code.k, ∀ p < s.code.n, Bits.bit t.mem.obuf (b * s.code.n + p) =
        bitSum s.code.k fun i => s.inputBit s.code.k b i && s.code.gBit i p) ∧
      t = { s with
        mem.obuf := t.mem.obuf
        olen := t.olen
        draws := t.draws
        status := { s.status with busy := false, done := true } }

/-- R150, R152: DEC_KEY: every block of the zero-padded input is decoded and counted; the output is trimmed to Lout. -/
def Obligations.DecKeyDecodesAndTrims : Prop :=
  ∀ (s : State) (orig : Bool), s.params.Legal → s.status.locked = true → s.mem.wf s.params = true →
    s.ilen.toNat ≤ s.params.kmaxBits → s.trimmedLength orig ≤ s.params.kmaxBits →
    ∃ t, exec (.decKey orig) s = .next t ∧ t.olen.toNat = s.trimmedLength orig ∧
      (∀ b < s.blockCount s.code.n, ∀ j < s.code.k, b * s.code.k + j < s.trimmedLength orig →
        Bits.bit t.mem.obuf (b * s.code.k + j) =
          Bits.bit (Bits.add (s.inputBlock s.code.n b) (s.patternOf (s.inputBlock s.code.n b)))
            (s.mpos[j]?.getD 0).toNat) ∧
      t.synd = (if s.blockCount s.code.n = 0 then 0
        else BitVec.ofNat 16 (s.code.syn (s.inputBlock s.code.n (s.blockCount s.code.n - 1)))) ∧
      t.epat = (if s.blockCount s.code.n = 0 then 0
        else Bits.toWord (s.patternOf (s.inputBlock s.code.n (s.blockCount s.code.n - 1)))) ∧
      t.nblk.toNat = s.blockCount s.code.n ∧
      t.ncorr.toNat = (List.range (s.blockCount s.code.n)).countP
        (fun b => s.correctedBlock (s.inputBlock s.code.n b)) ∧
      t.nuncorr.toNat = (List.range (s.blockCount s.code.n)).countP
        (fun b => s.uncorrectable (s.inputBlock s.code.n b)) ∧
      t.status.uncorr = (s.status.uncorr || decide (0 < t.nuncorr.toNat)) ∧
      t = { s with
        mem.obuf := t.mem.obuf
        olen := t.olen
        synd := t.synd
        epat := t.epat
        nblk := t.nblk
        ncorr := t.ncorr
        nuncorr := t.nuncorr
        draws := t.draws
        status := { s.status with busy := false, done := true, uncorr := t.status.uncorr } }

/-- R165, R166 law 1: LOCATE: the global positions of the set bits of the blocks' patterns, clipped to ORIGLEN when ORIG
= 1, strictly ascending; the counters; OBUF and OLEN unchanged. -/
def Obligations.LocateReportsPositions : Prop :=
  ∀ (s : State) (orig : Bool), s.params.Legal → s.status.locked = true → s.mem.wf s.params = true →
    s.ilen.toNat ≤ s.params.kmaxBits →
    ∃ t, exec (.locate orig) s = .next t ∧
      (∀ g : Nat, (∃ e < t.loccnt.toNat, (t.mem.locbuf.getD e 0).toNat = g) ↔
        (∃ b < s.blockCount s.code.n, ∃ p < s.code.n, g = b * s.code.n + p ∧
          Bits.bit (s.locatedPattern (s.inputBlock s.code.n b)) p = true ∧
          (orig = true → g < s.origLen.toNat))) ∧
      (∀ e f, e < f → f < t.loccnt.toNat →
        (t.mem.locbuf.getD e 0).toNat < (t.mem.locbuf.getD f 0).toNat) ∧
      t.synd = (if s.blockCount s.code.n = 0 then 0
        else BitVec.ofNat 16 (s.code.syn (s.inputBlock s.code.n (s.blockCount s.code.n - 1)))) ∧
      t.epat = (if s.blockCount s.code.n = 0 then 0
        else Bits.toWord (s.locatedPattern (s.inputBlock s.code.n (s.blockCount s.code.n - 1)))) ∧
      t.nblk.toNat = s.blockCount s.code.n ∧
      t.ncorr.toNat = (List.range (s.blockCount s.code.n)).countP
        (fun b => s.locatedCorrected (s.inputBlock s.code.n b)) ∧
      t.nuncorr.toNat = (List.range (s.blockCount s.code.n)).countP
        (fun b => s.locatedUncorrectable (s.inputBlock s.code.n b)) ∧
      t.status.uncorr = (s.status.uncorr || decide (0 < t.nuncorr.toNat)) ∧
      t = { s with
        mem.locbuf := t.mem.locbuf
        loccnt := t.loccnt
        synd := t.synd
        epat := t.epat
        nblk := t.nblk
        ncorr := t.ncorr
        nuncorr := t.nuncorr
        draws := t.draws
        status := { s.status with busy := false, done := true, uncorr := t.status.uncorr } }

/-- R153 laws 1 and 2: ENC_KEY, XFER, then DEC_KEY with ORIG and ORIGLEN = L returns the key exactly; without ORIG it
returns the key with its zero pad. -/
def Obligations.KeyRoundTrip : Prop :=
  ∀ s : State, s.Inv → s.status.locked = true → s.ilen.toNat ≤ s.params.kmaxBits →
    s.blockCount s.code.k * s.code.n ≤ s.params.kmaxBits →
    ∃ t u v w, exec .encKey s = .next t ∧ exec .xfer t = .next u ∧
      exec (.decKey true) { u with origLen := s.ilen } = .next v ∧ exec (.decKey false) u = .next w ∧
      v.err = s.err ∧ v.olen = s.ilen ∧
      (∀ i < s.ilen.toNat, Bits.bit v.mem.obuf i = Bits.bit s.mem.ibuf i) ∧
      v.ncorr = 0 ∧ v.nuncorr = 0 ∧
      w.err = s.err ∧ w.olen.toNat = s.blockCount s.code.k * s.code.k ∧
      (∀ i < s.blockCount s.code.k * s.code.k, Bits.bit w.mem.obuf i =
        (decide (i < s.ilen.toNat) && Bits.bit s.mem.ibuf i))

/-- R153 law 3, R166 law 3: a received key whose blocks are codewords with at most one flipped bit each: when the columns
of H are non-zero and pairwise distinct, DEC_KEY gives back every message, counting the flipped blocks, and LOCATE
reports exactly the flipped positions. -/
def Obligations.OneFlipPerBlockIsCorrectedAndLocated : Prop :=
  ∀ (s : State) (m : Nat → Bits) (flip : Nat → Option Nat), s.Inv → s.status.locked = true → s.code.DistinctColumns →
    s.ilen.toNat ≤ s.params.kmaxBits → s.trimmedLength false ≤ s.params.kmaxBits →
    (∀ b < s.blockCount s.code.n, (m b).length = s.code.k ∧
      (flip b = none → s.inputBlock s.code.n b = s.code.enc (m b)) ∧
      (∀ p, flip b = some p → p < s.code.n ∧
        s.inputBlock s.code.n b = Bits.add (s.code.enc (m b)) (Bits.unit s.code.n p))) →
    ∃ t u, exec (.decKey false) s = .next t ∧ exec (.locate false) s = .next u ∧
      t.olen.toNat = s.blockCount s.code.n * s.code.k ∧
      (∀ b < s.blockCount s.code.n, ∀ j < s.code.k,
        Bits.bit t.mem.obuf (b * s.code.k + j) = Bits.bit (m b) j) ∧
      t.ncorr.toNat = (List.range (s.blockCount s.code.n)).countP (fun b => (flip b).isSome) ∧
      t.nuncorr = 0 ∧ u.nuncorr = 0 ∧
      (∀ g : Nat, (∃ e < u.loccnt.toNat, (u.mem.locbuf.getD e 0).toNat = g) ↔
        ∃ b < s.blockCount s.code.n, ∃ p, flip b = some p ∧ g = b * s.code.n + p)

/-- R166 law 2: on an error-free encoded key LOCATE reports no position. -/
def Obligations.ErrorFreeKeyLocatesNothing : Prop :=
  ∀ (s : State) (orig : Bool), s.Inv → s.status.locked = true → s.ilen.toNat ≤ s.params.kmaxBits →
    s.blockCount s.code.k * s.code.n ≤ s.params.kmaxBits →
    ∃ t u v, exec .encKey s = .next t ∧ exec .xfer t = .next u ∧ exec (.locate orig) u = .next v ∧
      v.err = s.err ∧ v.loccnt = 0 ∧ v.ncorr = 0 ∧ v.nuncorr = 0

/-! ## The privacy amplifier -/

/-- R175, R176, R180: PA_COMPRESS in the three-bit scheme, under-length input included. -/
def Obligations.ThreeBitCompress : Prop :=
  ∀ s : State, s.status.locked = true → s.mem.wf s.params = true → s.ilen.toNat ≤ s.params.kmaxBits →
    s.cfg.pa = false →
    ∃ t, exec .paCompress s = .next t ∧
      (3 ≤ s.ilen.toNat → t.olen.toNat = 2 * (s.ilen.toNat / 3) ∧ t.status.underlen = s.status.underlen ∧
        ∀ j < s.ilen.toNat / 3,
          Bits.bit t.mem.obuf (2 * j) = xor (Bits.bit s.mem.ibuf (3 * j)) (Bits.bit s.mem.ibuf (3 * j + 1)) ∧
          Bits.bit t.mem.obuf (2 * j + 1) =
            xor (Bits.bit s.mem.ibuf (3 * j + 1)) (Bits.bit s.mem.ibuf (3 * j + 2))) ∧
      (s.ilen.toNat < 3 → t.olen = s.ilen ∧ t.status.underlen = true ∧
        ∀ i < s.ilen.toNat, Bits.bit t.mem.obuf i = Bits.bit s.mem.ibuf i) ∧
      t = { s with
        mem.obuf := t.mem.obuf
        olen := t.olen
        draws := t.draws
        status := { s.status with busy := false, done := true, underlen := t.status.underlen } }

/-- R175, R178, R180: PA_COMPRESS in the adjacent-XOR scheme, under-length input included. -/
def Obligations.AdjacentCompress : Prop :=
  ∀ s : State, s.status.locked = true → s.mem.wf s.params = true → s.ilen.toNat ≤ s.params.kmaxBits →
    s.cfg.pa = true →
    ∃ t, exec .paCompress s = .next t ∧
      (2 ≤ s.ilen.toNat → t.olen.toNat = s.ilen.toNat - 1 ∧ t.status.underlen = s.status.underlen ∧
        ∀ i < s.ilen.toNat - 1,
          Bits.bit t.mem.obuf i = xor (Bits.bit s.mem.ibuf i) (Bits.bit s.mem.ibuf (i + 1))) ∧
      (s.ilen.toNat < 2 → t.olen = s.ilen ∧ t.status.underlen = true ∧
        ∀ i < s.ilen.toNat, Bits.bit t.mem.obuf i = Bits.bit s.mem.ibuf i) ∧
      t = { s with
        mem.obuf := t.mem.obuf
        olen := t.olen
        draws := t.draws
        status := { s.status with busy := false, done := true, underlen := t.status.underlen } }

/-- R175, R177, R181: PA_RECOVER in the three-bit scheme: the chain from the seed; the first stored bit and an odd trailing
bit are not read; less than one pair is under-length. -/
def Obligations.ThreeBitRecover : Prop :=
  ∀ (s : State) (seed : Bool), s.status.locked = true → s.mem.wf s.params = true →
    s.ilen.toNat ≤ s.params.kmaxBits → s.cfg.pa = false →
    ∃ t, exec (.paRecover seed) s = .next t ∧ t.olen.toNat = 2 * (s.ilen.toNat / 2) ∧
      (2 ≤ s.ilen.toNat → t.status.underlen = s.status.underlen ∧ Bits.bit t.mem.obuf 0 = seed) ∧
      (∀ i, 1 ≤ i → i < 2 * (s.ilen.toNat / 2) →
        Bits.bit t.mem.obuf i = xor (Bits.bit t.mem.obuf (i - 1)) (Bits.bit s.mem.ibuf i)) ∧
      (s.ilen.toNat < 2 → t.status.underlen = true) ∧
      t = { s with
        mem.obuf := t.mem.obuf
        olen := t.olen
        draws := t.draws
        status := { s.status with busy := false, done := true, underlen := t.status.underlen } }

/-- R175, R179, R181: PA_RECOVER in the adjacent-XOR scheme, for every input length that leaves room for one bit more. -/
def Obligations.AdjacentRecover : Prop :=
  ∀ (s : State) (seed : Bool), s.params.Legal → s.status.locked = true → s.mem.wf s.params = true →
    s.ilen.toNat + 1 ≤ s.params.kmaxBits → s.cfg.pa = true →
    ∃ t, exec (.paRecover seed) s = .next t ∧ t.olen.toNat = s.ilen.toNat + 1 ∧
      Bits.bit t.mem.obuf 0 = seed ∧
      (∀ i < s.ilen.toNat,
        Bits.bit t.mem.obuf (i + 1) = xor (Bits.bit t.mem.obuf i) (Bits.bit s.mem.ibuf i)) ∧
      t = { s with
        mem.obuf := t.mem.obuf
        olen := t.olen
        draws := t.draws
        status := { s.status with busy := false, done := true } }

/-- R182 law 1: in the adjacent-XOR scheme PA_COMPRESS, XFER, then PA_RECOVER with the seed K[0] returns every key K of
two or more bits. -/
def Obligations.AdjacentRoundTrip : Prop :=
  ∀ s : State, s.params.Legal → s.status.locked = true → s.mem.wf s.params = true →
    s.ilen.toNat ≤ s.params.kmaxBits → s.cfg.pa = true → 2 ≤ s.ilen.toNat →
    ∃ t u v, exec .paCompress s = .next t ∧ exec .xfer t = .next u ∧
      exec (.paRecover (Bits.bit s.mem.ibuf 0)) u = .next v ∧ v.err = s.err ∧ v.olen = s.ilen ∧
      ∀ i < s.ilen.toNat, Bits.bit v.mem.obuf i = Bits.bit s.mem.ibuf i

/-- R182 law 3: what three-bit recovery reconstructs: window j's pair (y, z), both xored with
δ_j = z_0 ⊕ x_1 ⊕ … ⊕ z_{j−1} ⊕ x_j; so window 0 is exact, and window j is exact iff δ_j = 0. -/
def Obligations.ThreeBitRecoveryDeviation : Prop :=
  ∀ (k : Bits) (j : Nat), 3 ≤ k.length → j < k.length / 3 →
    let r := (Amplifier.recover3 (Amplifier.compress3 k).1 (Bits.bit k 1)).1
    let delta := bitSum j fun i => xor (Bits.bit k (3 * i + 2)) (Bits.bit k (3 * (i + 1)))
    r.length = 2 * (k.length / 3) ∧
    Bits.bit r (2 * j) = xor (Bits.bit k (3 * j + 1)) delta ∧
    Bits.bit r (2 * j + 1) = xor (Bits.bit k (3 * j + 2)) delta

/-! ## The register window -/

/-- R23: a write to STATUS clears DONE, OVR and WIGN where it writes 1, and changes nothing else, busy or not. -/
def Obligations.StatusWriteOneToClear : Prop :=
  ∀ (s : State) (v : Word),
    s.hostWrite 0x00C v =
      { s with
        status := { s.status with
          done := s.status.done && !v.getLsbD 1
          ovr := s.status.ovr && !v.getLsbD 5
          wign := s.status.wign && !v.getLsbD 6 } }

/-- R23, R102: the bits of the STATUS word while BUSY = 0. -/
def Obligations.StatusWordLayout : Prop :=
  ∀ s : State,
    (s.windowWord 0x00C).getLsbD 0 = s.status.busy ∧ (s.windowWord 0x00C).getLsbD 1 = s.status.done ∧
    (s.windowWord 0x00C).getLsbD 2 = decide (s.err.code ≠ .none) ∧
    (s.windowWord 0x00C).getLsbD 3 = s.status.uncorr ∧ (s.windowWord 0x00C).getLsbD 4 = s.status.underlen ∧
    (s.windowWord 0x00C).getLsbD 5 = s.status.ovr ∧ (s.windowWord 0x00C).getLsbD 6 = s.status.wign ∧
    (s.windowWord 0x00C).getLsbD 7 = s.status.locked ∧ ∀ b, 8 ≤ b → (s.windowWord 0x00C).getLsbD b = false

/-- R44, R196: IRQ = DONE AND IE; it falls with a write of 1 to DONE, with acceptance and with reset, and rises when IE is
set while DONE = 1. -/
def Obligations.InterruptFollowsDoneAndEnable : Prop :=
  ∀ s : State, s.irq = (s.status.done && s.ie) ∧
    (∀ v : Word, v.getLsbD 1 = true → (s.hostWrite 0x00C v).irq = false) ∧
    (∀ w : Word, s.status.busy = false → (s.hostWrite 0x014 w).irq = false) ∧
    (∀ v : Word, v.getLsbD 1 = true → (s.hostWrite 0x008 v).irq = false) ∧
    (∀ v : Word, v.getLsbD 1 = false → (s.hostWrite 0x008 v).irq = (s.status.done && v.getLsbD 0))

/-- R24, R216: CTRL reads IE at bit 0 and 0 elsewhere; a CTRL write with SRST = 0 sets IE and nothing else; with SRST = 1
it resets the core at once, busy or not, discards the IE it carries and any pending command, and keeps the parameters
and the environment. -/
def Obligations.ControlWriteAndSoftReset : Prop :=
  ∀ (s : State) (v : Word),
    (s.windowWord 0x008).toNat = s.ie.toNat ∧
    (v.getLsbD 1 = false → s.hostWrite 0x008 v = { s with ie := v.getLsbD 0 }) ∧
    (v.getLsbD 1 = true → (s.hostWrite 0x008 v).AtReset ∧ (s.hostWrite 0x008 v).params = s.params ∧
      (s.hostWrite 0x008 v).resetIn = s.resetIn ∧ (s.hostWrite 0x008 v).host = s.host ∧
      (s.hostWrite 0x008 v).sched = s.sched ∧ coreStep (s.hostWrite 0x008 v) = .next (s.hostWrite 0x008 v))

/-- R215: the reset input resets the core when asserted and when released; meanwhile EXEC never fires and every host access
is refused. -/
def Obligations.HardResetHoldsTheCore : Prop :=
  ∀ s : State,
    (∃ t, takeTurn .resetAssert s = .next t ∧ t.AtReset ∧ t.resetIn = true ∧ t.params = s.params ∧
      coreStep t = .next t ∧ ∃ u, takeTurn .resetRelease t = .next u ∧ u.AtReset ∧ u.resetIn = false) ∧
    (s.resetIn = true → coreStep s = .next s ∧
      ∀ a width v, s.hostStmt (.wr a width v) = .refused (.accessDuringReset a) ∧
        s.hostStmt (.rd a width) = .refused (.accessDuringReset a))

/-- R46, R22: the state after reset, with the default parameters of R5: every register at its reset value, the buffers at
their sizes and nothing said of their contents; soft and hard reset set every piece of state to the same, and leave ID and
PARAM; the data commands then fail with NOT_CONFIGURED. That reset takes the default parameters is the model's choice
(log 1). -/
def Obligations.ResetStateIsAtReset : Prop :=
  State.reset.AtReset ∧ State.reset.params = { nmax := 32, rmax := 8, kmaxBits := 4096 } ∧
    State.reset.windowWord 0x000 = 0x51464543 ∧ State.reset.windowWord 0x004 = 0x00800820 ∧
    (∀ i, needsConfig i = true → exec i State.reset = .next (State.reset.failedWith .notConfigured)) ∧
    (∀ (s : State) (v : Word), v.getLsbD 1 = true →
      let t := s.hostWrite 0x008 v
      t.AtReset ∧ t.windowWord 0x000 = s.windowWord 0x000 ∧ t.windowWord 0x004 = s.windowWord 0x004 ∧
        ∀ i, needsConfig i = true → exec i t = .next (t.failedWith .notConfigured)) ∧
    (∀ s : State, ∃ t, takeTurn .resetAssert s = .next t ∧ t.AtReset ∧
      t.windowWord 0x000 = s.windowWord 0x000 ∧ t.windowWord 0x004 = s.windowWord 0x004 ∧
      ∀ i, needsConfig i = true → exec i t = .next (t.failedWith .notConfigured))

/-- R45: CFG, the G_ROW slots and the H_ROW slots that exist take a host write only while BUSY = 0 and LOCKED = 0;
otherwise the write is ignored and sets WIGN. Bits at or above NMAX of a row are ignored (R28, R29). -/
def Obligations.ConfigurationWritesAndLock : Prop :=
  ∀ (s : State) (v : Word), s.params.Legal →
    ((s.status.busy = true ∨ s.status.locked = true) →
      (s.hostWrite 0x018 v = { s with status := { s.status with wign := true } }) ∧
      (∀ i, i + 1 < s.params.nmax →
        s.hostWrite (0x100 + 4 * i) v = { s with status := { s.status with wign := true } }) ∧
      (∀ r < s.params.rmax, s.hostWrite (0x180 + 4 * r) v = { s with status := { s.status with wign := true } })) ∧
    (s.status.busy = false → s.status.locked = false →
      (s.hostWrite 0x018 v =
        { s with cfg := { n := v.extractLsb' 0 6, k := v.extractLsb' 8 6, pa := v.getLsbD 16 } }) ∧
      (∀ i, i + 1 < s.params.nmax →
        s.hostWrite (0x100 + 4 * i) v = { s with gRow := (s.hostWrite (0x100 + 4 * i) v).gRow } ∧
        ∀ j p, rowBit (s.hostWrite (0x100 + 4 * i) v).gRow j p =
          if j = i then decide (p < s.params.nmax) && v.getLsbD p else rowBit s.gRow j p) ∧
      (∀ r < s.params.rmax,
        s.hostWrite (0x180 + 4 * r) v = { s with hRow := (s.hostWrite (0x180 + 4 * r) v).hRow } ∧
        ∀ j p, rowBit (s.hostWrite (0x180 + 4 * r) v).hRow j p =
          if j = r then decide (p < s.params.nmax) && v.getLsbD p else rowBit s.hRow j p))

/-- R31, R32, R38, R39, R218: ILEN, ORIGLEN, TBL_IDX and the IBUF words that exist take a host write while BUSY = 0, and
while BUSY = 1 the write is ignored and sets WIGN. -/
def Obligations.InputWrites : Prop :=
  ∀ (s : State) (v : Word), s.params.Legal → s.mem.wf s.params = true →
    (s.status.busy = true → ∀ a,
      (a = 0x01C ∨ a = 0x020 ∨ a = 0x040 ∨ ∃ w < s.params.kmaxBits / 32, a = 0x4000 + 4 * w) →
      s.hostWrite a v = { s with status := { s.status with wign := true } }) ∧
    (s.status.busy = false →
      s.hostWrite 0x01C v = { s with ilen := v } ∧
      s.hostWrite 0x020 v = { s with origLen := v } ∧
      s.hostWrite 0x040 v = { s with tblIdx := v.extractLsb' 0 16 } ∧
      ∀ w < s.params.kmaxBits / 32,
        s.hostWrite (0x4000 + 4 * w) v = { s with mem.ibuf := (s.hostWrite (0x4000 + 4 * w) v).mem.ibuf } ∧
        (s.hostWrite (0x4000 + 4 * w) v).mem.wf s.params = true ∧
        ∀ i, Bits.bit (s.hostWrite (0x4000 + 4 * w) v).mem.ibuf i =
          if i / 32 = w then v.getLsbD (i % 32) else Bits.bit s.mem.ibuf i)

/-- R47, R65: a write to a read-only register, to a reserved offset or to a slot that does not exist is ignored without a
status bit, busy or not; a read of a reserved offset or of a missing slot returns 0 and changes nothing, busy or not. That
the first holds of missing slots while busy or locked, and the second while busy, is the model's reading (logs 16, 14). -/
def Obligations.ReadOnlyAndReservedSpace : Prop :=
  ∀ (s : State) (a : Nat) (v : Word), s.params.Legal → a % 4 = 0 → a < 0x20000 →
    ((a ∈ [0x000, 0x004, 0x010, 0x024, 0x028, 0x02C, 0x030, 0x034, 0x038, 0x03C, 0x044, 0x048] ∨
        (0x200 ≤ a ∧ a < 0x280) ∨ 0x8000 ≤ a) → s.hostWrite a v = s) ∧
    (((0x04C ≤ a ∧ a < 0x100) ∨ (0x280 ≤ a ∧ a < 0x4000) ∨
        (0x100 + 4 * (s.params.nmax - 1) ≤ a ∧ a < 0x180) ∨ (0x180 + 4 * s.params.rmax ≤ a ∧ a < 0x200) ∨
        (0x200 + 4 * (s.params.nmax - 1) ≤ a ∧ a < 0x280) ∨
        (0x4000 + s.params.kmaxBits / 8 ≤ a ∧ a < 0x8000) ∨ (0x8000 + s.params.kmaxBits / 8 ≤ a ∧ a < 0x10000) ∨
        0x10000 + 4 * s.params.kmaxBits ≤ a) →
      s.hostWrite a v = s ∧ s.windowWord a = 0 ∧ s.hostRead a = (0, s))

/-- R66: reads have no side effects: a read changes no state of the core, and with BUSY = 0 nothing at all. -/
def Obligations.ReadsHaveNoSideEffects : Prop :=
  ∀ (s : State) (a : Nat),
    (s.hostRead a).2 = { s with draws := (s.hostRead a).2.draws } ∧
    (s.status.busy = false → s.hostRead a = (s.windowWord a, s))

/-- R219: while BUSY = 1 a read of ID, PARAM, CTRL or CMD is defined; of STATUS, BUSY (1), DONE (0), OVR and WIGN are
defined, and ERRF, UNCORR, UNDERLEN and LOCKED are bits of a fresh free value; a read of any other register or buffer
word is a fresh free value, whatever that value is. Reserved places are no registers: ReadOnlyAndReservedSpace. -/
def Obligations.ReadsWhileBusy : Prop :=
  ∀ s : State, s.Inv → s.status.busy = true →
    let draw := Config.freeWord s.draws 0
    let drawn : State := { s with draws := s.draws + 1 }
    s.hostRead 0x000 = (0x51464543, s) ∧ s.hostRead 0x004 = (s.paramWord, s) ∧
    s.hostRead 0x008 = (s.ctrlWord, s) ∧ s.hostRead 0x014 = (s.pend, s) ∧
    (s.hostRead 0x00C).2 = drawn ∧
    (s.hostRead 0x00C).1.getLsbD 0 = true ∧ (s.hostRead 0x00C).1.getLsbD 1 = false ∧
    (s.hostRead 0x00C).1.getLsbD 5 = s.status.ovr ∧ (s.hostRead 0x00C).1.getLsbD 6 = s.status.wign ∧
    (∀ b ∈ [2, 3, 4, 7], (s.hostRead 0x00C).1.getLsbD b = draw.getLsbD b) ∧
    (∀ a < 0x20000, a % 4 = 0 → regAt s.params a ∉ [.id, .param, .ctrl, .status, .cmd, .reserved] →
      s.hostRead a = (draw, drawn))

/-- R62: bit i of a buffer is bit (i mod 32) of its word ⌊i/32⌋; LOCBUF entry e is the word at 0x10000 + 4e; R63: byte lane
b of an aligned word carries its bits [8b+7 : 8b]. -/
def Obligations.BufferPackingAndByteLanes : Prop :=
  ∀ s : State, s.params.Legal →
    (∀ i < s.params.kmaxBits,
      (s.windowWord (0x4000 + 4 * (i / 32))).getLsbD (i % 32) = Bits.bit s.mem.ibuf i ∧
      (s.windowWord (0x8000 + 4 * (i / 32))).getLsbD (i % 32) = Bits.bit s.mem.obuf i) ∧
    (∀ e < s.params.kmaxBits, s.windowWord (0x10000 + 4 * e) = s.mem.locbuf.getD e 0) ∧
    (∀ a b k, a % 4 = 0 → b < 4 → k < 8 → (s.windowByte (a + b)).getLsbD k = (s.windowWord a).getLsbD (8 * b + k))

/-- R22, R24–R29, R31–R38, R61: the words of the registers while BUSY = 0, the existing slots of G_ROW and H_ROW included.
STATUS, MPOS, TBL_PAT, TBL_INFO and the buffers are in StatusWordLayout, DerivedConfigurationReadback and
BufferPackingAndByteLanes. -/
def Obligations.RegisterReadback : Prop :=
  ∀ s : State, s.params.Legal →
    s.windowWord 0x000 = 0x51464543 ∧
    (s.windowWord 0x004).toNat =
      s.params.nmax + s.params.rmax * 2 ^ 8 + s.params.kmaxBits / 32 * 2 ^ 16 ∧
    (s.windowWord 0x008).toNat = s.ie.toNat ∧
    (s.windowWord 0x010).toNat = s.err.code.number.toNat + s.err.opc.toNat * 2 ^ 8 ∧
    s.windowWord 0x014 = s.pend ∧
    (s.windowWord 0x018).toNat = s.cfg.n.toNat + s.cfg.k.toNat * 2 ^ 8 + s.cfg.pa.toNat * 2 ^ 16 ∧
    s.windowWord 0x01C = s.ilen ∧ s.windowWord 0x020 = s.origLen ∧ s.windowWord 0x024 = s.olen ∧
    (s.windowWord 0x028).toNat = s.synd.toNat ∧ s.windowWord 0x02C = s.epat ∧ s.windowWord 0x030 = s.nblk ∧
    s.windowWord 0x034 = s.ncorr ∧ s.windowWord 0x038 = s.nuncorr ∧ s.windowWord 0x03C = s.loccnt ∧
    (s.windowWord 0x040).toNat = s.tblIdx.toNat ∧
    (∀ i, i + 1 < s.params.nmax → s.windowWord (0x100 + 4 * i) = s.gRow[i]?.getD 0) ∧
    (∀ r < s.params.rmax, s.windowWord (0x180 + 4 * r) = s.hRow[r]?.getD 0)

/-- R30, R38: MPOS and the syndrome-table window. -/
def Obligations.DerivedConfigurationReadback : Prop :=
  ∀ s : State, s.Inv →
    (∀ j, j + 1 < s.params.nmax → (s.windowWord (0x200 + 4 * j)).toNat =
      if s.status.locked = true ∧ j < s.code.k then (s.mpos[j]?.getD 0).toNat else 0) ∧
    (∀ e, s.status.locked = true → s.tblIdx.toNat < 2 ^ (s.code.n - s.code.k) →
      s.table.getD s.tblIdx.toNat none = some e →
      s.windowWord 0x044 = Bits.toWord e.pattern ∧ (s.windowWord 0x048).toNat = 1 + 2 * e.weight.toNat) ∧
    ((s.status.locked = false ∨ 2 ^ (s.code.n - s.code.k) ≤ s.tblIdx.toNat ∨
        s.table.getD s.tblIdx.toNat none = none) →
      s.windowWord 0x044 = 0 ∧ s.windowWord 0x048 = 0)

/-- R64, U4: an access of another width, at a misaligned offset or outside the window is refused; any other takes effect,
a read leaves its value in the host's `t`, and the host goes on. That an offset at or above 0x20000 is refused like the
other two is DEDUCED (log 22); the host's index and `t` are the model's choice (log 10). -/
def Obligations.UndefinedAccessIsRefused : Prop :=
  ∀ (s : State) (a width : Nat) (v : HostVal), s.resetIn = false →
    (width ≠ 4 ∨ a % 4 ≠ 0 ∨ 0x20000 ≤ a →
      s.hostStmt (.wr a width v) = .refused (.undefinedAccess a width) ∧
      s.hostStmt (.rd a width) = .refused (.undefinedAccess a width)) ∧
    (width = 4 → a % 4 = 0 → a < 0x20000 →
      s.hostStmt (.wr a width v) =
        .next { s.hostWrite a (s.hostVal v) with host.pc := (s.hostWrite a (s.hostVal v)).host.pc + 1 } ∧
      s.hostStmt (.rd a width) =
        .next { (s.hostRead a).2 with
          host.t := (s.hostRead a).1
          host.pc := (s.hostRead a).2.host.pc + 1 })

/-! ## The whole machine -/

/-- R46: the invariant holds after reset. -/
def Obligations.InvariantHoldsAtReset : Prop := State.reset.Inv

/-- From every state that meets the invariant, every step that answers a state answers one that meets it. -/
def Obligations.EveryStepKeepsInvariant : Prop :=
  ∀ s t : State, s.Inv → step s = .next t → t.Inv

/-- R190: no step faults, the core's own step always answers a state, and a step is refused only for a host statement: an
undefined access, an access during reset, or a branch to no label. -/
def Obligations.OnlyHostStatementsAreRefused : Prop :=
  ∀ s : State, (∃ t, coreStep s = .next t) ∧
    ((∃ t, step s = .next t) ∨ (∃ a width, step s = .refused (.undefinedAccess a width)) ∨
      (∃ a, s.resetIn = true ∧ step s = .refused (.accessDuringReset a)) ∨
      (∃ l, step s = .refused (.undefinedLabel l)))

/-- R70, R103, R216, R218: while a command is pending, a host step either is a soft reset or leaves the pending word, every
input of the command and its outputs as they were, and the command stays pending. -/
def Obligations.PendingCommandIsUndisturbed : Prop :=
  ∀ s t : State, s.Pending → s.hostStep = .next t →
    (t.AtReset ∧ ∃ v, s.host.script[s.host.pc]? = some (.wr 0x008 4 v) ∧ (s.hostVal v).getLsbD 1 = true) ∨
    (t.Pending ∧ t = { s with
      ie := t.ie
      status := { s.status with done := t.status.done, ovr := t.status.ovr, wign := t.status.wign }
      host := t.host
      draws := t.draws })

/-- R68, R101, R220 (U12): the results of a command do not depend on how many host steps come between its acceptance and
its EXEC, nor on what they are, as long as the command stays pending. -/
def Obligations.ResultsIndependentOfDelay : Prop :=
  ∀ s s' t t' : State, s.Pending → s.HostDelay s' → coreStep s = .next t → coreStep s' = .next t' → t.SameResults t'

/-- R86: the host's own control flow: a label does nothing, `b` goes to its label, and `bnz` goes there when v AND mask is
not 0 and on otherwise. Of two equal labels the first counts, and a branch to no label is refused: the model's choices
(log 10). -/
def Obligations.HostControlFlow : Prop :=
  ∀ (s : State) (l : Nat),
    s.hostStmt (.label l) = .next { s with host.pc := s.host.pc + 1 } ∧
    (∀ (v : HostVal) (mask : Word),
      (s.hostVal v &&& mask ≠ 0 → s.hostStmt (.bnz v mask l) = s.hostStmt (.b l)) ∧
      (s.hostVal v &&& mask = 0 → s.hostStmt (.bnz v mask l) = .next { s with host.pc := s.host.pc + 1 })) ∧
    (∀ i : Nat, s.host.script[i]? = some (.label l) → (∀ j < i, s.host.script[j]? ≠ some (.label l)) →
      s.hostStmt (.b l) = .next { s with host.pc := i }) ∧
    ((∀ i : Nat, s.host.script[i]? ≠ some (.label l)) → s.hostStmt (.b l) = .refused (.undefinedLabel l))
end

