-- ==== Sys2Proof/Laws/Bits.lean ====
section
/-! SUPPORT. The small lemmas of the bit-vector notation (R8, R9, R62) and of the free values' lists. -/

namespace Sys2Proof

@[simp] theorem length_freeBits (d i n : Nat) : (freeBits d i n).length = n := by
  induction n generalizing i with
  | zero => rfl
  | succ n ih => simp [freeBits, ih]

@[simp] theorem length_freeWords (d i n : Nat) : (freeWords d i n).length = n := by
  induction n generalizing i with
  | zero => rfl
  | succ n ih => simp [freeWords, ih]

/-- An unspecified bit is the free value of its draw at its index, whatever that value is. -/
theorem freeBits_getElem? (d i n j : Nat) :
    (freeBits d i n)[j]? = if j < n then some (Config.freeBit d (i + j)) else none := by
  induction n generalizing i j with
  | zero => simp [freeBits]
  | succ n ih =>
    cases j with
    | zero => simp [freeBits]
    | succ j => simp [freeBits, ih, Nat.add_comm, Nat.add_left_comm]

namespace Machine

namespace Bits

@[simp] theorem bit_nil (i : Nat) : bit [] i = false := by simp [bit]

@[simp] theorem bit_cons_zero (b : Bool) (v : Bits) : bit (b :: v) 0 = b := by simp [bit]

@[simp] theorem bit_cons_succ (b : Bool) (v : Bits) (i : Nat) : bit (b :: v) (i + 1) = bit v i := by simp [bit]

theorem bit_eq_getElem {v : Bits} {i : Nat} (h : i < v.length) : bit v i = v[i] := by
  simp [bit, List.getD_eq_getElem?_getD, h]

theorem bit_of_length_le {v : Bits} {i : Nat} (h : v.length ≤ i) : bit v i = false := by
  simp [bit, List.getD_eq_getElem?_getD, h]

/-- Two vectors of one length with the same bits are equal. -/
theorem ext_bit {v w : Bits} (hl : v.length = w.length) (h : ∀ i < v.length, bit v i = bit w i) : v = w := by
  refine List.ext_getElem hl fun i hv hw => ?_
  simpa [bit_eq_getElem hv, bit_eq_getElem hw] using h i hv

theorem bit_append (v w : Bits) (i : Nat) :
    bit (v ++ w) i = if i < v.length then bit v i else bit w (i - v.length) := by
  simp only [bit, List.getD_eq_getElem?_getD, List.getElem?_append]
  split <;> rfl

theorem bit_drop (v : Bits) (a i : Nat) : bit (v.drop a) i = bit v (a + i) := by
  simp [bit, List.getD_eq_getElem?_getD, List.getElem?_drop]

theorem bit_take (v : Bits) (n i : Nat) : bit (v.take n) i = (decide (i < n) && bit v i) := by
  by_cases h : i < n <;> simp [bit, List.getD_eq_getElem?_getD, h]

@[simp] theorem length_slice (v : Bits) (a l : Nat) : (slice v a l).length = min l (v.length - a) := by
  simp [slice]

theorem bit_slice (v : Bits) (a l i : Nat) : bit (slice v a l) i = (decide (i < l) && bit v (a + i)) := by
  simp [slice, bit_take, bit_drop]

@[simp] theorem length_zeros (l : Nat) : (zeros l).length = l := by simp [zeros]

@[simp] theorem bit_zeros (l i : Nat) : bit (zeros l) i = false := by
  by_cases h : i < l <;> simp [zeros, bit, List.getD_eq_getElem?_getD, h]

theorem bit_map_range (f : Nat → Bool) (n i : Nat) : bit ((List.range n).map f) i = (decide (i < n) && f i) := by
  by_cases h : i < n <;> simp [bit, List.getD_eq_getElem?_getD, h]

@[simp] theorem length_unit (n p : Nat) : (unit n p).length = n := by simp [unit]

theorem bit_unit (n p i : Nat) : bit (unit n p) i = (decide (i < n) && i == p) := by simp [unit, bit_map_range]

@[simp] theorem length_add (v w : Bits) : (add v w).length = min v.length w.length := by simp [add]

theorem bit_add {v w : Bits} (h : v.length = w.length) (i : Nat) : bit (add v w) i = xor (bit v i) (bit w i) := by
  by_cases hi : i < v.length
  · rw [bit_eq_getElem (by simp [h] at hi ⊢; omega), bit_eq_getElem hi, bit_eq_getElem (h ▸ hi)]
    simp [add]
  · rw [bit_of_length_le (by simp; omega), bit_of_length_le (by omega), bit_of_length_le (by omega)]
    rfl

theorem toNat_lt (v : Bits) : toNat v < 2 ^ v.length := by
  induction v with
  | nil => simp [toNat]
  | cons b v ih =>
    simp only [toNat, List.length_cons, Nat.pow_succ]
    cases b <;> simp <;> omega

theorem testBit_toNat (v : Bits) (i : Nat) : (toNat v).testBit i = bit v i := by
  induction v generalizing i with
  | nil => simp [toNat]
  | cons b v ih =>
    cases i with
    | zero => cases b <;> simp [toNat, Nat.testBit_zero]
    | succ i =>
      rw [bit_cons_succ, ← ih, Nat.testBit_succ]
      congr 1
      cases b <;> simp [toNat]
      omega

/-- R62: bit i of the packed word is `v[i]`. -/
theorem getLsbD_toWord (v : Bits) (i : Nat) : (toWord v).getLsbD i = (decide (i < 32) && bit v i) := by
  simp [toWord, BitVec.getLsbD_ofNat, testBit_toNat]

@[simp] theorem length_ofWord (w : Word) : (ofWord w).length = 32 := by simp [ofWord]

theorem bit_ofWord (w : Word) (i : Nat) : bit (ofWord w) i = w.getLsbD i := by
  rw [ofWord, bit_map_range]
  by_cases h : i < 32
  · simp [h]
  · simp [h, BitVec.getLsbD_of_ge w i (by omega)]

@[simp] theorem toWord_ofWord (w : Word) : toWord (ofWord w) = w := by
  refine BitVec.eq_of_getLsbD_eq fun i hi => ?_
  rw [getLsbD_toWord, bit_ofWord]
  simp [hi]

@[simp] theorem length_setWordAt (v : Bits) (w : Nat) (x : Word) (h : 32 * w + 32 ≤ v.length) :
    (setWordAt v w x).length = v.length := by
  simp [setWordAt]
  omega

/-- R62: a word write sets bits 32w … 32w + 31 and no other. -/
theorem bit_setWordAt {v : Bits} {w : Nat} (h : 32 * w + 32 ≤ v.length) (x : Word) (i : Nat) :
    bit (setWordAt v w x) i =
      if 32 * w ≤ i ∧ i < 32 * w + 32 then x.getLsbD (i - 32 * w) else bit v i := by
  simp only [setWordAt, bit_append, List.length_append, List.length_take, length_ofWord, bit_take, bit_drop,
    bit_ofWord]
  have : min (32 * w) v.length = 32 * w := by omega
  rw [this]
  by_cases h1 : i < 32 * w
  · simp [h1, show i < 32 * w + 32 by omega, show ¬ 32 * w ≤ i by omega]
  · by_cases h2 : i < 32 * w + 32
    · simp [h1, h2, show 32 * w ≤ i by omega]
    · simp [h2, show 32 * w + 32 + (i - (32 * w + 32)) = i by omega]

theorem wordAt_setWordAt_same {v : Bits} {w : Nat} (h : 32 * w + 32 ≤ v.length) (x : Word) :
    wordAt (setWordAt v w x) w = x := by
  refine BitVec.eq_of_getLsbD_eq fun i hi => ?_
  rw [wordAt, getLsbD_toWord, bit_slice, bit_setWordAt h]
  simp [hi]

theorem wordAt_setWordAt_other {v : Bits} {w w' : Nat} (h : 32 * w + 32 ≤ v.length) (hne : w' ≠ w) (x : Word) :
    wordAt (setWordAt v w x) w' = wordAt v w' := by
  refine BitVec.eq_of_getLsbD_eq fun i hi => ?_
  have : ¬ (32 * w ≤ 32 * w' + i ∧ 32 * w' + i < 32 * w + 32) := by omega
  rw [wordAt, wordAt, getLsbD_toWord, getLsbD_toWord, bit_slice, bit_slice, bit_setWordAt h, if_neg this]

theorem length_overlay {v old : Bits} (h : v.length ≤ old.length) : (overlay v old).length = old.length := by
  simp [overlay]
  omega

theorem bit_overlay (v old : Bits) (i : Nat) :
    bit (overlay v old) i = if i < v.length then bit v i else bit old i := by
  simp only [overlay, bit_append, bit_drop]
  split
  · rfl
  · congr 1
    omega

end Bits

@[simp] theorem bitSum_false (n : Nat) : bitSum n (fun _ => false) = false := by
  induction n with
  | zero => rfl
  | succ n ih => simp [bitSum, ih]

theorem bitSum_congr {n : Nat} {f g : Nat → Bool} (h : ∀ i < n, f i = g i) : bitSum n f = bitSum n g := by
  induction n with
  | zero => rfl
  | succ n ih => simp [bitSum, ih fun i hi => h i (by omega), h n (by omega)]

theorem bitSum_xor (n : Nat) (f g : Nat → Bool) :
    bitSum n (fun i => xor (f i) (g i)) = xor (bitSum n f) (bitSum n g) := by
  induction n with
  | zero => rfl
  | succ n ih =>
    simp only [bitSum, ih]
    cases bitSum n f <;> cases bitSum n g <;> cases f n <;> cases g n <;> rfl

theorem bitSum_and_left (n : Nat) (b : Bool) (f : Nat → Bool) :
    bitSum n (fun i => b && f i) = (b && bitSum n f) := by
  cases b <;> simp

/-- A sum with at most one non-zero term is that term. -/
theorem bitSum_eq_single (n p : Nat) (f : Nat → Bool) (h : ∀ i < n, i ≠ p → f i = false) :
    bitSum n f = (decide (p < n) && f p) := by
  induction n with
  | zero => simp [bitSum]
  | succ n ih =>
    rw [bitSum, ih fun i hi hne => h i (by omega) hne]
    by_cases hp : p = n
    · subst hp
      simp
    · rw [h n (by omega) (Ne.symm hp)]
      have : decide (p < n + 1) = decide (p < n) := by simp; omega
      rw [this, Bool.xor_false]

/-- The order of summation over GF(2) is free. -/
theorem bitSum_comm (n m : Nat) (f : Nat → Nat → Bool) :
    bitSum n (fun i => bitSum m fun j => f i j) = bitSum m fun j => bitSum n fun i => f i j := by
  induction n with
  | zero => simp [bitSum]
  | succ n ih => simp [bitSum, ih, bitSum_xor]

end Machine

end Sys2Proof
end

