-- ==== Sys2Proof/Laws/State.lean ====
section
/-! SUPPORT. One lemma per field per update of State, true by rfl, so that no later proof unfolds a record update. -/

namespace Sys2Proof.Machine.State

variable (s : State)

/-! `accept` -/

@[simp] theorem accept_params (w : Word) : (s.accept w).params = s.params := rfl
@[simp] theorem accept_status_busy (w : Word) : (s.accept w).status.busy = true := rfl
@[simp] theorem accept_status_done (w : Word) : (s.accept w).status.done = false := rfl
@[simp] theorem accept_status_uncorr (w : Word) : (s.accept w).status.uncorr = false := rfl
@[simp] theorem accept_status_underlen (w : Word) : (s.accept w).status.underlen = false := rfl
@[simp] theorem accept_status_ovr (w : Word) : (s.accept w).status.ovr = s.status.ovr := rfl
@[simp] theorem accept_status_wign (w : Word) : (s.accept w).status.wign = s.status.wign := rfl
@[simp] theorem accept_status_locked (w : Word) : (s.accept w).status.locked = s.status.locked := rfl
@[simp] theorem accept_ie (w : Word) : (s.accept w).ie = s.ie := rfl
@[simp] theorem accept_err (w : Word) : (s.accept w).err = { code := .none, opc := 0 } := rfl
@[simp] theorem accept_pend (w : Word) : (s.accept w).pend = w := rfl
@[simp] theorem accept_cfg (w : Word) : (s.accept w).cfg = s.cfg := rfl
@[simp] theorem accept_gRow (w : Word) : (s.accept w).gRow = s.gRow := rfl
@[simp] theorem accept_hRow (w : Word) : (s.accept w).hRow = s.hRow := rfl
@[simp] theorem accept_mpos (w : Word) : (s.accept w).mpos = s.mpos := rfl
@[simp] theorem accept_table (w : Word) : (s.accept w).table = s.table := rfl
@[simp] theorem accept_ilen (w : Word) : (s.accept w).ilen = s.ilen := rfl
@[simp] theorem accept_origLen (w : Word) : (s.accept w).origLen = s.origLen := rfl
@[simp] theorem accept_olen (w : Word) : (s.accept w).olen = s.olen := rfl
@[simp] theorem accept_synd (w : Word) : (s.accept w).synd = s.synd := rfl
@[simp] theorem accept_epat (w : Word) : (s.accept w).epat = s.epat := rfl
@[simp] theorem accept_nblk (w : Word) : (s.accept w).nblk = s.nblk := rfl
@[simp] theorem accept_ncorr (w : Word) : (s.accept w).ncorr = s.ncorr := rfl
@[simp] theorem accept_nuncorr (w : Word) : (s.accept w).nuncorr = s.nuncorr := rfl
@[simp] theorem accept_loccnt (w : Word) : (s.accept w).loccnt = s.loccnt := rfl
@[simp] theorem accept_tblIdx (w : Word) : (s.accept w).tblIdx = s.tblIdx := rfl
@[simp] theorem accept_mem (w : Word) : (s.accept w).mem = s.mem := rfl
@[simp] theorem accept_resetIn (w : Word) : (s.accept w).resetIn = s.resetIn := rfl
@[simp] theorem accept_host (w : Word) : (s.accept w).host = s.host := rfl
@[simp] theorem accept_sched (w : Word) : (s.accept w).sched = s.sched := rfl
@[simp] theorem accept_draws (w : Word) : (s.accept w).draws = s.draws := rfl

/-! `complete` -/

@[simp] theorem complete_params : (s.complete).params = s.params := rfl
@[simp] theorem complete_status_busy : (s.complete).status.busy = false := rfl
@[simp] theorem complete_status_done : (s.complete).status.done = true := rfl
@[simp] theorem complete_status_uncorr : (s.complete).status.uncorr = s.status.uncorr := rfl
@[simp] theorem complete_status_underlen : (s.complete).status.underlen = s.status.underlen := rfl
@[simp] theorem complete_status_ovr : (s.complete).status.ovr = s.status.ovr := rfl
@[simp] theorem complete_status_wign : (s.complete).status.wign = s.status.wign := rfl
@[simp] theorem complete_status_locked : (s.complete).status.locked = s.status.locked := rfl
@[simp] theorem complete_ie : (s.complete).ie = s.ie := rfl
@[simp] theorem complete_err : (s.complete).err = s.err := rfl
@[simp] theorem complete_pend : (s.complete).pend = s.pend := rfl
@[simp] theorem complete_cfg : (s.complete).cfg = s.cfg := rfl
@[simp] theorem complete_gRow : (s.complete).gRow = s.gRow := rfl
@[simp] theorem complete_hRow : (s.complete).hRow = s.hRow := rfl
@[simp] theorem complete_mpos : (s.complete).mpos = s.mpos := rfl
@[simp] theorem complete_table : (s.complete).table = s.table := rfl
@[simp] theorem complete_ilen : (s.complete).ilen = s.ilen := rfl
@[simp] theorem complete_origLen : (s.complete).origLen = s.origLen := rfl
@[simp] theorem complete_olen : (s.complete).olen = s.olen := rfl
@[simp] theorem complete_synd : (s.complete).synd = s.synd := rfl
@[simp] theorem complete_epat : (s.complete).epat = s.epat := rfl
@[simp] theorem complete_nblk : (s.complete).nblk = s.nblk := rfl
@[simp] theorem complete_ncorr : (s.complete).ncorr = s.ncorr := rfl
@[simp] theorem complete_nuncorr : (s.complete).nuncorr = s.nuncorr := rfl
@[simp] theorem complete_loccnt : (s.complete).loccnt = s.loccnt := rfl
@[simp] theorem complete_tblIdx : (s.complete).tblIdx = s.tblIdx := rfl
@[simp] theorem complete_mem : (s.complete).mem = s.mem := rfl
@[simp] theorem complete_resetIn : (s.complete).resetIn = s.resetIn := rfl
@[simp] theorem complete_host : (s.complete).host = s.host := rfl
@[simp] theorem complete_sched : (s.complete).sched = s.sched := rfl
@[simp] theorem complete_draws : (s.complete).draws = s.draws := rfl

/-! `raiseError` -/

@[simp] theorem raiseError_params (c : ErrCode) : (s.raiseError c).params = s.params := rfl
@[simp] theorem raiseError_status_busy (c : ErrCode) : (s.raiseError c).status.busy = false := rfl
@[simp] theorem raiseError_status_done (c : ErrCode) : (s.raiseError c).status.done = true := rfl
@[simp] theorem raiseError_status_uncorr (c : ErrCode) : (s.raiseError c).status.uncorr = s.status.uncorr := rfl
@[simp] theorem raiseError_status_underlen (c : ErrCode) : (s.raiseError c).status.underlen = s.status.underlen := rfl
@[simp] theorem raiseError_status_ovr (c : ErrCode) : (s.raiseError c).status.ovr = s.status.ovr := rfl
@[simp] theorem raiseError_status_wign (c : ErrCode) : (s.raiseError c).status.wign = s.status.wign := rfl
@[simp] theorem raiseError_status_locked (c : ErrCode) : (s.raiseError c).status.locked = s.status.locked := rfl
@[simp] theorem raiseError_ie (c : ErrCode) : (s.raiseError c).ie = s.ie := rfl
@[simp] theorem raiseError_err (c : ErrCode) : (s.raiseError c).err = { code := c, opc := s.pend.extractLsb' 0 8 } := rfl
@[simp] theorem raiseError_pend (c : ErrCode) : (s.raiseError c).pend = s.pend := rfl
@[simp] theorem raiseError_cfg (c : ErrCode) : (s.raiseError c).cfg = s.cfg := rfl
@[simp] theorem raiseError_gRow (c : ErrCode) : (s.raiseError c).gRow = s.gRow := rfl
@[simp] theorem raiseError_hRow (c : ErrCode) : (s.raiseError c).hRow = s.hRow := rfl
@[simp] theorem raiseError_mpos (c : ErrCode) : (s.raiseError c).mpos = s.mpos := rfl
@[simp] theorem raiseError_table (c : ErrCode) : (s.raiseError c).table = s.table := rfl
@[simp] theorem raiseError_ilen (c : ErrCode) : (s.raiseError c).ilen = s.ilen := rfl
@[simp] theorem raiseError_origLen (c : ErrCode) : (s.raiseError c).origLen = s.origLen := rfl
@[simp] theorem raiseError_olen (c : ErrCode) : (s.raiseError c).olen = s.olen := rfl
@[simp] theorem raiseError_synd (c : ErrCode) : (s.raiseError c).synd = s.synd := rfl
@[simp] theorem raiseError_epat (c : ErrCode) : (s.raiseError c).epat = s.epat := rfl
@[simp] theorem raiseError_nblk (c : ErrCode) : (s.raiseError c).nblk = s.nblk := rfl
@[simp] theorem raiseError_ncorr (c : ErrCode) : (s.raiseError c).ncorr = s.ncorr := rfl
@[simp] theorem raiseError_nuncorr (c : ErrCode) : (s.raiseError c).nuncorr = s.nuncorr := rfl
@[simp] theorem raiseError_loccnt (c : ErrCode) : (s.raiseError c).loccnt = s.loccnt := rfl
@[simp] theorem raiseError_tblIdx (c : ErrCode) : (s.raiseError c).tblIdx = s.tblIdx := rfl
@[simp] theorem raiseError_mem (c : ErrCode) : (s.raiseError c).mem = s.mem := rfl
@[simp] theorem raiseError_resetIn (c : ErrCode) : (s.raiseError c).resetIn = s.resetIn := rfl
@[simp] theorem raiseError_host (c : ErrCode) : (s.raiseError c).host = s.host := rfl
@[simp] theorem raiseError_sched (c : ErrCode) : (s.raiseError c).sched = s.sched := rfl
@[simp] theorem raiseError_draws (c : ErrCode) : (s.raiseError c).draws = s.draws := rfl

/-! `setUncorrWhen` -/

@[simp] theorem setUncorrWhen_params (b : Bool) : (s.setUncorrWhen b).params = s.params := rfl
@[simp] theorem setUncorrWhen_status_busy (b : Bool) : (s.setUncorrWhen b).status.busy = s.status.busy := rfl
@[simp] theorem setUncorrWhen_status_done (b : Bool) : (s.setUncorrWhen b).status.done = s.status.done := rfl
@[simp] theorem setUncorrWhen_status_uncorr (b : Bool) : (s.setUncorrWhen b).status.uncorr = (s.status.uncorr || b) := rfl
@[simp] theorem setUncorrWhen_status_underlen (b : Bool) : (s.setUncorrWhen b).status.underlen = s.status.underlen := rfl
@[simp] theorem setUncorrWhen_status_ovr (b : Bool) : (s.setUncorrWhen b).status.ovr = s.status.ovr := rfl
@[simp] theorem setUncorrWhen_status_wign (b : Bool) : (s.setUncorrWhen b).status.wign = s.status.wign := rfl
@[simp] theorem setUncorrWhen_status_locked (b : Bool) : (s.setUncorrWhen b).status.locked = s.status.locked := rfl
@[simp] theorem setUncorrWhen_ie (b : Bool) : (s.setUncorrWhen b).ie = s.ie := rfl
@[simp] theorem setUncorrWhen_err (b : Bool) : (s.setUncorrWhen b).err = s.err := rfl
@[simp] theorem setUncorrWhen_pend (b : Bool) : (s.setUncorrWhen b).pend = s.pend := rfl
@[simp] theorem setUncorrWhen_cfg (b : Bool) : (s.setUncorrWhen b).cfg = s.cfg := rfl
@[simp] theorem setUncorrWhen_gRow (b : Bool) : (s.setUncorrWhen b).gRow = s.gRow := rfl
@[simp] theorem setUncorrWhen_hRow (b : Bool) : (s.setUncorrWhen b).hRow = s.hRow := rfl
@[simp] theorem setUncorrWhen_mpos (b : Bool) : (s.setUncorrWhen b).mpos = s.mpos := rfl
@[simp] theorem setUncorrWhen_table (b : Bool) : (s.setUncorrWhen b).table = s.table := rfl
@[simp] theorem setUncorrWhen_ilen (b : Bool) : (s.setUncorrWhen b).ilen = s.ilen := rfl
@[simp] theorem setUncorrWhen_origLen (b : Bool) : (s.setUncorrWhen b).origLen = s.origLen := rfl
@[simp] theorem setUncorrWhen_olen (b : Bool) : (s.setUncorrWhen b).olen = s.olen := rfl
@[simp] theorem setUncorrWhen_synd (b : Bool) : (s.setUncorrWhen b).synd = s.synd := rfl
@[simp] theorem setUncorrWhen_epat (b : Bool) : (s.setUncorrWhen b).epat = s.epat := rfl
@[simp] theorem setUncorrWhen_nblk (b : Bool) : (s.setUncorrWhen b).nblk = s.nblk := rfl
@[simp] theorem setUncorrWhen_ncorr (b : Bool) : (s.setUncorrWhen b).ncorr = s.ncorr := rfl
@[simp] theorem setUncorrWhen_nuncorr (b : Bool) : (s.setUncorrWhen b).nuncorr = s.nuncorr := rfl
@[simp] theorem setUncorrWhen_loccnt (b : Bool) : (s.setUncorrWhen b).loccnt = s.loccnt := rfl
@[simp] theorem setUncorrWhen_tblIdx (b : Bool) : (s.setUncorrWhen b).tblIdx = s.tblIdx := rfl
@[simp] theorem setUncorrWhen_mem (b : Bool) : (s.setUncorrWhen b).mem = s.mem := rfl
@[simp] theorem setUncorrWhen_resetIn (b : Bool) : (s.setUncorrWhen b).resetIn = s.resetIn := rfl
@[simp] theorem setUncorrWhen_host (b : Bool) : (s.setUncorrWhen b).host = s.host := rfl
@[simp] theorem setUncorrWhen_sched (b : Bool) : (s.setUncorrWhen b).sched = s.sched := rfl
@[simp] theorem setUncorrWhen_draws (b : Bool) : (s.setUncorrWhen b).draws = s.draws := rfl

/-! `setUnderlenWhen` -/

@[simp] theorem setUnderlenWhen_params (b : Bool) : (s.setUnderlenWhen b).params = s.params := rfl
@[simp] theorem setUnderlenWhen_status_busy (b : Bool) : (s.setUnderlenWhen b).status.busy = s.status.busy := rfl
@[simp] theorem setUnderlenWhen_status_done (b : Bool) : (s.setUnderlenWhen b).status.done = s.status.done := rfl
@[simp] theorem setUnderlenWhen_status_uncorr (b : Bool) : (s.setUnderlenWhen b).status.uncorr = s.status.uncorr := rfl
@[simp] theorem setUnderlenWhen_status_underlen (b : Bool) : (s.setUnderlenWhen b).status.underlen = (s.status.underlen || b) := rfl
@[simp] theorem setUnderlenWhen_status_ovr (b : Bool) : (s.setUnderlenWhen b).status.ovr = s.status.ovr := rfl
@[simp] theorem setUnderlenWhen_status_wign (b : Bool) : (s.setUnderlenWhen b).status.wign = s.status.wign := rfl
@[simp] theorem setUnderlenWhen_status_locked (b : Bool) : (s.setUnderlenWhen b).status.locked = s.status.locked := rfl
@[simp] theorem setUnderlenWhen_ie (b : Bool) : (s.setUnderlenWhen b).ie = s.ie := rfl
@[simp] theorem setUnderlenWhen_err (b : Bool) : (s.setUnderlenWhen b).err = s.err := rfl
@[simp] theorem setUnderlenWhen_pend (b : Bool) : (s.setUnderlenWhen b).pend = s.pend := rfl
@[simp] theorem setUnderlenWhen_cfg (b : Bool) : (s.setUnderlenWhen b).cfg = s.cfg := rfl
@[simp] theorem setUnderlenWhen_gRow (b : Bool) : (s.setUnderlenWhen b).gRow = s.gRow := rfl
@[simp] theorem setUnderlenWhen_hRow (b : Bool) : (s.setUnderlenWhen b).hRow = s.hRow := rfl
@[simp] theorem setUnderlenWhen_mpos (b : Bool) : (s.setUnderlenWhen b).mpos = s.mpos := rfl
@[simp] theorem setUnderlenWhen_table (b : Bool) : (s.setUnderlenWhen b).table = s.table := rfl
@[simp] theorem setUnderlenWhen_ilen (b : Bool) : (s.setUnderlenWhen b).ilen = s.ilen := rfl
@[simp] theorem setUnderlenWhen_origLen (b : Bool) : (s.setUnderlenWhen b).origLen = s.origLen := rfl
@[simp] theorem setUnderlenWhen_olen (b : Bool) : (s.setUnderlenWhen b).olen = s.olen := rfl
@[simp] theorem setUnderlenWhen_synd (b : Bool) : (s.setUnderlenWhen b).synd = s.synd := rfl
@[simp] theorem setUnderlenWhen_epat (b : Bool) : (s.setUnderlenWhen b).epat = s.epat := rfl
@[simp] theorem setUnderlenWhen_nblk (b : Bool) : (s.setUnderlenWhen b).nblk = s.nblk := rfl
@[simp] theorem setUnderlenWhen_ncorr (b : Bool) : (s.setUnderlenWhen b).ncorr = s.ncorr := rfl
@[simp] theorem setUnderlenWhen_nuncorr (b : Bool) : (s.setUnderlenWhen b).nuncorr = s.nuncorr := rfl
@[simp] theorem setUnderlenWhen_loccnt (b : Bool) : (s.setUnderlenWhen b).loccnt = s.loccnt := rfl
@[simp] theorem setUnderlenWhen_tblIdx (b : Bool) : (s.setUnderlenWhen b).tblIdx = s.tblIdx := rfl
@[simp] theorem setUnderlenWhen_mem (b : Bool) : (s.setUnderlenWhen b).mem = s.mem := rfl
@[simp] theorem setUnderlenWhen_resetIn (b : Bool) : (s.setUnderlenWhen b).resetIn = s.resetIn := rfl
@[simp] theorem setUnderlenWhen_host (b : Bool) : (s.setUnderlenWhen b).host = s.host := rfl
@[simp] theorem setUnderlenWhen_sched (b : Bool) : (s.setUnderlenWhen b).sched = s.sched := rfl
@[simp] theorem setUnderlenWhen_draws (b : Bool) : (s.setUnderlenWhen b).draws = s.draws := rfl

/-! `writeObuf` -/

@[simp] theorem writeObuf_params (v : Bits) : (s.writeObuf v).params = s.params := rfl
@[simp] theorem writeObuf_status (v : Bits) : (s.writeObuf v).status = s.status := rfl
@[simp] theorem writeObuf_ie (v : Bits) : (s.writeObuf v).ie = s.ie := rfl
@[simp] theorem writeObuf_err (v : Bits) : (s.writeObuf v).err = s.err := rfl
@[simp] theorem writeObuf_pend (v : Bits) : (s.writeObuf v).pend = s.pend := rfl
@[simp] theorem writeObuf_cfg (v : Bits) : (s.writeObuf v).cfg = s.cfg := rfl
@[simp] theorem writeObuf_gRow (v : Bits) : (s.writeObuf v).gRow = s.gRow := rfl
@[simp] theorem writeObuf_hRow (v : Bits) : (s.writeObuf v).hRow = s.hRow := rfl
@[simp] theorem writeObuf_mpos (v : Bits) : (s.writeObuf v).mpos = s.mpos := rfl
@[simp] theorem writeObuf_table (v : Bits) : (s.writeObuf v).table = s.table := rfl
@[simp] theorem writeObuf_ilen (v : Bits) : (s.writeObuf v).ilen = s.ilen := rfl
@[simp] theorem writeObuf_origLen (v : Bits) : (s.writeObuf v).origLen = s.origLen := rfl
@[simp] theorem writeObuf_olen (v : Bits) : (s.writeObuf v).olen = BitVec.ofNat 32 v.length := rfl
@[simp] theorem writeObuf_synd (v : Bits) : (s.writeObuf v).synd = s.synd := rfl
@[simp] theorem writeObuf_epat (v : Bits) : (s.writeObuf v).epat = s.epat := rfl
@[simp] theorem writeObuf_nblk (v : Bits) : (s.writeObuf v).nblk = s.nblk := rfl
@[simp] theorem writeObuf_ncorr (v : Bits) : (s.writeObuf v).ncorr = s.ncorr := rfl
@[simp] theorem writeObuf_nuncorr (v : Bits) : (s.writeObuf v).nuncorr = s.nuncorr := rfl
@[simp] theorem writeObuf_loccnt (v : Bits) : (s.writeObuf v).loccnt = s.loccnt := rfl
@[simp] theorem writeObuf_tblIdx (v : Bits) : (s.writeObuf v).tblIdx = s.tblIdx := rfl
@[simp] theorem writeObuf_mem_ibuf (v : Bits) : (s.writeObuf v).mem.ibuf = s.mem.ibuf := rfl
@[simp] theorem writeObuf_mem_obuf (v : Bits) : (s.writeObuf v).mem.obuf = v ++ freeBits s.draws v.length (s.params.kmaxBits - v.length) := rfl
@[simp] theorem writeObuf_mem_locbuf (v : Bits) : (s.writeObuf v).mem.locbuf = s.mem.locbuf := rfl
@[simp] theorem writeObuf_resetIn (v : Bits) : (s.writeObuf v).resetIn = s.resetIn := rfl
@[simp] theorem writeObuf_host (v : Bits) : (s.writeObuf v).host = s.host := rfl
@[simp] theorem writeObuf_sched (v : Bits) : (s.writeObuf v).sched = s.sched := rfl
@[simp] theorem writeObuf_draws (v : Bits) : (s.writeObuf v).draws = s.draws + 1 := rfl

/-! `writeLocbuf` -/

@[simp] theorem writeLocbuf_params (l : List Nat) : (s.writeLocbuf l).params = s.params := rfl
@[simp] theorem writeLocbuf_status (l : List Nat) : (s.writeLocbuf l).status = s.status := rfl
@[simp] theorem writeLocbuf_ie (l : List Nat) : (s.writeLocbuf l).ie = s.ie := rfl
@[simp] theorem writeLocbuf_err (l : List Nat) : (s.writeLocbuf l).err = s.err := rfl
@[simp] theorem writeLocbuf_pend (l : List Nat) : (s.writeLocbuf l).pend = s.pend := rfl
@[simp] theorem writeLocbuf_cfg (l : List Nat) : (s.writeLocbuf l).cfg = s.cfg := rfl
@[simp] theorem writeLocbuf_gRow (l : List Nat) : (s.writeLocbuf l).gRow = s.gRow := rfl
@[simp] theorem writeLocbuf_hRow (l : List Nat) : (s.writeLocbuf l).hRow = s.hRow := rfl
@[simp] theorem writeLocbuf_mpos (l : List Nat) : (s.writeLocbuf l).mpos = s.mpos := rfl
@[simp] theorem writeLocbuf_table (l : List Nat) : (s.writeLocbuf l).table = s.table := rfl
@[simp] theorem writeLocbuf_ilen (l : List Nat) : (s.writeLocbuf l).ilen = s.ilen := rfl
@[simp] theorem writeLocbuf_origLen (l : List Nat) : (s.writeLocbuf l).origLen = s.origLen := rfl
@[simp] theorem writeLocbuf_olen (l : List Nat) : (s.writeLocbuf l).olen = s.olen := rfl
@[simp] theorem writeLocbuf_synd (l : List Nat) : (s.writeLocbuf l).synd = s.synd := rfl
@[simp] theorem writeLocbuf_epat (l : List Nat) : (s.writeLocbuf l).epat = s.epat := rfl
@[simp] theorem writeLocbuf_nblk (l : List Nat) : (s.writeLocbuf l).nblk = s.nblk := rfl
@[simp] theorem writeLocbuf_ncorr (l : List Nat) : (s.writeLocbuf l).ncorr = s.ncorr := rfl
@[simp] theorem writeLocbuf_nuncorr (l : List Nat) : (s.writeLocbuf l).nuncorr = s.nuncorr := rfl
@[simp] theorem writeLocbuf_loccnt (l : List Nat) : (s.writeLocbuf l).loccnt = BitVec.ofNat 32 l.length := rfl
@[simp] theorem writeLocbuf_tblIdx (l : List Nat) : (s.writeLocbuf l).tblIdx = s.tblIdx := rfl
@[simp] theorem writeLocbuf_mem_ibuf (l : List Nat) : (s.writeLocbuf l).mem.ibuf = s.mem.ibuf := rfl
@[simp] theorem writeLocbuf_mem_obuf (l : List Nat) : (s.writeLocbuf l).mem.obuf = s.mem.obuf := rfl
@[simp] theorem writeLocbuf_mem_locbuf (l : List Nat) : (s.writeLocbuf l).mem.locbuf = l.map (BitVec.ofNat 32) ++ freeWords s.draws l.length (s.params.kmaxBits - l.length) := rfl
@[simp] theorem writeLocbuf_resetIn (l : List Nat) : (s.writeLocbuf l).resetIn = s.resetIn := rfl
@[simp] theorem writeLocbuf_host (l : List Nat) : (s.writeLocbuf l).host = s.host := rfl
@[simp] theorem writeLocbuf_sched (l : List Nat) : (s.writeLocbuf l).sched = s.sched := rfl
@[simp] theorem writeLocbuf_draws (l : List Nat) : (s.writeLocbuf l).draws = s.draws + 1 := rfl

/-! `writeBlockResults` -/

@[simp] theorem writeBlockResults_params (rs : List BlockResult) : (s.writeBlockResults rs).params = s.params := rfl
@[simp] theorem writeBlockResults_status_busy (rs : List BlockResult) : (s.writeBlockResults rs).status.busy = s.status.busy := rfl
@[simp] theorem writeBlockResults_status_done (rs : List BlockResult) : (s.writeBlockResults rs).status.done = s.status.done := rfl
@[simp] theorem writeBlockResults_status_uncorr (rs : List BlockResult) : (s.writeBlockResults rs).status.uncorr = (s.status.uncorr || rs.any fun b => !b.correctable) := rfl
@[simp] theorem writeBlockResults_status_underlen (rs : List BlockResult) : (s.writeBlockResults rs).status.underlen = s.status.underlen := rfl
@[simp] theorem writeBlockResults_status_ovr (rs : List BlockResult) : (s.writeBlockResults rs).status.ovr = s.status.ovr := rfl
@[simp] theorem writeBlockResults_status_wign (rs : List BlockResult) : (s.writeBlockResults rs).status.wign = s.status.wign := rfl
@[simp] theorem writeBlockResults_status_locked (rs : List BlockResult) : (s.writeBlockResults rs).status.locked = s.status.locked := rfl
@[simp] theorem writeBlockResults_ie (rs : List BlockResult) : (s.writeBlockResults rs).ie = s.ie := rfl
@[simp] theorem writeBlockResults_err (rs : List BlockResult) : (s.writeBlockResults rs).err = s.err := rfl
@[simp] theorem writeBlockResults_pend (rs : List BlockResult) : (s.writeBlockResults rs).pend = s.pend := rfl
@[simp] theorem writeBlockResults_cfg (rs : List BlockResult) : (s.writeBlockResults rs).cfg = s.cfg := rfl
@[simp] theorem writeBlockResults_gRow (rs : List BlockResult) : (s.writeBlockResults rs).gRow = s.gRow := rfl
@[simp] theorem writeBlockResults_hRow (rs : List BlockResult) : (s.writeBlockResults rs).hRow = s.hRow := rfl
@[simp] theorem writeBlockResults_mpos (rs : List BlockResult) : (s.writeBlockResults rs).mpos = s.mpos := rfl
@[simp] theorem writeBlockResults_table (rs : List BlockResult) : (s.writeBlockResults rs).table = s.table := rfl
@[simp] theorem writeBlockResults_ilen (rs : List BlockResult) : (s.writeBlockResults rs).ilen = s.ilen := rfl
@[simp] theorem writeBlockResults_origLen (rs : List BlockResult) : (s.writeBlockResults rs).origLen = s.origLen := rfl
@[simp] theorem writeBlockResults_olen (rs : List BlockResult) : (s.writeBlockResults rs).olen = s.olen := rfl
@[simp] theorem writeBlockResults_synd (rs : List BlockResult) : (s.writeBlockResults rs).synd = (rs.getLast?.map fun b => BitVec.ofNat 16 b.synd).getD 0 := rfl
@[simp] theorem writeBlockResults_epat (rs : List BlockResult) : (s.writeBlockResults rs).epat = (rs.getLast?.map fun b => Bits.toWord b.pattern).getD 0 := rfl
@[simp] theorem writeBlockResults_nblk (rs : List BlockResult) : (s.writeBlockResults rs).nblk = BitVec.ofNat 32 rs.length := rfl
@[simp] theorem writeBlockResults_ncorr (rs : List BlockResult) : (s.writeBlockResults rs).ncorr = BitVec.ofNat 32 (rs.countP BlockResult.corrected) := rfl
@[simp] theorem writeBlockResults_nuncorr (rs : List BlockResult) : (s.writeBlockResults rs).nuncorr = BitVec.ofNat 32 (rs.countP fun b => !b.correctable) := rfl
@[simp] theorem writeBlockResults_loccnt (rs : List BlockResult) : (s.writeBlockResults rs).loccnt = s.loccnt := rfl
@[simp] theorem writeBlockResults_tblIdx (rs : List BlockResult) : (s.writeBlockResults rs).tblIdx = s.tblIdx := rfl
@[simp] theorem writeBlockResults_mem (rs : List BlockResult) : (s.writeBlockResults rs).mem = s.mem := rfl
@[simp] theorem writeBlockResults_resetIn (rs : List BlockResult) : (s.writeBlockResults rs).resetIn = s.resetIn := rfl
@[simp] theorem writeBlockResults_host (rs : List BlockResult) : (s.writeBlockResults rs).host = s.host := rfl
@[simp] theorem writeBlockResults_sched (rs : List BlockResult) : (s.writeBlockResults rs).sched = s.sched := rfl
@[simp] theorem writeBlockResults_draws (rs : List BlockResult) : (s.writeBlockResults rs).draws = s.draws := rfl

/-! `writeAmplified` -/

@[simp] theorem writeAmplified_params (r : Bits × Bool) : (s.writeAmplified r).params = s.params := rfl
@[simp] theorem writeAmplified_status_busy (r : Bits × Bool) : (s.writeAmplified r).status.busy = s.status.busy := rfl
@[simp] theorem writeAmplified_status_done (r : Bits × Bool) : (s.writeAmplified r).status.done = s.status.done := rfl
@[simp] theorem writeAmplified_status_uncorr (r : Bits × Bool) : (s.writeAmplified r).status.uncorr = s.status.uncorr := rfl
@[simp] theorem writeAmplified_status_underlen (r : Bits × Bool) : (s.writeAmplified r).status.underlen = (s.status.underlen || r.2) := rfl
@[simp] theorem writeAmplified_status_ovr (r : Bits × Bool) : (s.writeAmplified r).status.ovr = s.status.ovr := rfl
@[simp] theorem writeAmplified_status_wign (r : Bits × Bool) : (s.writeAmplified r).status.wign = s.status.wign := rfl
@[simp] theorem writeAmplified_status_locked (r : Bits × Bool) : (s.writeAmplified r).status.locked = s.status.locked := rfl
@[simp] theorem writeAmplified_ie (r : Bits × Bool) : (s.writeAmplified r).ie = s.ie := rfl
@[simp] theorem writeAmplified_err (r : Bits × Bool) : (s.writeAmplified r).err = s.err := rfl
@[simp] theorem writeAmplified_pend (r : Bits × Bool) : (s.writeAmplified r).pend = s.pend := rfl
@[simp] theorem writeAmplified_cfg (r : Bits × Bool) : (s.writeAmplified r).cfg = s.cfg := rfl
@[simp] theorem writeAmplified_gRow (r : Bits × Bool) : (s.writeAmplified r).gRow = s.gRow := rfl
@[simp] theorem writeAmplified_hRow (r : Bits × Bool) : (s.writeAmplified r).hRow = s.hRow := rfl
@[simp] theorem writeAmplified_mpos (r : Bits × Bool) : (s.writeAmplified r).mpos = s.mpos := rfl
@[simp] theorem writeAmplified_table (r : Bits × Bool) : (s.writeAmplified r).table = s.table := rfl
@[simp] theorem writeAmplified_ilen (r : Bits × Bool) : (s.writeAmplified r).ilen = s.ilen := rfl
@[simp] theorem writeAmplified_origLen (r : Bits × Bool) : (s.writeAmplified r).origLen = s.origLen := rfl
@[simp] theorem writeAmplified_olen (r : Bits × Bool) : (s.writeAmplified r).olen = BitVec.ofNat 32 r.1.length := rfl
@[simp] theorem writeAmplified_synd (r : Bits × Bool) : (s.writeAmplified r).synd = s.synd := rfl
@[simp] theorem writeAmplified_epat (r : Bits × Bool) : (s.writeAmplified r).epat = s.epat := rfl
@[simp] theorem writeAmplified_nblk (r : Bits × Bool) : (s.writeAmplified r).nblk = s.nblk := rfl
@[simp] theorem writeAmplified_ncorr (r : Bits × Bool) : (s.writeAmplified r).ncorr = s.ncorr := rfl
@[simp] theorem writeAmplified_nuncorr (r : Bits × Bool) : (s.writeAmplified r).nuncorr = s.nuncorr := rfl
@[simp] theorem writeAmplified_loccnt (r : Bits × Bool) : (s.writeAmplified r).loccnt = s.loccnt := rfl
@[simp] theorem writeAmplified_tblIdx (r : Bits × Bool) : (s.writeAmplified r).tblIdx = s.tblIdx := rfl
@[simp] theorem writeAmplified_mem_ibuf (r : Bits × Bool) : (s.writeAmplified r).mem.ibuf = s.mem.ibuf := rfl
@[simp] theorem writeAmplified_mem_obuf (r : Bits × Bool) : (s.writeAmplified r).mem.obuf = r.1 ++ freeBits s.draws r.1.length (s.params.kmaxBits - r.1.length) := rfl
@[simp] theorem writeAmplified_mem_locbuf (r : Bits × Bool) : (s.writeAmplified r).mem.locbuf = s.mem.locbuf := rfl
@[simp] theorem writeAmplified_resetIn (r : Bits × Bool) : (s.writeAmplified r).resetIn = s.resetIn := rfl
@[simp] theorem writeAmplified_host (r : Bits × Bool) : (s.writeAmplified r).host = s.host := rfl
@[simp] theorem writeAmplified_sched (r : Bits × Bool) : (s.writeAmplified r).sched = s.sched := rfl
@[simp] theorem writeAmplified_draws (r : Bits × Bool) : (s.writeAmplified r).draws = s.draws + 1 := rfl

/-! `commitBuild` -/

@[simp] theorem commitBuild_params (l : List Nat) (tb : List (Option TblEntry)) : (s.commitBuild l tb).params = s.params := rfl
@[simp] theorem commitBuild_status_busy (l : List Nat) (tb : List (Option TblEntry)) : (s.commitBuild l tb).status.busy = s.status.busy := rfl
@[simp] theorem commitBuild_status_done (l : List Nat) (tb : List (Option TblEntry)) : (s.commitBuild l tb).status.done = s.status.done := rfl
@[simp] theorem commitBuild_status_uncorr (l : List Nat) (tb : List (Option TblEntry)) : (s.commitBuild l tb).status.uncorr = s.status.uncorr := rfl
@[simp] theorem commitBuild_status_underlen (l : List Nat) (tb : List (Option TblEntry)) : (s.commitBuild l tb).status.underlen = s.status.underlen := rfl
@[simp] theorem commitBuild_status_ovr (l : List Nat) (tb : List (Option TblEntry)) : (s.commitBuild l tb).status.ovr = s.status.ovr := rfl
@[simp] theorem commitBuild_status_wign (l : List Nat) (tb : List (Option TblEntry)) : (s.commitBuild l tb).status.wign = s.status.wign := rfl
@[simp] theorem commitBuild_status_locked (l : List Nat) (tb : List (Option TblEntry)) : (s.commitBuild l tb).status.locked = true := rfl
@[simp] theorem commitBuild_ie (l : List Nat) (tb : List (Option TblEntry)) : (s.commitBuild l tb).ie = s.ie := rfl
@[simp] theorem commitBuild_err (l : List Nat) (tb : List (Option TblEntry)) : (s.commitBuild l tb).err = s.err := rfl
@[simp] theorem commitBuild_pend (l : List Nat) (tb : List (Option TblEntry)) : (s.commitBuild l tb).pend = s.pend := rfl
@[simp] theorem commitBuild_cfg (l : List Nat) (tb : List (Option TblEntry)) : (s.commitBuild l tb).cfg = s.cfg := rfl
@[simp] theorem commitBuild_gRow (l : List Nat) (tb : List (Option TblEntry)) : (s.commitBuild l tb).gRow = s.gRow := rfl
@[simp] theorem commitBuild_hRow (l : List Nat) (tb : List (Option TblEntry)) : (s.commitBuild l tb).hRow = s.hRow := rfl
@[simp] theorem commitBuild_mpos (l : List Nat) (tb : List (Option TblEntry)) : (s.commitBuild l tb).mpos = Vector.ofFn fun j => BitVec.ofNat 5 (l.getD j.val 0) := rfl
@[simp] theorem commitBuild_table (l : List Nat) (tb : List (Option TblEntry)) : (s.commitBuild l tb).table = tb := rfl
@[simp] theorem commitBuild_ilen (l : List Nat) (tb : List (Option TblEntry)) : (s.commitBuild l tb).ilen = s.ilen := rfl
@[simp] theorem commitBuild_origLen (l : List Nat) (tb : List (Option TblEntry)) : (s.commitBuild l tb).origLen = s.origLen := rfl
@[simp] theorem commitBuild_olen (l : List Nat) (tb : List (Option TblEntry)) : (s.commitBuild l tb).olen = s.olen := rfl
@[simp] theorem commitBuild_synd (l : List Nat) (tb : List (Option TblEntry)) : (s.commitBuild l tb).synd = s.synd := rfl
@[simp] theorem commitBuild_epat (l : List Nat) (tb : List (Option TblEntry)) : (s.commitBuild l tb).epat = s.epat := rfl
@[simp] theorem commitBuild_nblk (l : List Nat) (tb : List (Option TblEntry)) : (s.commitBuild l tb).nblk = s.nblk := rfl
@[simp] theorem commitBuild_ncorr (l : List Nat) (tb : List (Option TblEntry)) : (s.commitBuild l tb).ncorr = s.ncorr := rfl
@[simp] theorem commitBuild_nuncorr (l : List Nat) (tb : List (Option TblEntry)) : (s.commitBuild l tb).nuncorr = s.nuncorr := rfl
@[simp] theorem commitBuild_loccnt (l : List Nat) (tb : List (Option TblEntry)) : (s.commitBuild l tb).loccnt = s.loccnt := rfl
@[simp] theorem commitBuild_tblIdx (l : List Nat) (tb : List (Option TblEntry)) : (s.commitBuild l tb).tblIdx = s.tblIdx := rfl
@[simp] theorem commitBuild_mem (l : List Nat) (tb : List (Option TblEntry)) : (s.commitBuild l tb).mem = s.mem := rfl
@[simp] theorem commitBuild_resetIn (l : List Nat) (tb : List (Option TblEntry)) : (s.commitBuild l tb).resetIn = s.resetIn := rfl
@[simp] theorem commitBuild_host (l : List Nat) (tb : List (Option TblEntry)) : (s.commitBuild l tb).host = s.host := rfl
@[simp] theorem commitBuild_sched (l : List Nat) (tb : List (Option TblEntry)) : (s.commitBuild l tb).sched = s.sched := rfl
@[simp] theorem commitBuild_draws (l : List Nat) (tb : List (Option TblEntry)) : (s.commitBuild l tb).draws = s.draws := rfl

/-! `unlock` -/

@[simp] theorem unlock_params : (s.unlock).params = s.params := rfl
@[simp] theorem unlock_status_busy : (s.unlock).status.busy = s.status.busy := rfl
@[simp] theorem unlock_status_done : (s.unlock).status.done = s.status.done := rfl
@[simp] theorem unlock_status_uncorr : (s.unlock).status.uncorr = s.status.uncorr := rfl
@[simp] theorem unlock_status_underlen : (s.unlock).status.underlen = s.status.underlen := rfl
@[simp] theorem unlock_status_ovr : (s.unlock).status.ovr = s.status.ovr := rfl
@[simp] theorem unlock_status_wign : (s.unlock).status.wign = s.status.wign := rfl
@[simp] theorem unlock_status_locked : (s.unlock).status.locked = false := rfl
@[simp] theorem unlock_ie : (s.unlock).ie = s.ie := rfl
@[simp] theorem unlock_err : (s.unlock).err = s.err := rfl
@[simp] theorem unlock_pend : (s.unlock).pend = s.pend := rfl
@[simp] theorem unlock_cfg : (s.unlock).cfg = s.cfg := rfl
@[simp] theorem unlock_gRow : (s.unlock).gRow = s.gRow := rfl
@[simp] theorem unlock_hRow : (s.unlock).hRow = s.hRow := rfl
@[simp] theorem unlock_mpos : (s.unlock).mpos = Vector.replicate 32 0 := rfl
@[simp] theorem unlock_table : (s.unlock).table = List.replicate (2 ^ s.params.rmax) none := rfl
@[simp] theorem unlock_ilen : (s.unlock).ilen = s.ilen := rfl
@[simp] theorem unlock_origLen : (s.unlock).origLen = s.origLen := rfl
@[simp] theorem unlock_olen : (s.unlock).olen = s.olen := rfl
@[simp] theorem unlock_synd : (s.unlock).synd = s.synd := rfl
@[simp] theorem unlock_epat : (s.unlock).epat = s.epat := rfl
@[simp] theorem unlock_nblk : (s.unlock).nblk = s.nblk := rfl
@[simp] theorem unlock_ncorr : (s.unlock).ncorr = s.ncorr := rfl
@[simp] theorem unlock_nuncorr : (s.unlock).nuncorr = s.nuncorr := rfl
@[simp] theorem unlock_loccnt : (s.unlock).loccnt = s.loccnt := rfl
@[simp] theorem unlock_tblIdx : (s.unlock).tblIdx = s.tblIdx := rfl
@[simp] theorem unlock_mem : (s.unlock).mem = s.mem := rfl
@[simp] theorem unlock_resetIn : (s.unlock).resetIn = s.resetIn := rfl
@[simp] theorem unlock_host : (s.unlock).host = s.host := rfl
@[simp] theorem unlock_sched : (s.unlock).sched = s.sched := rfl
@[simp] theorem unlock_draws : (s.unlock).draws = s.draws := rfl

/-! `transfer` -/

@[simp] theorem transfer_params : (s.transfer).params = s.params := rfl
@[simp] theorem transfer_status : (s.transfer).status = s.status := rfl
@[simp] theorem transfer_ie : (s.transfer).ie = s.ie := rfl
@[simp] theorem transfer_err : (s.transfer).err = s.err := rfl
@[simp] theorem transfer_pend : (s.transfer).pend = s.pend := rfl
@[simp] theorem transfer_cfg : (s.transfer).cfg = s.cfg := rfl
@[simp] theorem transfer_gRow : (s.transfer).gRow = s.gRow := rfl
@[simp] theorem transfer_hRow : (s.transfer).hRow = s.hRow := rfl
@[simp] theorem transfer_mpos : (s.transfer).mpos = s.mpos := rfl
@[simp] theorem transfer_table : (s.transfer).table = s.table := rfl
@[simp] theorem transfer_ilen : (s.transfer).ilen = s.olen := rfl
@[simp] theorem transfer_origLen : (s.transfer).origLen = s.origLen := rfl
@[simp] theorem transfer_olen : (s.transfer).olen = s.olen := rfl
@[simp] theorem transfer_synd : (s.transfer).synd = s.synd := rfl
@[simp] theorem transfer_epat : (s.transfer).epat = s.epat := rfl
@[simp] theorem transfer_nblk : (s.transfer).nblk = s.nblk := rfl
@[simp] theorem transfer_ncorr : (s.transfer).ncorr = s.ncorr := rfl
@[simp] theorem transfer_nuncorr : (s.transfer).nuncorr = s.nuncorr := rfl
@[simp] theorem transfer_loccnt : (s.transfer).loccnt = s.loccnt := rfl
@[simp] theorem transfer_tblIdx : (s.transfer).tblIdx = s.tblIdx := rfl
@[simp] theorem transfer_mem_ibuf : (s.transfer).mem.ibuf = Bits.overlay (Bits.slice s.mem.obuf 0 s.olen.toNat) s.mem.ibuf := rfl
@[simp] theorem transfer_mem_obuf : (s.transfer).mem.obuf = s.mem.obuf := rfl
@[simp] theorem transfer_mem_locbuf : (s.transfer).mem.locbuf = s.mem.locbuf := rfl
@[simp] theorem transfer_resetIn : (s.transfer).resetIn = s.resetIn := rfl
@[simp] theorem transfer_host : (s.transfer).host = s.host := rfl
@[simp] theorem transfer_sched : (s.transfer).sched = s.sched := rfl
@[simp] theorem transfer_draws : (s.transfer).draws = s.draws := rfl

/-! `setWign` -/

@[simp] theorem setWign_params : (s.setWign).params = s.params := rfl
@[simp] theorem setWign_status_busy : (s.setWign).status.busy = s.status.busy := rfl
@[simp] theorem setWign_status_done : (s.setWign).status.done = s.status.done := rfl
@[simp] theorem setWign_status_uncorr : (s.setWign).status.uncorr = s.status.uncorr := rfl
@[simp] theorem setWign_status_underlen : (s.setWign).status.underlen = s.status.underlen := rfl
@[simp] theorem setWign_status_ovr : (s.setWign).status.ovr = s.status.ovr := rfl
@[simp] theorem setWign_status_wign : (s.setWign).status.wign = true := rfl
@[simp] theorem setWign_status_locked : (s.setWign).status.locked = s.status.locked := rfl
@[simp] theorem setWign_ie : (s.setWign).ie = s.ie := rfl
@[simp] theorem setWign_err : (s.setWign).err = s.err := rfl
@[simp] theorem setWign_pend : (s.setWign).pend = s.pend := rfl
@[simp] theorem setWign_cfg : (s.setWign).cfg = s.cfg := rfl
@[simp] theorem setWign_gRow : (s.setWign).gRow = s.gRow := rfl
@[simp] theorem setWign_hRow : (s.setWign).hRow = s.hRow := rfl
@[simp] theorem setWign_mpos : (s.setWign).mpos = s.mpos := rfl
@[simp] theorem setWign_table : (s.setWign).table = s.table := rfl
@[simp] theorem setWign_ilen : (s.setWign).ilen = s.ilen := rfl
@[simp] theorem setWign_origLen : (s.setWign).origLen = s.origLen := rfl
@[simp] theorem setWign_olen : (s.setWign).olen = s.olen := rfl
@[simp] theorem setWign_synd : (s.setWign).synd = s.synd := rfl
@[simp] theorem setWign_epat : (s.setWign).epat = s.epat := rfl
@[simp] theorem setWign_nblk : (s.setWign).nblk = s.nblk := rfl
@[simp] theorem setWign_ncorr : (s.setWign).ncorr = s.ncorr := rfl
@[simp] theorem setWign_nuncorr : (s.setWign).nuncorr = s.nuncorr := rfl
@[simp] theorem setWign_loccnt : (s.setWign).loccnt = s.loccnt := rfl
@[simp] theorem setWign_tblIdx : (s.setWign).tblIdx = s.tblIdx := rfl
@[simp] theorem setWign_mem : (s.setWign).mem = s.mem := rfl
@[simp] theorem setWign_resetIn : (s.setWign).resetIn = s.resetIn := rfl
@[simp] theorem setWign_host : (s.setWign).host = s.host := rfl
@[simp] theorem setWign_sched : (s.setWign).sched = s.sched := rfl
@[simp] theorem setWign_draws : (s.setWign).draws = s.draws := rfl

/-! `setOvr` -/

@[simp] theorem setOvr_params : (s.setOvr).params = s.params := rfl
@[simp] theorem setOvr_status_busy : (s.setOvr).status.busy = s.status.busy := rfl
@[simp] theorem setOvr_status_done : (s.setOvr).status.done = s.status.done := rfl
@[simp] theorem setOvr_status_uncorr : (s.setOvr).status.uncorr = s.status.uncorr := rfl
@[simp] theorem setOvr_status_underlen : (s.setOvr).status.underlen = s.status.underlen := rfl
@[simp] theorem setOvr_status_ovr : (s.setOvr).status.ovr = true := rfl
@[simp] theorem setOvr_status_wign : (s.setOvr).status.wign = s.status.wign := rfl
@[simp] theorem setOvr_status_locked : (s.setOvr).status.locked = s.status.locked := rfl
@[simp] theorem setOvr_ie : (s.setOvr).ie = s.ie := rfl
@[simp] theorem setOvr_err : (s.setOvr).err = s.err := rfl
@[simp] theorem setOvr_pend : (s.setOvr).pend = s.pend := rfl
@[simp] theorem setOvr_cfg : (s.setOvr).cfg = s.cfg := rfl
@[simp] theorem setOvr_gRow : (s.setOvr).gRow = s.gRow := rfl
@[simp] theorem setOvr_hRow : (s.setOvr).hRow = s.hRow := rfl
@[simp] theorem setOvr_mpos : (s.setOvr).mpos = s.mpos := rfl
@[simp] theorem setOvr_table : (s.setOvr).table = s.table := rfl
@[simp] theorem setOvr_ilen : (s.setOvr).ilen = s.ilen := rfl
@[simp] theorem setOvr_origLen : (s.setOvr).origLen = s.origLen := rfl
@[simp] theorem setOvr_olen : (s.setOvr).olen = s.olen := rfl
@[simp] theorem setOvr_synd : (s.setOvr).synd = s.synd := rfl
@[simp] theorem setOvr_epat : (s.setOvr).epat = s.epat := rfl
@[simp] theorem setOvr_nblk : (s.setOvr).nblk = s.nblk := rfl
@[simp] theorem setOvr_ncorr : (s.setOvr).ncorr = s.ncorr := rfl
@[simp] theorem setOvr_nuncorr : (s.setOvr).nuncorr = s.nuncorr := rfl
@[simp] theorem setOvr_loccnt : (s.setOvr).loccnt = s.loccnt := rfl
@[simp] theorem setOvr_tblIdx : (s.setOvr).tblIdx = s.tblIdx := rfl
@[simp] theorem setOvr_mem : (s.setOvr).mem = s.mem := rfl
@[simp] theorem setOvr_resetIn : (s.setOvr).resetIn = s.resetIn := rfl
@[simp] theorem setOvr_host : (s.setOvr).host = s.host := rfl
@[simp] theorem setOvr_sched : (s.setOvr).sched = s.sched := rfl
@[simp] theorem setOvr_draws : (s.setOvr).draws = s.draws := rfl

/-! `hostNext` -/

@[simp] theorem hostNext_params : (s.hostNext).params = s.params := rfl
@[simp] theorem hostNext_status : (s.hostNext).status = s.status := rfl
@[simp] theorem hostNext_ie : (s.hostNext).ie = s.ie := rfl
@[simp] theorem hostNext_err : (s.hostNext).err = s.err := rfl
@[simp] theorem hostNext_pend : (s.hostNext).pend = s.pend := rfl
@[simp] theorem hostNext_cfg : (s.hostNext).cfg = s.cfg := rfl
@[simp] theorem hostNext_gRow : (s.hostNext).gRow = s.gRow := rfl
@[simp] theorem hostNext_hRow : (s.hostNext).hRow = s.hRow := rfl
@[simp] theorem hostNext_mpos : (s.hostNext).mpos = s.mpos := rfl
@[simp] theorem hostNext_table : (s.hostNext).table = s.table := rfl
@[simp] theorem hostNext_ilen : (s.hostNext).ilen = s.ilen := rfl
@[simp] theorem hostNext_origLen : (s.hostNext).origLen = s.origLen := rfl
@[simp] theorem hostNext_olen : (s.hostNext).olen = s.olen := rfl
@[simp] theorem hostNext_synd : (s.hostNext).synd = s.synd := rfl
@[simp] theorem hostNext_epat : (s.hostNext).epat = s.epat := rfl
@[simp] theorem hostNext_nblk : (s.hostNext).nblk = s.nblk := rfl
@[simp] theorem hostNext_ncorr : (s.hostNext).ncorr = s.ncorr := rfl
@[simp] theorem hostNext_nuncorr : (s.hostNext).nuncorr = s.nuncorr := rfl
@[simp] theorem hostNext_loccnt : (s.hostNext).loccnt = s.loccnt := rfl
@[simp] theorem hostNext_tblIdx : (s.hostNext).tblIdx = s.tblIdx := rfl
@[simp] theorem hostNext_mem : (s.hostNext).mem = s.mem := rfl
@[simp] theorem hostNext_resetIn : (s.hostNext).resetIn = s.resetIn := rfl
@[simp] theorem hostNext_host_script : (s.hostNext).host.script = s.host.script := rfl
@[simp] theorem hostNext_host_pc : (s.hostNext).host.pc = s.host.pc + 1 := rfl
@[simp] theorem hostNext_host_t : (s.hostNext).host.t = s.host.t := rfl
@[simp] theorem hostNext_sched : (s.hostNext).sched = s.sched := rfl
@[simp] theorem hostNext_draws : (s.hostNext).draws = s.draws := rfl

/-! `resetCore` -/

@[simp] theorem resetCore_params : (s.resetCore).params = s.params := rfl
@[simp] theorem resetCore_status_busy : (s.resetCore).status.busy = false := rfl
@[simp] theorem resetCore_status_done : (s.resetCore).status.done = false := rfl
@[simp] theorem resetCore_status_uncorr : (s.resetCore).status.uncorr = false := rfl
@[simp] theorem resetCore_status_underlen : (s.resetCore).status.underlen = false := rfl
@[simp] theorem resetCore_status_ovr : (s.resetCore).status.ovr = false := rfl
@[simp] theorem resetCore_status_wign : (s.resetCore).status.wign = false := rfl
@[simp] theorem resetCore_status_locked : (s.resetCore).status.locked = false := rfl
@[simp] theorem resetCore_ie : (s.resetCore).ie = false := rfl
@[simp] theorem resetCore_err : (s.resetCore).err = { code := .none, opc := 0 } := rfl
@[simp] theorem resetCore_pend : (s.resetCore).pend = 0 := rfl
@[simp] theorem resetCore_cfg : (s.resetCore).cfg = { n := 0, k := 0, pa := false } := rfl
@[simp] theorem resetCore_gRow : (s.resetCore).gRow = Vector.replicate 32 0 := rfl
@[simp] theorem resetCore_hRow : (s.resetCore).hRow = Vector.replicate 32 0 := rfl
@[simp] theorem resetCore_mpos : (s.resetCore).mpos = Vector.replicate 32 0 := rfl
@[simp] theorem resetCore_table : (s.resetCore).table = List.replicate (2 ^ s.params.rmax) none := rfl
@[simp] theorem resetCore_ilen : (s.resetCore).ilen = 0 := rfl
@[simp] theorem resetCore_origLen : (s.resetCore).origLen = 0 := rfl
@[simp] theorem resetCore_olen : (s.resetCore).olen = 0 := rfl
@[simp] theorem resetCore_synd : (s.resetCore).synd = 0 := rfl
@[simp] theorem resetCore_epat : (s.resetCore).epat = 0 := rfl
@[simp] theorem resetCore_nblk : (s.resetCore).nblk = 0 := rfl
@[simp] theorem resetCore_ncorr : (s.resetCore).ncorr = 0 := rfl
@[simp] theorem resetCore_nuncorr : (s.resetCore).nuncorr = 0 := rfl
@[simp] theorem resetCore_loccnt : (s.resetCore).loccnt = 0 := rfl
@[simp] theorem resetCore_tblIdx : (s.resetCore).tblIdx = 0 := rfl
@[simp] theorem resetCore_mem_ibuf : (s.resetCore).mem.ibuf = freeBits s.draws 0 s.params.kmaxBits := rfl
@[simp] theorem resetCore_mem_obuf : (s.resetCore).mem.obuf = freeBits (s.draws + 1) 0 s.params.kmaxBits := rfl
@[simp] theorem resetCore_mem_locbuf : (s.resetCore).mem.locbuf = freeWords (s.draws + 2) 0 s.params.kmaxBits := rfl
@[simp] theorem resetCore_resetIn : (s.resetCore).resetIn = s.resetIn := rfl
@[simp] theorem resetCore_host : (s.resetCore).host = s.host := rfl
@[simp] theorem resetCore_sched : (s.resetCore).sched = s.sched := rfl
@[simp] theorem resetCore_draws : (s.resetCore).draws = s.draws + 3 := rfl

end Sys2Proof.Machine.State
end

