-- ==== Sys2Proof/Laws/Ops.lean ====
section
/-! SUPPORT. What each shared operation can do, said once: EXEC's frame, the guarded host writes, a bus access, a turn. -/

namespace Sys2Proof.Machine

/-- EXEC of any command answers a state: its results completed, or its error (R102, R195). -/
theorem runCommand_eq_next_iff (body : State → Except ErrCode State) (s t : State) :
    runCommand body s = .next t ↔
      (∃ u, body s = .ok u ∧ t = u.complete) ∨ (∃ c, body s = .error c ∧ t = s.raiseError c) := by
  unfold runCommand
  cases h : body s with
  | ok u => simp [eq_comm]
  | error c => simp [eq_comm]

theorem runCommand_ok {body : State → Except ErrCode State} {s u : State} (h : body s = .ok u) :
    runCommand body s = .next u.complete := by
  simp [runCommand, h]

theorem runCommand_error {body : State → Except ErrCode State} {s : State} {c : ErrCode} (h : body s = .error c) :
    runCommand body s = .next (s.raiseError c) := by
  simp [runCommand, h]

theorem runCommand_runs (body : State → Except ErrCode State) (s : State) : ∃ t, runCommand body s = .next t := by
  unfold runCommand
  cases body s <;> exact ⟨_, rfl⟩

/-- What a command does before its completion: the body that EXEC runs for it. -/
def bodyOf : Instr → State → Except ErrCode State
  | .nop => .ok
  | .cfgBuild => cfgBuildBody
  | .cfgUnlock => fun s => .ok s.unlock
  | .xfer => fun s => .ok s.transfer
  | .encBlk => encBlkBody
  | .synBlk => synBlkBody
  | .decBlk => decBlkBody
  | .encKey => encKeyBody
  | .decKey orig => decKeyBody orig
  | .locate orig => locateBody orig
  | .paCompress => paCompressBody
  | .paRecover seed => paRecoverBody seed

/-- Every arm of exec is EXEC's frame around its body. -/
theorem exec_eq_runCommand (i : Instr) (s : State) : exec i s = runCommand (bodyOf i) s := by
  cases i <;> rfl

theorem exec_runs (i : Instr) (s : State) : ∃ t, exec i s = .next t :=
  exec_eq_runCommand i s ▸ runCommand_runs _ s

theorem exec_eq_next_iff (i : Instr) (s t : State) :
    exec i s = .next t ↔
      (∃ u, bodyOf i s = .ok u ∧ t = u.complete) ∨ (∃ c, bodyOf i s = .error c ∧ t = s.raiseError c) := by
  rw [exec_eq_runCommand, runCommand_eq_next_iff]

/-- What the bodies of the commands that need LOCKED = 1 can write: OBUF with OLEN, LOCBUF with LOCCNT, the block
results and UNDERLEN. Everything else is as it was (R195's list read the other way round). -/
theorem body_frame {i : Instr} (hi : needsConfig i = true) {s u : State} (h : bodyOf i s = .ok u) :
    u = { s with
      mem := { s.mem with obuf := u.mem.obuf, locbuf := u.mem.locbuf }
      olen := u.olen
      loccnt := u.loccnt
      synd := u.synd
      epat := u.epat
      nblk := u.nblk
      ncorr := u.ncorr
      nuncorr := u.nuncorr
      draws := u.draws
      status := { s.status with uncorr := u.status.uncorr, underlen := u.status.underlen } } := by
  cases i <;> simp only [needsConfig, Bool.false_eq_true] at hi <;>
    simp only [bodyOf, encBlkBody, synBlkBody, decBlkBody, encKeyBody, decKeyBody, locateBody, paCompressBody,
      paRecoverBody] at h <;>
    (repeat' split at h) <;> first | cases h <;> done | (cases h; rfl)

/-- An error raised by any command is not NONE. -/
theorem body_error_ne_none {i : Instr} {s : State} {c : ErrCode} (h : bodyOf i s = .error c) : c ≠ .none := by
  cases i <;>
    simp only [bodyOf, cfgBuildBody, encBlkBody, synBlkBody, decBlkBody, encKeyBody, decKeyBody, locateBody,
      paCompressBody, paRecoverBody] at h <;>
    (repeat' split at h) <;> first | (cases h <;> done) | (cases h; decide)

/-- A command that does not fail leaves ERR as it was. -/
theorem body_ok_err {i : Instr} {s u : State} (h : bodyOf i s = .ok u) : u.err = s.err := by
  cases hi : needsConfig i with
  | true => rw [body_frame hi h]
  | false =>
    cases i <;> simp only [needsConfig, Bool.true_eq_false] at hi <;> simp only [bodyOf, cfgBuildBody] at h <;>
      (repeat' split at h) <;> first | (cases h <;> done) | (cases h; rfl)

/-- A command that does not fail keeps the pending word, BUSY, DONE, the sticky bits, IE, the parameters and the
environment. -/
theorem body_ok_keeps {i : Instr} {s u : State} (h : bodyOf i s = .ok u) :
    u.pend = s.pend ∧ u.ie = s.ie ∧ u.params = s.params ∧ u.host = s.host ∧ u.sched = s.sched ∧
      u.resetIn = s.resetIn ∧ u.cfg = s.cfg ∧ u.gRow = s.gRow ∧ u.hRow = s.hRow ∧ u.origLen = s.origLen ∧
      u.tblIdx = s.tblIdx ∧ u.status.busy = s.status.busy ∧ u.status.done = s.status.done ∧
      u.status.ovr = s.status.ovr ∧ u.status.wign = s.status.wign := by
  cases hi : needsConfig i with
  | true => rw [body_frame hi h]; simp
  | false =>
    cases i <;> simp only [needsConfig, Bool.true_eq_false] at hi <;> simp only [bodyOf, cfgBuildBody] at h <;>
      (repeat' split at h) <;> first | (cases h <;> done) | (cases h; simp)

namespace State

/-- A write to a plain writable register (R218). -/
theorem unlessBusy_cases (s t : State) :
    (s.status.busy = true ∧ s.unlessBusy t = s.setWign) ∨ (s.status.busy = false ∧ s.unlessBusy t = t) := by
  unfold unlessBusy
  cases s.status.busy <;> simp

/-- A write to the configuration (R45, R218). -/
theorem unlessFrozen_cases (s t : State) :
    ((s.status.busy = true ∨ s.status.locked = true) ∧ s.unlessFrozen t = s.setWign) ∨
      (s.status.busy = false ∧ s.status.locked = false ∧ s.unlessFrozen t = t) := by
  unfold unlessFrozen
  cases s.status.busy <;> cases s.status.locked <;> simp

/-- A read changes at most the number of the next draw (R66). -/
theorem hostRead_snd (s : State) (a : Nat) :
    (s.hostRead a).2 = s ∨ (s.hostRead a).2 = { s with draws := s.draws + 1 } := by
  unfold hostRead
  split
  · cases regAt s.params a <;> simp [readBusy, freeRead]
  · exact .inl rfl

/-- R65: a reserved place reads 0, busy or not, and takes no draw. -/
theorem hostRead_reserved {s : State} {a : Nat} (h : regAt s.params a = .reserved) : s.hostRead a = (0, s) := by
  unfold hostRead windowWord
  rw [h]
  split <;> rfl

/-- A bus access is refused during reset or when undefined, else it has its effect (R64, R215). -/
theorem hostAccess_cases (a width : Nat) (effect : State → State) (s : State) :
    (s.resetIn = true ∧ s.hostAccess a width effect = .refused (.accessDuringReset a)) ∨
      (s.resetIn = false ∧ accessDefined a width = false ∧
        s.hostAccess a width effect = .refused (.undefinedAccess a width)) ∨
      (s.resetIn = false ∧ accessDefined a width = true ∧ s.hostAccess a width effect = .next (effect s).hostNext) := by
  unfold hostAccess
  cases s.resetIn <;> cases accessDefined a width <;> simp

/-- What a host step that goes on can do: nothing but its own control flow, one write, or one read. -/
theorem hostStep_cases {s t : State} (h : s.hostStep = .next t) :
    (∃ pc, t = { s with host.pc := pc }) ∨
      (∃ a v, s.host.script[s.host.pc]? = some (.wr a 4 v) ∧ a % 4 = 0 ∧ a < 0x20000 ∧ s.resetIn = false ∧
        t = (s.hostWrite a (s.hostVal v)).hostNext) ∨
      (∃ a, s.host.script[s.host.pc]? = some (.rd a 4) ∧ a % 4 = 0 ∧ a < 0x20000 ∧ s.resetIn = false ∧
        t = (s.readIntoT a).hostNext) := by
  have access {a width : Nat} {effect : State → State} (h : s.hostAccess a width effect = .next t) :
      width = 4 ∧ a % 4 = 0 ∧ a < 0x20000 ∧ s.resetIn = false ∧ t = (effect s).hostNext := by
    rcases hostAccess_cases a width effect s with ⟨_, h'⟩ | ⟨_, _, h'⟩ | ⟨hr, hd, h'⟩
    · rw [h'] at h; cases h
    · rw [h'] at h; cases h
    · rw [h'] at h
      cases h
      simp only [accessDefined, Bool.and_eq_true, beq_iff_eq, decide_eq_true_eq] at hd
      exact ⟨hd.1.1, hd.1.2, hd.2, hr, rfl⟩
  have jump {l : Nat} (h : s.hostJump l = .next t) : ∃ pc, t = { s with host.pc := pc } := by
    unfold hostJump at h
    split at h
    · cases h; exact ⟨_, rfl⟩
    · cases h
  unfold hostStep at h
  split at h
  next st hst =>
    cases st with
    | wr a width v =>
      obtain ⟨rfl, h1, h2, h3, rfl⟩ := access h
      exact .inr (.inl ⟨a, v, hst, h1, h2, h3, rfl⟩)
    | rd a width =>
      obtain ⟨rfl, h1, h2, h3, rfl⟩ := access h
      exact .inr (.inr ⟨a, hst, h1, h2, h3, rfl⟩)
    | label l => cases h; exact .inl ⟨_, rfl⟩
    | bnz v mask l =>
      simp only [hostStmt] at h
      split at h
      · exact .inl (jump h)
      · cases h; exact .inl ⟨_, rfl⟩
    | b l => exact .inl (jump h)
  next => cases h; exact .inl ⟨s.host.pc, rfl⟩

end State

/-- What the core's step can do (R101): nothing while EXEC is not enabled, else one command or ILLEGAL_CMD. -/
theorem coreStep_cases (s : State) :
    (¬ s.Pending ∧ coreStep s = .next s) ∨
      (∃ i, s.Pending ∧ decode s.pend = .ok i ∧ coreStep s = exec i s) ∨
      (∃ e, s.Pending ∧ decode s.pend = .error e ∧ coreStep s = .next (s.raiseError .illegalCmd)) := by
  unfold coreStep
  by_cases h : s.status.busy = true ∧ s.resetIn = false
  · rw [if_pos h]
    unfold execPending
    cases hd : decode s.pend with
    | ok i => exact .inr (.inl ⟨i, h, rfl, rfl⟩)
    | error e => exact .inr (.inr ⟨e, h, rfl, rfl⟩)
  · rw [if_neg h]
    exact .inl ⟨h, rfl⟩

/-- A scheduled turn is the next one, on the state with that turn taken off the schedule. -/
theorem step_of_sched {s : State} {turn : Turn} {rest : List Turn} (h : s.sched = turn :: rest) :
    step s = takeTurn turn { s with sched := rest } := by
  simp only [step, nextTurn, h]

/-- With nothing scheduled the core moves while EXEC is enabled (R101, R220), else the host. -/
theorem step_of_sched_nil {s : State} (h : s.sched = []) :
    (s.Pending ∧ step s = coreStep s) ∨ (¬ s.Pending ∧ step s = s.hostStep) := by
  by_cases hp : s.Pending
  · exact .inl ⟨hp, by simp only [step, nextTurn, h, defaultTurn, if_pos (show _ ∧ _ from hp), takeTurn]⟩
  · exact .inr ⟨hp, by simp only [step, nextTurn, h, defaultTurn, if_neg (show ¬(_ ∧ _) from hp), takeTurn]⟩

/-- The turn taken off the schedule changes the schedule alone. -/
theorem nextTurn_state (s : State) : ∃ q, (nextTurn s).2 = { s with sched := q } := by
  unfold nextTurn
  split
  · exact ⟨_, rfl⟩
  · exact ⟨s.sched, rfl⟩

/-- What a step can do: a host step, the core's step, or an edge of the reset input, on the state with the turn taken off
the schedule. -/
theorem step_cases (s : State) :
    ∃ q, step s = ({ s with sched := q } : State).hostStep ∨ step s = coreStep { s with sched := q } ∨
      step s = .next ({ s with sched := q } : State).assertReset ∨
      step s = .next ({ s with sched := q } : State).releaseReset := by
  obtain ⟨q, hq⟩ := nextTurn_state s
  refine ⟨q, ?_⟩
  unfold step
  rw [hq]
  cases (nextTurn s).1 with
  | host => exact .inl rfl
  | core => exact .inr (.inl rfl)
  | resetAssert => exact .inr (.inr (.inl rfl))
  | resetRelease => exact .inr (.inr (.inr rfl))

end Sys2Proof.Machine
end

