-- ==== Sys2Proof/Laws/Bus.lean ====
section
/-! SUPPORT. The address map (R61): where each register and slot stands, and what a host write does there. -/

namespace Sys2Proof.Machine

/-- Below 0x100 the map is the list of the control registers (R61). -/
theorem regAt_control (p : Params) {a : Nat} (h : a < 0x100) : regAt p a = controlReg (a / 4) := by
  simp [regAt, h]

/-- R28: the slots of G_ROW. -/
theorem regAt_gRow (p : Params) {i : Nat} (h : i < 32) :
    regAt p (0x100 + 4 * i) = if i + 1 < p.nmax then .gRow i else .reserved := by
  have : (0x100 + 4 * i - 0x100) / 4 = i := by omega
  simp only [regAt, slot, this, show ¬ 0x100 + 4 * i < 0x100 by omega, show 0x100 + 4 * i < 0x180 by omega, if_true,
    if_false, decide_eq_true_eq]

/-- R29: the slots of H_ROW. -/
theorem regAt_hRow (p : Params) {r : Nat} (h : r < 32) :
    regAt p (0x180 + 4 * r) = if r < p.rmax then .hRow r else .reserved := by
  have : (0x180 + 4 * r - 0x180) / 4 = r := by omega
  simp only [regAt, slot, this, show ¬ 0x180 + 4 * r < 0x100 by omega, show ¬ 0x180 + 4 * r < 0x180 by omega,
    show 0x180 + 4 * r < 0x200 by omega, if_true, if_false, decide_eq_true_eq]

/-- R30: the slots of MPOS. -/
theorem regAt_mpos (p : Params) {j : Nat} (h : j < 32) :
    regAt p (0x200 + 4 * j) = if j + 1 < p.nmax then .mpos j else .reserved := by
  have : (0x200 + 4 * j - 0x200) / 4 = j := by omega
  simp only [regAt, slot, this, show ¬ 0x200 + 4 * j < 0x100 by omega, show ¬ 0x200 + 4 * j < 0x180 by omega,
    show ¬ 0x200 + 4 * j < 0x200 by omega, show 0x200 + 4 * j < 0x280 by omega, if_true, if_false, decide_eq_true_eq]

/-- R39: the words of IBUF. -/
theorem regAt_ibuf (p : Params) {w : Nat} (h : w < 0x1000) :
    regAt p (0x4000 + 4 * w) = if w < p.kmaxBits / 32 then .ibuf w else .reserved := by
  have : (0x4000 + 4 * w - 0x4000) / 4 = w := by omega
  simp only [regAt, slot, this, show ¬ 0x4000 + 4 * w < 0x100 by omega, show ¬ 0x4000 + 4 * w < 0x180 by omega,
    show ¬ 0x4000 + 4 * w < 0x200 by omega, show ¬ 0x4000 + 4 * w < 0x280 by omega,
    show ¬ 0x4000 + 4 * w < 0x4000 by omega, show 0x4000 + 4 * w < 0x8000 by omega, if_true, if_false,
    decide_eq_true_eq]

/-- R40: the words of OBUF. -/
theorem regAt_obuf (p : Params) {w : Nat} (h : w < 0x2000) :
    regAt p (0x8000 + 4 * w) = if w < p.kmaxBits / 32 then .obuf w else .reserved := by
  have : (0x8000 + 4 * w - 0x8000) / 4 = w := by omega
  simp only [regAt, slot, this, show ¬ 0x8000 + 4 * w < 0x100 by omega, show ¬ 0x8000 + 4 * w < 0x180 by omega,
    show ¬ 0x8000 + 4 * w < 0x200 by omega, show ¬ 0x8000 + 4 * w < 0x280 by omega,
    show ¬ 0x8000 + 4 * w < 0x4000 by omega, show ¬ 0x8000 + 4 * w < 0x8000 by omega,
    show 0x8000 + 4 * w < 0x10000 by omega, if_true, if_false, decide_eq_true_eq]

/-- R41: the entries of LOCBUF. -/
theorem regAt_locbuf (p : Params) {e : Nat} (h : e < 0x4000) :
    regAt p (0x10000 + 4 * e) = if e < p.kmaxBits then .locbuf e else .reserved := by
  have : (0x10000 + 4 * e - 0x10000) / 4 = e := by omega
  simp only [regAt, slot, this, show ¬ 0x10000 + 4 * e < 0x100 by omega, show ¬ 0x10000 + 4 * e < 0x180 by omega,
    show ¬ 0x10000 + 4 * e < 0x200 by omega, show ¬ 0x10000 + 4 * e < 0x280 by omega,
    show ¬ 0x10000 + 4 * e < 0x4000 by omega, show ¬ 0x10000 + 4 * e < 0x8000 by omega,
    show ¬ 0x10000 + 4 * e < 0x10000 by omega, show 0x10000 + 4 * e < 0x20000 by omega, if_true, if_false,
    decide_eq_true_eq]

/-- R65: the gaps of the map. -/
theorem regAt_gap (p : Params) {a : Nat} (h : (0x4C ≤ a ∧ a < 0x100) ∨ (0x280 ≤ a ∧ a < 0x4000)) :
    regAt p a = .reserved := by
  rcases h with ⟨h1, h2⟩ | ⟨h1, h2⟩
  · rw [regAt_control p h2]
    obtain ⟨w, hw⟩ : ∃ w, a / 4 = w + 19 := ⟨a / 4 - 19, by omega⟩
    rw [hw, controlReg]
    all_goals omega
  · simp [regAt, show ¬ a < 0x100 by omega, show ¬ a < 0x180 by omega, show ¬ a < 0x200 by omega,
      show ¬ a < 0x280 by omega, h2]

/-- What a place of the map can be: a control register, a slot that exists, or reserved (R61, R65). -/
theorem regAt_cases (p : Params) (a : Nat) :
    (a < 0x100 ∧ regAt p a = controlReg (a / 4)) ∨ regAt p a = .reserved ∨
      (∃ i, i + 1 < p.nmax ∧ (regAt p a = .gRow i ∨ regAt p a = .mpos i)) ∨
      (∃ r < p.rmax, regAt p a = .hRow r) ∨
      (∃ w < p.kmaxBits / 32, regAt p a = .ibuf w ∨ regAt p a = .obuf w) ∨
      (∃ e < p.kmaxBits, regAt p a = .locbuf e) := by
  have slot_cases (c : Prop) [Decidable c] (r : Reg) : slot (decide c) r = .reserved ∨ (c ∧ slot (decide c) r = r) := by
    by_cases h : c <;> simp [slot, h]
  by_cases h0 : a < 0x100
  · exact .inl ⟨h0, regAt_control p h0⟩
  refine .inr ?_
  simp only [regAt, h0, if_false]
  split
  · rcases slot_cases ((a - 0x100) / 4 + 1 < p.nmax) (.gRow ((a - 0x100) / 4)) with h | ⟨h, h'⟩
    · exact .inl h
    · exact .inr (.inl ⟨_, h, .inl h'⟩)
  split
  · rcases slot_cases ((a - 0x180) / 4 < p.rmax) (.hRow ((a - 0x180) / 4)) with h | ⟨h, h'⟩
    · exact .inl h
    · exact .inr (.inr (.inl ⟨_, h, h'⟩))
  split
  · rcases slot_cases ((a - 0x200) / 4 + 1 < p.nmax) (.mpos ((a - 0x200) / 4)) with h | ⟨h, h'⟩
    · exact .inl h
    · exact .inr (.inl ⟨_, h, .inr h'⟩)
  split
  · exact .inl rfl
  split
  · rcases slot_cases ((a - 0x4000) / 4 < p.kmaxBits / 32) (.ibuf ((a - 0x4000) / 4)) with h | ⟨h, h'⟩
    · exact .inl h
    · exact .inr (.inr (.inr (.inl ⟨_, h, .inl h'⟩)))
  split
  · rcases slot_cases ((a - 0x8000) / 4 < p.kmaxBits / 32) (.obuf ((a - 0x8000) / 4)) with h | ⟨h, h'⟩
    · exact .inl h
    · exact .inr (.inr (.inr (.inl ⟨_, h, .inr h'⟩)))
  split
  · rcases slot_cases ((a - 0x10000) / 4 < p.kmaxBits) (.locbuf ((a - 0x10000) / 4)) with h | ⟨h, h'⟩
    · exact .inl h
    · exact .inr (.inr (.inr (.inr ⟨_, h, h'⟩)))
  · exact .inl rfl

/-- R28, R29, R39: a slot that the map gives exists. -/
theorem regAt_exists (p : Params) (a : Nat) :
    (∀ i, regAt p a = .gRow i → i + 1 < p.nmax) ∧ (∀ r, regAt p a = .hRow r → r < p.rmax) ∧
      (∀ w, regAt p a = .ibuf w → w < p.kmaxBits / 32) ∧ (regAt p a = .ctrl → a / 4 = 2) := by
  rcases regAt_cases p a with ⟨_, h⟩ | h | ⟨i, hi, h | h⟩ | ⟨r, hr, h⟩ | ⟨w, hw, h | h⟩ | ⟨e, _, h⟩
  · rw [h]
    unfold controlReg
    split <;> simp_all
  · simp [h]
  · simp [h, hi]
  · simp [h]
  · simp [h, hr]
  · simp [h, hw]
  · simp [h]
  · simp [h]

namespace State

/-- What a host write can do (R45, R47, R65, R66, R100, R103, R216, R218): nothing, a sticky bit, the effect on CTRL,
STATUS or CMD, or, while the core is idle, the write of one input or configuration register. -/
theorem hostWrite_cases (s : State) (a : Nat) (v : Word) :
    s.hostWrite a v = s ∨ s.hostWrite a v = s.setWign ∨
      (a / 4 = 2 ∧ v.getLsbD 1 = true ∧ s.hostWrite a v = s.resetCore) ∨
      (v.getLsbD 1 = false ∧ s.hostWrite a v = { s with ie := v.getLsbD 0 }) ∨
      s.hostWrite a v = { s with status := s.status.clearW1C v } ∨
      (s.status.busy = true ∧ s.hostWrite a v = s.setOvr) ∨
      (s.status.busy = false ∧ s.hostWrite a v = s.accept v) ∨
      (s.status.busy = false ∧ s.status.locked = false ∧
        (s.hostWrite a v = { s with cfg := Cfg.ofWord v } ∨
          (∃ i, i + 1 < s.params.nmax ∧
            s.hostWrite a v = { s with gRow := s.gRow.setIfInBounds i (s.rowValue v) }) ∨
          (∃ r < s.params.rmax, s.hostWrite a v = { s with hRow := s.hRow.setIfInBounds r (s.rowValue v) }))) ∨
      (s.status.busy = false ∧
        (s.hostWrite a v = { s with ilen := v } ∨ s.hostWrite a v = { s with origLen := v } ∨
          s.hostWrite a v = { s with tblIdx := v.extractLsb' 0 16 } ∨
          (∃ w < s.params.kmaxBits / 32,
            s.hostWrite a v = { s with mem.ibuf := Bits.setWordAt s.mem.ibuf w v }))) := by
  have hex := regAt_exists s.params a
  unfold hostWrite
  cases hr : regAt s.params a with
  | ctrl =>
    simp only [writeReg, writeCtrl]
    cases h : v.getLsbD 1
    · simp
    · simp [hex.2.2.2 hr]
  | status => simp [writeReg]
  | cmd =>
    simp only [writeReg, writeCmd]
    cases h : s.status.busy <;> simp
  | cfg =>
    simp only [writeReg]
    rcases unlessFrozen_cases s { s with cfg := Cfg.ofWord v } with ⟨_, h⟩ | ⟨h1, h2, h⟩ <;> simp [*]
  | gRow i =>
    simp only [writeReg]
    rcases unlessFrozen_cases s { s with gRow := s.gRow.setIfInBounds i (s.rowValue v) } with ⟨_, h⟩ | ⟨h1, h2, h⟩
    · simp [h]
    · rw [h]
      exact .inr (.inr (.inr (.inr (.inr (.inr (.inr (.inl ⟨h1, h2, .inr (.inl ⟨i, hex.1 i hr, rfl⟩)⟩)))))))
  | hRow i =>
    simp only [writeReg]
    rcases unlessFrozen_cases s { s with hRow := s.hRow.setIfInBounds i (s.rowValue v) } with ⟨_, h⟩ | ⟨h1, h2, h⟩
    · simp [h]
    · rw [h]
      exact .inr (.inr (.inr (.inr (.inr (.inr (.inr (.inl ⟨h1, h2, .inr (.inr ⟨i, hex.2.1 i hr, rfl⟩)⟩)))))))
  | ilen =>
    simp only [writeReg]
    rcases unlessBusy_cases s { s with ilen := v } with ⟨_, h⟩ | ⟨h1, h⟩ <;> simp [*]
  | origLen =>
    simp only [writeReg]
    rcases unlessBusy_cases s { s with origLen := v } with ⟨_, h⟩ | ⟨h1, h⟩ <;> simp [*]
  | tblIdx =>
    simp only [writeReg]
    rcases unlessBusy_cases s { s with tblIdx := v.extractLsb' 0 16 } with ⟨_, h⟩ | ⟨h1, h⟩ <;> simp [*]
  | ibuf w =>
    simp only [writeReg]
    rcases unlessBusy_cases s { s with mem.ibuf := Bits.setWordAt s.mem.ibuf w v } with ⟨_, h⟩ | ⟨h1, h⟩
    · simp [h]
    · rw [h]
      exact .inr (.inr (.inr (.inr (.inr (.inr (.inr (.inr ⟨h1, .inr (.inr (.inr ⟨w, hex.2.2.1 w hr, rfl⟩))⟩)))))))
  | _ => exact .inl rfl

end State

end Sys2Proof.Machine
end

