-- ==== Sys2Proof/Laws/Linear.lean ====
section
/-! SUPPORT. The functions of the linear block code: lengths, bits, and the build's checks in the spec's own words
(R106–R109, R121–R124). -/

namespace Sys2Proof.Machine

theorem allSome_eq_some_iff (l : List (Option Nat)) (r : List Nat) : allSome l = some r ↔ l = r.map some := by
  induction l generalizing r with
  | nil => cases r <;> simp [allSome]
  | cons a l ih =>
    cases a with
    | none => cases r <;> simp [allSome]
    | some a =>
      cases r with
      | nil => simp [allSome]
      | cons b r =>
        simp only [allSome, Option.map_eq_some_iff, List.map_cons, List.cons.injEq, Option.some.injEq]
        constructor
        · rintro ⟨q, hq, rfl, rfl⟩
          exact ⟨rfl, (ih q).1 hq⟩
        · rintro ⟨rfl, h⟩
          exact ⟨r, (ih r).2 h, rfl, rfl⟩

namespace Code

@[simp] theorem length_svec (c : Code) (v : Bits) : (c.svec v).length = c.r := by simp [svec]

@[simp] theorem length_enc (c : Code) (m : Bits) : (c.enc m).length = c.n := by simp [enc]

@[simp] theorem length_extract (c : Code) (mpos : Vector (BitVec 5) 32) (v : Bits) :
    (c.extract mpos v).length = c.k := by simp [extract]

@[simp] theorem length_decodeMessage (c : Code) (mpos : Vector (BitVec 5) 32) (table : List (Option TblEntry))
    (v : Bits) : (c.decodeMessage mpos table v).length = c.k := by simp [decodeMessage]

theorem bit_svec (c : Code) (v : Bits) (i : Nat) :
    Bits.bit (c.svec v) i = (decide (i < c.r) && bitSum c.n fun p => c.hBit i p && Bits.bit v p) := by
  rw [svec, Bits.bit_map_range]

theorem bit_enc (c : Code) (m : Bits) (p : Nat) :
    Bits.bit (c.enc m) p = (decide (p < c.n) && bitSum c.k fun i => Bits.bit m i && c.gBit i p) := by
  rw [enc, Bits.bit_map_range]

theorem bit_extract (c : Code) (mpos : Vector (BitVec 5) 32) (v : Bits) (j : Nat) :
    Bits.bit (c.extract mpos v) j = (decide (j < c.k) && Bits.bit v (mpos[j]?.getD 0).toNat) := by
  rw [extract, Bits.bit_map_range]

/-- R121: a syndrome is below 2^R. -/
theorem syn_lt (c : Code) (v : Bits) : c.syn v < 2 ^ c.r := by
  have := Bits.toNat_lt (c.svec v)
  rwa [length_svec] at this

theorem testBit_syn (c : Code) (v : Bits) (i : Nat) : (c.syn v).testBit i = Bits.bit (c.svec v) i :=
  Bits.testBit_toNat _ i

theorem svec_add (c : Code) {v w : Bits} (h : v.length = w.length) (i : Nat) :
    Bits.bit (c.svec (Bits.add v w)) i = xor (Bits.bit (c.svec v) i) (Bits.bit (c.svec w) i) := by
  simp only [bit_svec, Bits.bit_add h]
  by_cases hi : i < c.r
  · simp only [hi, decide_true, Bool.true_and]
    rw [← bitSum_xor]
    refine bitSum_congr fun p _ => ?_
    cases c.hBit i p <;> simp
  · simp [hi]

theorem rangeOk_iff (p : Params) (c : Code) : c.rangeOk p = true ↔ c.InRange p := by
  simp [rangeOk, InRange, r, and_assoc]

theorem orthoOk_iff (c : Code) : c.orthoOk = true ↔ c.Orthogonal := by
  simp [orthoOk, Orthogonal]

theorem isUnitColumn_iff (c : Code) (j p : Nat) : c.isUnitColumn j p = true ↔ c.UnitColumn j p := by
  simp [isUnitColumn, UnitColumn]

/-- R108: derive_mpos finds the lowest unit column of a message index, when there is one. -/
theorem messagePosition_eq_some_iff (c : Code) (j p : Nat) :
    c.messagePosition j = some p ↔ c.LowestUnitColumn j p := by
  rw [messagePosition, List.find?_range_eq_some]
  simp only [isUnitColumn_iff, List.mem_range, LowestUnitColumn, Bool.not_eq_eq_eq_not, Bool.not_true]
  constructor
  · rintro ⟨h1, h2, h3⟩
    exact ⟨h2, h1, fun q hq hu => by simpa [(isUnitColumn_iff c j q).2 hu] using h3 q hq⟩
  · rintro ⟨h1, h2, h3⟩
    exact ⟨h2, h1, fun q hq => by simpa using fun hu => h3 q hq ((isUnitColumn_iff c j q).1 hu)⟩

/-- R108: derive_mpos succeeds with the lowest unit columns. -/
theorem deriveMpos_eq_some_iff (c : Code) (l : List Nat) :
    c.deriveMpos = some l ↔ l.length = c.k ∧ ∀ j < c.k, c.LowestUnitColumn j (l.getD j 0) := by
  rw [deriveMpos, allSome_eq_some_iff]
  constructor
  · intro h
    have hl : l.length = c.k := by simpa using (congrArg List.length h).symm
    refine ⟨hl, fun j hj => ?_⟩
    have := congrArg (fun x => x[j]?) h
    simp only [List.getElem?_map, List.getElem?_range hj, Option.map_some] at this
    rw [List.getElem?_eq_getElem (hl ▸ hj)] at this
    rw [← messagePosition_eq_some_iff, List.getD_eq_getElem?_getD, List.getElem?_eq_getElem (hl ▸ hj)]
    simpa using this
  · rintro ⟨hl, h⟩
    refine List.ext_getElem (by simp [hl]) fun j h1 h2 => ?_
    have hj : j < c.k := by simpa using h1
    have := (messagePosition_eq_some_iff c j _).2 (h j hj)
    simp only [List.getElem_map, List.getElem_range]
    rw [this, List.getD_eq_getElem?_getD, List.getElem?_eq_getElem (hl ▸ hj)]
    rfl

theorem length_claim (c : Code) (table : List (Option TblEntry)) (e : Bits) :
    (c.claim table e).length = table.length := by
  unfold claim
  split <;> simp

theorem length_foldl_claim (c : Code) (es : List Bits) (table : List (Option TblEntry)) :
    (es.foldl c.claim table).length = table.length := by
  induction es generalizing table with
  | nil => rfl
  | cons e es ih => rw [List.foldl_cons, ih, length_claim]

@[simp] theorem length_buildTable (p : Params) (c : Code) : (c.buildTable p).length = 2 ^ p.rmax := by
  rw [buildTable, length_foldl_claim, List.length_replicate]

/-- R109: offering one pattern to the table claims the slot of its syndrome if it was free, and touches no other. -/
theorem getElem?_claim (c : Code) (table : List (Option TblEntry)) (e : Bits) (x : Nat) :
    (c.claim table e)[x]? =
      if c.syn e = x ∧ table[x]? = some none
      then some (some { pattern := e, weight := BitVec.ofNat 2 (Bits.weight e) })
      else table[x]? := by
  unfold claim
  split
  next h =>
    obtain ⟨hl, hn⟩ := List.getElem?_eq_some_iff.1 h
    rw [List.getElem?_set]
    by_cases hx : c.syn e = x
    · subst hx
      simp [hl, hn]
    · simp [hx]
  next en h =>
    by_cases hx : c.syn e = x
    · subst hx
      simp [h]
    · simp [hx]
  next h =>
    by_cases hx : c.syn e = x
    · subst hx
      simp [h]
    · simp [hx]

/-- R109: offering a list of patterns to the table, first-writer-wins: a free slot ends with the first pattern of its
syndrome, a claimed one is never overwritten. -/
theorem getElem?_foldl_claim (c : Code) (es : List Bits) (table : List (Option TblEntry)) (x : Nat) :
    (es.foldl c.claim table)[x]? =
      if table[x]? = some none
      then some ((es.find? fun e => c.syn e == x).map fun e =>
        { pattern := e, weight := BitVec.ofNat 2 (Bits.weight e) })
      else table[x]? := by
  induction es generalizing table with
  | nil =>
    split
    next h => simp [h]
    next => rfl
  | cons e es ih =>
    rw [List.foldl_cons, ih, getElem?_claim, List.find?_cons]
    by_cases hx : c.syn e = x
    · by_cases ht : table[x]? = some none
      · simp [hx, ht]
      · simp [hx, ht]
    · rw [beq_eq_false_iff_ne.2 hx]
      simp [hx]

/-- R121: the syndrome is linear. -/
theorem syn_add (c : Code) {v w : Bits} (h : v.length = w.length) :
    c.syn (Bits.add v w) = c.syn v ^^^ c.syn w := by
  refine Nat.eq_of_testBit_eq fun i => ?_
  rw [Nat.testBit_xor, testBit_syn, testBit_syn, testBit_syn, svec_add c h]

@[simp] theorem syn_zeros (c : Code) : c.syn (Bits.zeros c.n) = 0 := by
  refine Nat.eq_of_testBit_eq fun i => ?_
  rw [testBit_syn, bit_svec]
  simp

/-- R131: the syndrome of a single flip is the column of H there. -/
theorem syn_unit (c : Code) {p : Nat} (hp : p < c.n) : c.syn (Bits.unit c.n p) = c.hcol p := by
  refine Nat.eq_of_testBit_eq fun i => ?_
  rw [testBit_syn, bit_svec, hcol, Bits.testBit_toNat, Bits.bit_map_range]
  by_cases hi : i < c.r
  · simp only [hi, decide_true, Bool.true_and]
    rw [bitSum_eq_single c.n p _ fun q _ hne => by simp [Bits.bit_unit, hne]]
    simp [hp, Bits.bit_unit]
  · simp [hi]

/-- R109, R125: the built table holds the first pattern of each syndrome. -/
theorem getD_buildTable {p : Params} {c : Code} (hr : c.r ≤ p.rmax) (x : Nat) :
    (c.buildTable p).getD x none =
      (c.first x).map fun e => { pattern := e, weight := BitVec.ofNat 2 (Bits.weight e) } := by
  rw [List.getD_eq_getElem?_getD, buildTable, getElem?_foldl_claim]
  by_cases h : x < 2 ^ p.rmax
  · simp [h, first]
  · have hnone : c.first x = none := by
      simp only [first, List.find?_eq_none, beq_iff_eq]
      intro e _ he
      have := c.syn_lt e
      have := Nat.pow_le_pow_right (show 0 < 2 by omega) hr
      omega
    simp [h, hnone]

/-- R124: the patterns a built table or the search can give stand in the enumeration. -/
theorem resolve_mem_patterns {c : Code} {p : Params} {x : Nat} {e : Bits}
    (h : c.resolve (c.buildTable p) x = some e) : e ∈ c.patterns := by
  unfold resolve at h
  split at h
  next en hen =>
    cases h
    rw [List.getD_eq_getElem?_getD, buildTable, getElem?_foldl_claim] at hen
    by_cases hx : x < 2 ^ p.rmax
    · simp only [List.getElem?_replicate, hx, if_true, Option.getD_some, Option.map_eq_some_iff] at hen
      obtain ⟨f, hf, rfl⟩ := hen
      exact List.mem_of_find?_eq_some hf
    · simp [hx] at hen
  next =>
    have := List.mem_of_find?_eq_some h
    simp only [patterns, List.append_assoc, List.mem_append]
    exact .inr (by simpa using this)

theorem length_of_mem_patterns {c : Code} {e : Bits} (h : e ∈ c.patterns) : e.length = c.n := by
  simp only [patterns, patterns0, patterns1, patterns2, List.mem_append, List.mem_map, List.mem_flatMap,
    List.mem_singleton] at h
  rcases h with (rfl | ⟨p, _, rfl⟩) | ⟨p, _, q, _, rfl⟩ <;> simp

/-- R123: a pattern of the enumeration has at most two set bits. -/
theorem setBits_of_mem_patterns {c : Code} {e : Bits} (h : e ∈ c.patterns) :
    ((List.range c.n).filter (Bits.bit e)).length ≤ 2 := by
  have atMost {v : Bits} {p q : Nat} (hv : ∀ i, Bits.bit v i = true → i = p ∨ i = q) :
      ((List.range c.n).filter (Bits.bit v)).length ≤ 2 := by
    have hs : ((List.range c.n).filter (Bits.bit v)) ⊆ [p, q] := fun i hi => by
      simpa using hv i (List.mem_filter.1 hi).2
    exact ((List.nodup_range.filter _).subperm hs).length_le
  simp only [patterns, patterns0, patterns1, patterns2, List.mem_append, List.mem_map, List.mem_flatMap,
    List.mem_singleton] at h
  rcases h with (rfl | ⟨p, _, rfl⟩) | ⟨p, _, q, _, rfl⟩
  · exact atMost (p := 0) (q := 0) fun i hi => by simp at hi
  · exact atMost (p := p) (q := p) fun i hi => by simp_all [Bits.bit_unit]
  · exact atMost (p := p) (q := q) fun i hi => by
      rw [Bits.bit_add (by simp), Bits.bit_unit, Bits.bit_unit] at hi
      by_cases hp : i = p <;> by_cases hq : i = q <;> simp [hp, hq, beq_eq_false_iff_ne.2] at hi ⊢

end Code

end Sys2Proof.Machine
end

