-- ==== Sys2Proof/Laws/Memory.lean ====
section
/-! SUPPORT. Every operation on the buffers keeps their form `Memory.wf` (R39, R40, R41), and the reset state has it. -/

namespace Sys2Proof.Machine

theorem Memory.wf_iff (p : Params) (m : Memory) :
    m.wf p = true ↔ m.ibuf.length = p.kmaxBits ∧ m.obuf.length = p.kmaxBits ∧ m.locbuf.length = p.kmaxBits := by
  simp [Memory.wf, and_assoc]

namespace State

theorem reset_wf : State.reset.mem.wf State.reset.params = true := by
  rw [Memory.wf_iff]
  exact ⟨length_freeBits _ _ _, length_freeBits _ _ _, length_freeWords _ _ _⟩

theorem resetCore_wf (s : State) : s.resetCore.mem.wf s.params = true := by
  rw [Memory.wf_iff]
  exact ⟨length_freeBits _ _ _, length_freeBits _ _ _, length_freeWords _ _ _⟩

theorem writeObuf_wf {s : State} {out : Bits} (h : s.mem.wf s.params = true) (ho : out.length ≤ s.params.kmaxBits) :
    (s.writeObuf out).mem.wf s.params = true := by
  rw [Memory.wf_iff] at h ⊢
  refine ⟨h.1, ?_, h.2.2⟩
  simp only [writeObuf, List.length_append, length_freeBits]
  omega

theorem writeLocbuf_wf {s : State} {positions : List Nat} (h : s.mem.wf s.params = true)
    (hp : positions.length ≤ s.params.kmaxBits) : (s.writeLocbuf positions).mem.wf s.params = true := by
  rw [Memory.wf_iff] at h ⊢
  refine ⟨h.1, h.2.1, ?_⟩
  simp only [writeLocbuf, List.length_append, List.length_map, length_freeWords]
  omega

theorem transfer_wf {s : State} (h : s.mem.wf s.params = true) : s.transfer.mem.wf s.params = true := by
  rw [Memory.wf_iff] at h ⊢
  refine ⟨?_, h.2⟩
  rw [transfer, Bits.length_overlay _, h.1]
  rw [Bits.length_slice, h.1, h.2.1]
  omega

/-- A host write to an IBUF word that exists keeps the form. -/
theorem writeIbuf_wf {s : State} (hk : s.params.kmaxBits % 32 = 0) (h : s.mem.wf s.params = true) {w : Nat}
    (hw : w < s.params.kmaxBits / 32) (v : Word) :
    ({ s.mem with ibuf := Bits.setWordAt s.mem.ibuf w v } : Memory).wf s.params = true := by
  rw [Memory.wf_iff] at h ⊢
  refine ⟨?_, h.2⟩
  rw [Bits.length_setWordAt _ _ _ (by rw [h.1]; omega), h.1]

/-- R33: the bits below OLEN are the output. -/
theorem bit_writeObuf (s : State) {out : Bits} {i : Nat} (h : i < out.length) :
    Bits.bit (s.writeObuf out).mem.obuf i = Bits.bit out i := by
  simp [writeObuf, Bits.bit_append, h]

/-- R33: OLEN is the length of the output. -/
theorem olen_writeObuf (s : State) {out : Bits} (h : out.length < 2 ^ 32) :
    (s.writeObuf out).olen.toNat = out.length := by
  simp only [writeObuf, BitVec.toNat_ofNat]
  omega

end State

end Sys2Proof.Machine
end

