-- ==== Sys2Proof/Laws/Codec.lean ====
section
/-! SUPPORT. Segmentation and padding (R150), the lengths of what the key commands and the locator write, and the
lengths of the amplifier's outputs (R176–R179). -/

namespace Sys2Proof.Machine

/-- R150: the padded length is a multiple of `b` and at least `l`. -/
theorem le_nblocks_mul (l : Nat) {b : Nat} (hb : 0 < b) : l ≤ nblocks l b * b := by
  have h := Nat.div_add_mod (l + b - 1) b
  have h' := Nat.mod_lt (l + b - 1) hb
  rw [nblocks, Nat.mul_comm]
  omega

@[simp] theorem nblocks_zero (b : Nat) : nblocks 0 b = 0 := by
  cases b with
  | zero => rfl
  | succ b => simp [nblocks]

theorem nblocks_mul (n : Nat) {b : Nat} (hb : 0 < b) : nblocks (n * b) b = n := by
  rw [nblocks, show n * b + b - 1 = (b - 1) + n * b by omega, Nat.add_mul_div_right _ _ hb,
    Nat.div_eq_of_lt (by omega), Nat.zero_add]

theorem nblocks_le (l : Nat) {b : Nat} (hb : 0 < b) : nblocks l b ≤ l := by
  rw [nblocks, Nat.div_le_iff_le_mul hb]
  cases l with
  | zero => omega
  | succ l =>
    have := Nat.mul_le_mul_right l hb
    rw [Nat.add_mul]
    rw [Nat.mul_comm b l] at this
    omega

/-- The number of bits of a block list is the number of blocks times the block length. -/
theorem length_flatMap_const {α : Type} (l : List α) (f : α → Bits) (n : Nat) (h : ∀ x ∈ l, (f x).length = n) :
    (l.flatMap f).length = l.length * n := by
  induction l with
  | nil => simp
  | cons a l ih =>
    rw [List.flatMap_cons, List.length_append, h a (by simp), ih fun x hx => h x (by simp [hx]), List.length_cons,
      Nat.add_mul]
    omega

/-- Bit `p` of the block that element `b` of a list gives stands at `b * n + p`. -/
theorem bit_flatMap_const {α : Type} (l : List α) (f : α → Bits) (n : Nat) (h : ∀ x ∈ l, (f x).length = n) {b : Nat}
    (hb : b < l.length) {p : Nat} (hp : p < n) : Bits.bit (l.flatMap f) (b * n + p) = Bits.bit (f l[b]) p := by
  induction l generalizing b with
  | nil => simp at hb
  | cons a l ih =>
    rw [List.flatMap_cons, Bits.bit_append, h a (by simp)]
    cases b with
    | zero => simp [hp]
    | succ b =>
      have hne : ¬ (b + 1) * n + p < n := by rw [Nat.add_mul]; omega
      rw [if_neg hne, show (b + 1) * n + p - n = b * n + p by rw [Nat.add_mul]; omega,
        ih (fun x hx => h x (by simp [hx])) (by simpa using hb)]
      rfl

theorem length_padded (v : Bits) {b : Nat} (hb : 0 < b) : (padded v b).length = nblocks v.length b * b := by
  have := le_nblocks_mul v.length hb
  simp only [padded, List.length_append, Bits.length_zeros]
  omega

/-- R150: the pad is zeros. -/
theorem bit_padded (v : Bits) (b i : Nat) : Bits.bit (padded v b) i = Bits.bit v i := by
  rw [padded, Bits.bit_append]
  split
  · rfl
  · rw [Bits.bit_zeros, Bits.bit_of_length_le (by omega)]

@[simp] theorem length_blocks (v : Bits) (b : Nat) : (blocks v b).length = nblocks v.length b := by simp [blocks]

theorem length_blockAt (v : Bits) {b t : Nat} (hb : 0 < b) (ht : t < nblocks v.length b) :
    (blockAt v b t).length = b := by
  have h : t * b + b ≤ nblocks v.length b * b := by
    rw [← Nat.succ_mul]
    exact Nat.mul_le_mul_right b ht
  rw [blockAt, Bits.length_slice, length_padded v hb]
  omega

theorem bit_blockAt (v : Bits) (b t p : Nat) :
    Bits.bit (blockAt v b t) p = (decide (p < b) && Bits.bit v (t * b + p)) := by
  rw [blockAt, Bits.bit_slice, bit_padded]

theorem mem_blocks {v x : Bits} {b : Nat} : x ∈ blocks v b ↔ ∃ t < nblocks v.length b, blockAt v b t = x := by
  simp [blocks]

namespace State

/-- R31: the input is IBUF below ILEN. -/
theorem bit_input (s : State) (i : Nat) :
    Bits.bit s.input i = (decide (i < s.ilen.toNat) && Bits.bit s.mem.ibuf i) := by
  rw [input, Bits.bit_slice, Nat.zero_add]

theorem length_input {s : State} (hw : s.mem.wf s.params = true) (hk : s.ilen.toNat ≤ s.params.kmaxBits) :
    s.input.length = s.ilen.toNat := by
  have := ((Memory.wf_iff _ _).1 hw).1
  rw [input, Bits.length_slice]
  omega

/-- R150: the blocks of the input, bit by bit. -/
theorem blocks_input {s : State} (hw : s.mem.wf s.params = true) (hk : s.ilen.toNat ≤ s.params.kmaxBits) {b : Nat}
    (hb : 0 < b) : blocks s.input b = (List.range (s.blockCount b)).map (s.inputBlock b) := by
  have hl := length_input hw hk
  rw [blocks, hl]
  refine List.map_congr_left fun t ht => Bits.ext_bit ?_ fun i _ => ?_
  · rw [length_blockAt _ hb (by rw [hl]; simpa using ht), inputBlock, List.length_map, List.length_range]
  · rw [bit_blockAt, inputBlock, Bits.bit_map_range, inputBit, bit_input]

end State

namespace Code

@[simp] theorem length_encodeKey (c : Code) (key : Bits) :
    (c.encodeKey key).length = nblocks key.length c.k * c.n := by
  rw [encodeKey, length_flatMap_const _ _ c.n fun x _ => c.length_enc x, length_blocks]

@[simp] theorem length_decodeKey (c : Code) (mpos : Vector (BitVec 5) 32) (table : List (Option TblEntry))
    (received : Bits) : (c.decodeKey mpos table received).length = nblocks received.length c.n * c.k := by
  rw [decodeKey, length_flatMap_const _ _ c.k fun x _ => c.length_decodeMessage mpos table x, length_blocks]

@[simp] theorem length_locateResults (c : Code) (table : List (Option TblEntry)) (received : Bits) :
    (c.locateResults table received).length = nblocks received.length c.n := by simp [locateResults]

/-- R165: a set bit of block `b`'s pattern gives the global position `b·N + p`. -/
theorem mem_globalPositions (c : Code) (t : Nat) (results : List BlockResult) (g : Nat) :
    g ∈ c.globalPositions t results ↔
      ∃ b, ∃ h : b < results.length, ∃ p < c.n, Bits.bit results[b].pattern p = true ∧ g = (t + b) * c.n + p := by
  induction results generalizing t with
  | nil => simp [globalPositions]
  | cons r rest ih =>
    simp only [globalPositions, List.mem_append, ih, blockPositions, List.mem_map, List.mem_filter, List.mem_range]
    constructor
    · rintro (⟨p, ⟨hp, hb⟩, rfl⟩ | ⟨b, hb, p, hp, h1, rfl⟩)
      · exact ⟨0, by simp, p, hp, hb, by simp⟩
      · refine ⟨b + 1, by simpa using hb, p, hp, h1, ?_⟩
        rw [show t + 1 + b = t + (b + 1) by omega]
    · rintro ⟨b, hb, p, hp, h1, rfl⟩
      cases b with
      | zero => exact .inl ⟨p, ⟨hp, h1⟩, by simp⟩
      | succ b =>
        refine .inr ⟨b, by simpa using hb, p, hp, h1, ?_⟩
        rw [show t + 1 + b = t + (b + 1) by omega]

/-- R166 law 1: the positions are strictly ascending. -/
theorem globalPositions_sorted (c : Code) (t : Nat) (results : List BlockResult) :
    (c.globalPositions t results).Pairwise (· < ·) := by
  induction results generalizing t with
  | nil => simp [globalPositions]
  | cons r rest ih =>
    rw [globalPositions, List.pairwise_append]
    refine ⟨?_, ih (t + 1), fun a ha b hb => ?_⟩
    · rw [blockPositions, List.pairwise_map]
      exact (List.Pairwise.filter _ List.pairwise_lt_range).imp fun h => by omega
    · simp only [blockPositions, List.mem_map, List.mem_filter, List.mem_range] at ha
      obtain ⟨p, ⟨hp, -⟩, rfl⟩ := ha
      obtain ⟨d, _, q, _, _, rfl⟩ := (mem_globalPositions c _ _ _).1 hb
      have : (t + 1) * c.n ≤ (t + 1 + d) * c.n := Nat.mul_le_mul_right _ (by omega)
      rw [Nat.add_mul] at this
      omega

/-- A strictly ascending list of numbers below `m` has at most `m` of them. -/
theorem length_le_of_sorted {l : List Nat} {m : Nat} (h : l.Pairwise (· < ·)) (hm : ∀ x ∈ l, x < m) : l.length ≤ m := by
  have hn : l.Nodup := h.imp fun h => Nat.ne_of_lt h
  have hs : l ⊆ List.range m := fun x hx => List.mem_range.2 (hm x hx)
  simpa using (hn.subperm hs).length_le

/-- A block with at most two set bits gives at most two positions. -/
theorem length_globalPositions_le (c : Code) (t : Nat) (results : List BlockResult)
    (h : ∀ r ∈ results, ((List.range c.n).filter (Bits.bit r.pattern)).length ≤ 2) :
    (c.globalPositions t results).length ≤ 2 * results.length := by
  induction results generalizing t with
  | nil => simp [globalPositions]
  | cons r rest ih =>
    have h1 := h r (by simp)
    have h2 := ih (t + 1) fun x hx => h x (by simp [hx])
    simp only [globalPositions, List.length_append, blockPositions, List.length_map, List.length_cons]
    omega

end Code

namespace Amplifier

theorem length_windows : ∀ k : Bits, (windows k).length = 2 * (k.length / 3)
  | x :: y :: z :: rest => by
    rw [windows, List.length_cons, List.length_cons, length_windows rest]
    simp only [List.length_cons]
    omega
  | [_, _] => by simp [windows]
  | [_] => by simp [windows]
  | [] => by simp [windows]

@[simp] theorem length_chain (r : Bool) (c : Bits) : (chain r c).length = c.length + 1 := by
  induction c generalizing r with
  | nil => rfl
  | cons b c ih => simp [chain, ih]

/-- R177, R179: the chain starts at its seed, and each bit is the one before xored with the stored bit. -/
theorem bit_chain_zero (r : Bool) (c : Bits) : Bits.bit (chain r c) 0 = r := by
  cases c <;> rfl

theorem bit_chain_succ (r : Bool) (c : Bits) {i : Nat} (h : i < c.length) :
    Bits.bit (chain r c) (i + 1) = xor (Bits.bit (chain r c) i) (Bits.bit c i) := by
  induction c generalizing r i with
  | nil => simp at h
  | cons b c ih =>
    rw [chain, Bits.bit_cons_succ]
    cases i with
    | zero => rw [bit_chain_zero, Bits.bit_cons_zero, Bits.bit_cons_zero]
    | succ i => rw [ih _ (by simpa using h), Bits.bit_cons_succ, Bits.bit_cons_succ]

/-- R176, R178: an output of compression is no longer than the input. -/
theorem length_compress (k : Bits) : (compress3 k).1.length ≤ k.length ∧ (compressA k).1.length ≤ k.length := by
  unfold compress3 compressA
  constructor
  · split
    · exact Nat.le_refl _
    · simp only [length_windows]
      omega
  · split
    · exact Nat.le_refl _
    · simp

theorem length_recover3 (c : Bits) (seed : Bool) : (recover3 c seed).1.length = 2 * (c.length / 2) := by
  unfold recover3
  simp only
  split
  next h => simp [h]
  next h =>
    simp only [length_chain, List.length_drop, List.length_take]
    omega

end Amplifier

end Sys2Proof.Machine
end

