-- ==== Sys2Proof/Laws/Decode.lean ====
section
/-! SUPPORT. The fields of a command word and the word of given fields are inverse (R80); what an accepted word's fields
satisfy (R83). -/

namespace Sys2Proof

theorem getLsbD_eq_decide (w : Word) (i : Nat) : w.getLsbD i = decide (w.toNat / 2 ^ i % 2 = 1) := by
  rw [← BitVec.testBit_toNat, Nat.testBit_eq_decide_div_mod_eq]

namespace CmdFields

theorem toWord_ofWord (w : Word) : (ofWord w).toWord = w := by
  have bit (p : Prop) [Decidable p] : (decide p).toNat = if p then 1 else 0 := by by_cases h : p <;> simp [h]
  apply BitVec.eq_of_toNat_eq
  have := w.isLt
  simp only [ofWord, toWord, BitVec.toNat_ofNat, BitVec.extractLsb'_toNat, getLsbD_eq_decide, bit,
    Nat.shiftRight_eq_div_pow]
  split <;> split <;> omega

theorem ofWord_toWord (f : CmdFields) : ofWord f.toWord = f := by
  obtain ⟨o, a, b, r⟩ := f
  have h1 := o.isLt
  have h2 := r.isLt
  simp only [ofWord, toWord, CmdFields.mk.injEq]
  refine ⟨?_, ?_, ?_, ?_⟩
  · apply BitVec.eq_of_toNat_eq
    simp only [BitVec.extractLsb'_toNat, BitVec.toNat_ofNat, Nat.shiftRight_eq_div_pow]
    cases a <;> cases b <;> simp <;> omega
  · rw [getLsbD_eq_decide, BitVec.toNat_ofNat]
    cases a <;> cases b <;> simp <;> omega
  · rw [getLsbD_eq_decide, BitVec.toNat_ofNat]
    cases a <;> cases b <;> simp <;> omega
  · apply BitVec.eq_of_toNat_eq
    simp only [BitVec.extractLsb'_toNat, BitVec.toNat_ofNat, Nat.shiftRight_eq_div_pow]
    cases a <;> cases b <;> simp <;> omega

end CmdFields

/-- The fields of a word that decodes name its command and meet the four conditions of R83. -/
theorem decode_ok_fields {w : Word} {i : Instr} (h : decode w = .ok i) :
    commandOf (CmdFields.ofWord w).opc (CmdFields.ofWord w).orig (CmdFields.ofWord w).seed = some i ∧
      (CmdFields.ofWord w).reservedZero = true ∧ (CmdFields.ofWord w).origAllowed = true ∧
      (CmdFields.ofWord w).seedAllowed = true := by
  unfold decode at h
  simp only at h
  split at h
  · cases h
  · split at h
    · cases h
    · split at h
      · cases h
      · split at h
        · cases h
        · cases h
          simp_all

end Sys2Proof
end

