-- ==== Sys2Proof/Laws/PerInstr.lean ====
section
/-! SUPPORT. What is said of every command as syntax, one lemma per constructor of Instr. -/

namespace Sys2Proof.Laws.EncodesLegally

/-- R83: the word of a command has legal fields, with its opcode in W[7:0] and its operands in W[8] and W[9]. -/
def Statement (i : Instr) : Prop :=
  (CmdFields.ofWord (encode i)).legal = true ∧ CmdFields.ofWord (encode i) = i.fields

theorem nop : Statement .nop := ⟨by decide, by decide⟩

theorem cfgBuild : Statement .cfgBuild := ⟨by decide, by decide⟩

theorem cfgUnlock : Statement .cfgUnlock := ⟨by decide, by decide⟩

theorem xfer : Statement .xfer := ⟨by decide, by decide⟩

theorem encBlk : Statement .encBlk := ⟨by decide, by decide⟩

theorem synBlk : Statement .synBlk := ⟨by decide, by decide⟩

theorem decBlk : Statement .decBlk := ⟨by decide, by decide⟩

theorem encKey : Statement .encKey := ⟨by decide, by decide⟩

theorem decKey (orig : Bool) : Statement (.decKey orig) := by
  cases orig <;> exact ⟨by decide, by decide⟩

theorem locate (orig : Bool) : Statement (.locate orig) := by
  cases orig <;> exact ⟨by decide, by decide⟩

theorem paCompress : Statement .paCompress := ⟨by decide, by decide⟩

theorem paRecover (seed : Bool) : Statement (.paRecover seed) := by
  cases seed <;> exact ⟨by decide, by decide⟩

end Sys2Proof.Laws.EncodesLegally
end

