-- ==== Sys2Proof/Tests/Slice0.lean ====
section
/-! SUPPORT. The model's own tests, every expected value from spec/95_test_vectors.md or by hand from the rules named,
and the witnesses of the obligations' hypotheses. -/

namespace Sys2Proof.Tests

open Sys2Proof Sys2Proof.Machine

/-! ## Fields and words -/

/-- R83: each condition of legality is checked: an undefined opcode, a reserved bit, ORIG and SEED where not allowed. -/
theorem test_wf_undefined_opcode : CmdFields.legal { opc := 0x04, orig := false, seed := false, rsvd := 0 } = false := by
  decide

theorem test_wf_reserved_bit : CmdFields.legal { opc := 0x00, orig := false, seed := false, rsvd := 1 } = false := by
  decide

theorem test_wf_orig : CmdFields.legal { opc := 0x10, orig := true, seed := false, rsvd := 0 } = false := by
  decide

theorem test_wf_seed : CmdFields.legal { opc := 0x21, orig := false, seed := true, rsvd := 0 } = false := by
  decide

theorem test_wf_legal : CmdFields.legal { opc := 0x31, orig := false, seed := true, rsvd := 0 } = true := by
  decide

/-- R82: the words written out bit by bit from R80: reserved [31:10], SEED [9], ORIG [8], OPC [7:0]. -/
theorem test_decode_nop : decode 0b0000000000000000000000_0_0_00000000 = .ok .nop := by decide

theorem test_decode_cfgBuild : decode 0b0000000000000000000000_0_0_00000001 = .ok .cfgBuild := by decide

theorem test_decode_cfgUnlock : decode 0b0000000000000000000000_0_0_00000010 = .ok .cfgUnlock := by decide

theorem test_decode_xfer : decode 0b0000000000000000000000_0_0_00000011 = .ok .xfer := by decide

theorem test_decode_encBlk : decode 0b0000000000000000000000_0_0_00010000 = .ok .encBlk := by decide

theorem test_decode_synBlk : decode 0b0000000000000000000000_0_0_00010001 = .ok .synBlk := by decide

theorem test_decode_decBlk : decode 0b0000000000000000000000_0_0_00010010 = .ok .decBlk := by decide

theorem test_decode_encKey : decode 0b0000000000000000000000_0_0_00100000 = .ok .encKey := by decide

theorem test_decode_decKey :
    decode 0b0000000000000000000000_0_0_00100001 = .ok (.decKey false) ∧
      decode 0b0000000000000000000000_0_1_00100001 = .ok (.decKey true) := by decide

theorem test_decode_locate :
    decode 0b0000000000000000000000_0_0_00101000 = .ok (.locate false) ∧
      decode 0b0000000000000000000000_0_1_00101000 = .ok (.locate true) := by decide

theorem test_decode_paCompress : decode 0b0000000000000000000000_0_0_00110000 = .ok .paCompress := by decide

theorem test_decode_paRecover :
    decode 0b0000000000000000000000_0_0_00110001 = .ok (.paRecover false) ∧
      decode 0b0000000000000000000000_1_0_00110001 = .ok (.paRecover true) := by decide

/-- 95 section 2.2: the illegal words. -/
theorem test_decode_illegal :
    decode 0x00000100 = .error .origNotAllowed ∧ decode 0x00000110 = .error .origNotAllowed ∧
      decode 0x00000221 = .error .seedNotAllowed ∧ decode 0x00000331 = .error .origNotAllowed ∧
      decode 0x00000400 = .error .reservedBits ∧ decode 0x80000012 = .error .reservedBits ∧
      decode 0x00000004 = .error .undefinedOpcode ∧ decode 0x00000013 = .error .undefinedOpcode ∧
      decode 0x000000FF = .error .undefinedOpcode := by decide

/-- R63, R84: bytes are decoded little-endian, and only four of them. -/
theorem test_decode_bytes :
    decodeBytes [0x21, 0x01, 0x00, 0x00] = .ok (.decKey true) ∧ decodeBytes [0x21, 0x01] = .error .notOneWord := by
  decide

/-- R85. -/
theorem test_assemble : assemble "dec.key orig" = some (.decKey true) ∧ assemble "pa.rec 1" = some (.paRecover true) := by
  decide

/-! ## Small states -/

/-- A core with small parameters, whose configuration registers hold `c`, idle and unlocked, with the 32 bits of `w` in
IBUF and `len` in ILEN. -/
def loaded (rmax : Nat) (c : CodeConfig) (pa : Bool) (w : Word) (len : Nat) : State :=
  { State.reset with
    params := { nmax := 8, rmax := rmax, kmaxBits := 32 }
    cfg := { n := BitVec.ofNat 6 c.n, k := BitVec.ofNat 6 c.k, pa := pa }
    gRow := Vector.ofFn fun i => c.gRows.getD i.val 0
    hRow := Vector.ofFn fun i => c.hRows.getD i.val 0
    table := List.replicate (2 ^ rmax) none
    ilen := BitVec.ofNat 32 len
    mem := { ibuf := Bits.ofWord w, obuf := List.replicate 32 false, locbuf := List.replicate 32 0 } }

/-- A table written as syndromes, patterns and weights. -/
def tableOf (rmax : Nat) (entries : List (Nat × Word × BitVec 2)) : List (Option TblEntry) :=
  (List.range (2 ^ rmax)).map fun x =>
    (entries.find? fun e => e.1 == x).map fun e => { pattern := (Bits.ofWord e.2.1).take 7, weight := e.2.2 }

/-- 95 section 2.1: the table of HAM74. -/
def ham74Table : List (Option TblEntry) :=
  tableOf 3 [(0, 0x00, 0), (1, 0x10, 1), (2, 0x20, 1), (3, 0x01, 1), (4, 0x40, 1), (5, 0x02, 1), (6, 0x04, 1),
    (7, 0x08, 1)]

/-- 95 section 2.1: the table of REP7. -/
def rep7Table : List (Option TblEntry) :=
  tableOf 6 ([(0, 0x00, 0), (1, 0x02, 1), (2, 0x04, 1), (3, 0x06, 2), (4, 0x08, 1), (5, 0x0A, 2), (6, 0x0C, 2),
    (8, 0x10, 1), (9, 0x12, 2), (10, 0x14, 2), (12, 0x18, 2), (16, 0x20, 1), (17, 0x22, 2), (18, 0x24, 2)] ++
    [(20, 0x28, 2), (24, 0x30, 2), (31, 0x41, 2), (32, 0x40, 1), (33, 0x42, 2), (34, 0x44, 2), (36, 0x48, 2),
    (40, 0x50, 2), (47, 0x21, 2), (48, 0x60, 2), (55, 0x11, 2), (59, 0x09, 2), (61, 0x05, 2), (62, 0x03, 2),
    (63, 0x01, 1)])

/-- HAM74 locked. -/
def ham74 (pa : Bool) (w : Word) (len : Nat) : State :=
  { loaded 3 Config.ham74 pa w len with
    table := ham74Table
    mpos := Vector.ofFn fun j => if j.val < 4 then BitVec.ofNat 5 j.val else 0
    status.locked := true }

/-- REP7 locked. -/
def rep7 (w : Word) (len : Nat) : State :=
  { loaded 6 Config.rep7 false w len with
    table := rep7Table
    status.locked := true }

/-- A command given to a state and run. -/
def ran (w : Word) (s : State) (check : State → Bool) : Bool :=
  match coreStep (s.accept w) with
  | .next t => check t
  | .fault _ => false
  | .refused _ => false

/-- The output of a state as a number. -/
def output (t : State) : Nat := Bits.toNat (t.mem.obuf.take t.olen.toNat)

/-- The located positions of a state. -/
def located (t : State) : List Word := t.mem.locbuf.take t.loccnt.toNat

/-! ## One command each -/

/-- R104, 95 section 2.2. -/
theorem test_nop : ran 0x00 (ham74 false 0 0) (fun t => t.statusWord == 0x82 && t.errWord == 0 && t.pend == 0) = true := by
  decide

/-- 95 section 2.1: the build of HAM74. -/
theorem test_cfgBuild_ham74 :
    ran 0x01 (loaded 3 Config.ham74 false 0 0) (fun t => t.statusWord == 0x82 && t.errWord == 0 &&
      t.mposWord 3 == 3 && t.mposWord 4 == 0 && t.table == ham74Table) = true := by
  decide

/-- 95 section 2.1: the build of REP7, 29 entries. -/
theorem test_cfgBuild_rep7 :
    ran 0x01 (loaded 6 Config.rep7 false 0 0) (fun t => t.table == rep7Table && t.table.countP Option.isSome == 29) =
      true := by
  decide

/-- 95 section 2.1: CFG_ORTHO with H_ROW[0] = 0x1A, and CFG_MPOS with G = 7, 3 and H = 3. -/
theorem test_cfgBuild_errors :
    ran 0x01 (loaded 3 { Config.ham74 with hRows := [0x1A, 0x2D, 0x4E] } false 0 0)
      (fun t => t.errWord == 0x105 && t.statusWord == 0x06) = true ∧
    ran 0x01 (loaded 3 { n := 3, k := 2, gRows := [0x7, 0x3], hRows := [0x3] } false 0 0)
      (fun t => t.errWord == 0x106) = true ∧
    ran 0x01 (ham74 false 0 0) (fun t => t.errWord == 0x103 && t.statusWord == 0x86) = true := by
  decide

/-- 95 section 2.2. -/
theorem test_cfgUnlock :
    ran 0x02 (ham74 false 0 0) (fun t => t.statusWord == 0x02 && t.mposWord 1 == 0 && t.cfgWord == 0x407) = true := by
  decide

/-- R112: bits at or above OLEN keep their values. -/
theorem test_xfer :
    ran 0x03 { ham74 false 0xFFFF0000 0 with olen := 14, mem.obuf := Bits.ofWord 0x18AD }
      (fun t => t.ilen == 14 && Bits.wordAt t.mem.ibuf 0 == 0xFFFF18AD) = true := by
  decide

/-- 95 section 2.3a, and 2.3f for the length error. -/
theorem test_encBlk :
    ran 0x10 (ham74 false 0xD 4) (fun t => t.olen == 7 && output t == 0x2D && t.statusWord == 0x82) = true ∧
    ran 0x10 (ham74 false 0x5 3) (fun t => t.errWord == 0x1007 && t.olen == 0) = true := by
  decide

/-- 95 section 2.3e. -/
theorem test_synBlk :
    ran 0x11 (ham74 false 0x3D 7) (fun t => t.olen == 3 && output t == 1 && t.synd == 1) = true := by
  decide

/-- 95 section 2.3c: the mis-correction of 0x2E; 2.3d: the uncorrectable 0x70. -/
theorem test_decBlk :
    ran 0x12 (ham74 false 0x2E 7) (fun t => t.synd == 6 && t.epat == 0x04 && output t == 0xA && t.ncorr == 1) = true ∧
    ran 0x12 (rep7 0x70 7) (fun t => t.synd == 56 && t.epat == 0 && t.nuncorr == 1 && t.statusWord == 0x8A) = true := by
  decide

/-- 95 section 2.4. -/
theorem test_encKey :
    ran 0x20 (ham74 false 0x1CB 9) (fun t => t.olen == 21 && output t == 0xC4E1B) = true := by
  decide

/-- 95 section 2.4: trimmed, and truncated input without ORIG. -/
theorem test_decKey :
    ran 0x121 { ham74 false 0x1ABD 14 with origLen := 5 } (fun t => t.olen == 5 && output t == 0x1D && t.nblk == 2 &&
      t.ncorr == 2 && t.synd == 6 && t.epat == 0x04) = true ∧
    ran 0x021 (ham74 false 0xAD 10) (fun t => t.olen == 8 && output t == 0x0D && t.ncorr == 1 && t.synd == 3) = true := by
  decide

/-- 95 section 2.5: clipped by ORIGLEN, and a position in the pad. -/
theorem test_locate :
    ran 0x128 { ham74 false 0x1ABD 14 with origLen := 5 } (fun t => located t == [4] && t.ncorr == 2) = true ∧
    ran 0x028 (ham74 false 0xAD 10) (fun t => located t == [7] && t.olen == 0) = true := by
  decide

/-- 95 section 2.6: both schemes. -/
theorem test_paCompress :
    ran 0x30 (ham74 false 0x9D 8) (fun t => t.olen == 4 && output t == 0xB && t.statusWord == 0x82) = true ∧
    ran 0x30 (ham74 true 0xB8 8) (fun t => t.olen == 7 && output t == 0x64) = true := by
  decide

/-- 95 section 2.6: the odd last bit, and the adjacent scheme on no input. -/
theorem test_paRecover :
    ran 0x231 (ham74 false 0x3 3) (fun t => t.olen == 2 && output t == 0x1) = true ∧
    ran 0x231 (ham74 true 0 0) (fun t => t.olen == 1 && output t == 1 && t.statusWord == 0x82) = true := by
  decide

/-- 95 section 2.2: an illegal word; R192: it comes before NOT_CONFIGURED. -/
theorem test_illegal : ran 0x110 (loaded 3 Config.ham74 false 0 0) (fun t => t.errWord == 0x1001) = true := by decide

/-- 95 section 2.1: the table window. -/
theorem test_table_window :
    ({ ham74 false 0 0 with tblIdx := 5 } : State).windowWord 0x044 = 0x2 ∧
      ({ ham74 false 0 0 with tblIdx := 5 } : State).windowWord 0x048 = 0x3 ∧
      ({ ham74 false 0 0 with tblIdx := 8 } : State).windowWord 0x048 = 0 ∧
      ({ rep7 0 0 with tblIdx := 62 } : State).windowWord 0x048 = 0x5 := by
  decide

/-- R22. -/
theorem test_param : State.reset.windowWord 0x004 = 0x00800820 := by decide

/-- 95 section 2.2: writes while locked and while busy. -/
theorem test_ignored_writes :
    ((ham74 false 0 0).hostWrite 0x018 0x407).statusWord = 0xC0 ∧
      (((ham74 false 0 0).accept 0).hostWrite 0x01C 9).ilen = 0 ∧
      (((ham74 false 0 0).accept 0).hostWrite 0x014 0).status.ovr = true := by
  decide

/-- The word given by `withFetchWord` runs as the first command after reset: ENC_BLK, not configured (R192). -/
theorem test_fetch :
    (match step (State.reset.withFetchWord 32 0x10) with
      | .next t => t.errWord == 0x1002 && t.statusWord == 0x06 && t.ie == false
      | .fault _ => false
      | .refused _ => false) = true := by
  decide

/-! ## Witnesses: for each obligation with hypotheses, states and operands that meet them -/

/-- The code of HAM74 as the registers of `ham74` hold it. -/
def ham74Code : Code := (ham74 false 0 0).code

theorem ham74_code (pa : Bool) (w : Word) (len : Nat) : (ham74 pa w len).code = ham74Code := rfl

theorem ham74_positions : ∀ j < 4, ham74Code.LowestUnitColumn j j := by
  intro j hj
  rw [← Code.messagePosition_eq_some_iff]
  revert j
  decide

theorem small_rows (rows : Vector Word 32) (rn : Nat) (h : ∀ i : Fin 32, ∀ p : Fin 32,
    (rows[i.val]?.getD 0).getLsbD p.val = true → i.val < rn ∧ p.val < 8) :
    ∀ i p, rowBit rows i p = true → i < rn ∧ p < 8 := by
  intro i p hb
  unfold rowBit at hb
  by_cases hi : i < 32
  · by_cases hp : p < 32
    · exact h ⟨i, hi⟩ ⟨p, hp⟩ hb
    · rw [BitVec.getLsbD_of_ge _ _ (by omega)] at hb
      cases hb
  · rw [Vector.getElem?_eq_none (by omega)] at hb
    simp at hb

theorem ham74_built (pa : Bool) (w : Word) (len : Nat) : (ham74 pa w len).BuiltConfig where
  inRange := (Code.rangeOk_iff _ _).1 (show ham74Code.rangeOk { nmax := 8, rmax := 3, kmaxBits := 32 } = true by decide)
  orthogonal := (Code.orthoOk_iff _).1 (show ham74Code.orthoOk = true by decide)
  positions j hj := by
    rw [ham74_code]
    have h : ((ham74 pa w len).mpos[j]?.getD 0).toNat = j := by
      revert j
      show ∀ j < 4, ((Vector.ofFn (n := 32) fun j => if j.val < 4 then BitVec.ofNat 5 j.val else 0)[j]?.getD 0).toNat = j
      decide
    rw [h]
    exact ham74_positions j hj
  beyond j hj := by
    by_cases h : j < 32
    · have h4 : ¬ j < 4 := Nat.not_lt.2 hj
      simp [ham74, h, h4]
    · rw [Vector.getElem?_eq_none (by omega)]
      rfl
  table := show ham74Table = ham74Code.buildTable { nmax := 8, rmax := 3, kmaxBits := 32 } by decide

theorem ham74_inv (pa : Bool) (w : Word) (len : Nat) : (ham74 pa w len).Inv where
  params := show ({ nmax := 8, rmax := 3, kmaxBits := 32 } : Params).Legal by decide
  memory := (Memory.wf_iff _ _).2 ⟨Bits.length_ofWord w, List.length_replicate, List.length_replicate⟩
  olen := Nat.zero_le _
  loccnt := Nat.zero_le _
  gRow i p h := by
    have := small_rows (ham74 false 0 0).gRow 7 (by decide) i p h
    exact ⟨by show i + 1 < 8; omega, this.2⟩
  hRow := small_rows (ham74 false 0 0).hRow 3 (by decide)
  locked _ := ham74_built pa w len
  unlocked h := by cases h
  busy h := by cases h
  noErr _ := rfl
  errSoft h := absurd rfl h
  reset h := by cases h

theorem rep7_inv (w : Word) (len : Nat) : (rep7 w len).Inv where
  params := show ({ nmax := 8, rmax := 6, kmaxBits := 32 } : Params).Legal by decide
  memory := (Memory.wf_iff _ _).2 ⟨Bits.length_ofWord w, List.length_replicate, List.length_replicate⟩
  olen := Nat.zero_le _
  loccnt := Nat.zero_le _
  gRow i p h := by
    have := small_rows (rep7 0 0).gRow 7 (by decide) i p h
    exact ⟨by show i + 1 < 8; omega, this.2⟩
  hRow := small_rows (rep7 0 0).hRow 6 (by decide)
  locked _ :=
    { inRange := (Code.rangeOk_iff _ _).1
        (show (rep7 0 0).code.rangeOk { nmax := 8, rmax := 6, kmaxBits := 32 } = true by decide)
      orthogonal := (Code.orthoOk_iff _).1 (show (rep7 0 0).code.orthoOk = true by decide)
      positions := fun j hj => by
        have h0 : j = 0 := Nat.lt_one_iff.1 hj
        subst h0
        exact (Code.messagePosition_eq_some_iff (rep7 0 0).code 0 0).1 (by decide)
      beyond := fun j _ => by
        by_cases h : j < 32
        · simp [rep7, loaded, State.reset, h]
        · rw [Vector.getElem?_eq_none (by omega)]
          rfl
      table := show rep7Table = (rep7 0 0).code.buildTable { nmax := 8, rmax := 6, kmaxBits := 32 } by decide }
  unlocked h := by cases h
  busy h := by cases h
  noErr _ := rfl
  errSoft h := absurd rfl h
  reset h := by cases h

/-- An accepted command: HAM74 locked, ENC_BLK pending. -/
def pending (w : Word) : State := (ham74 false 0xD 4).accept w

theorem pending_is (w : Word) : (pending w).Pending := ⟨rfl, rfl⟩

theorem pending_inv (w : Word) : (pending w).Inv := by
  obtain ⟨h1, h2, h3, h4, h5, h6, h7, _, _, _, _, _⟩ := ham74_inv false 0xD 4
  obtain ⟨b1, b2, b3, b4, b5⟩ := h7 rfl
  exact ⟨h1, h2, h3, h4, h5, h6, fun _ => ⟨b1, b2, b3, b4, b5⟩, fun e => (by cases e),
    fun _ => ⟨rfl, rfl, rfl, rfl⟩, fun _ => rfl, fun e => absurd rfl e, fun e => (by cases e)⟩

theorem witness_LegalityOfCommandWords : (pending 0x110).Pending ∧ ∀ i, decode (pending 0x110).pend ≠ .ok i := by
  refine ⟨pending_is _, fun i h => ?_⟩
  have : decode (pending 0x110).pend = .error .origNotAllowed := by decide
  rw [this] at h
  cases h

theorem witness_StepRunsDecodedCommand :
    (pending 0x10).Pending ∧ decode (pending 0x10).pend = .ok .encBlk ∧ (pending 0x10).sched = [] ∧
      ({ pending 0x10 with sched := [.core, .host] } : State).Pending ∧
      ({ pending 0x10 with sched := [.core, .host] } : State).sched = .core :: [.host] :=
  ⟨pending_is _, by decide, rfl, ⟨rfl, rfl⟩, rfl⟩

/-- An idle core with the given turns and script. -/
def scheduled (turns : List Turn) (script : List HostStmt) : State :=
  { State.reset with sched := turns, host := { script := script, pc := 0, t := 0 } }

theorem scheduled_idle (turns : List Turn) (script : List HostStmt) : ¬ (scheduled turns script).Pending := by
  intro h
  cases h.1

/-- An illegal word pending, an idle core whose host has a statement left or none, and each scheduled turn. -/
theorem witness_StepRunsDecodedCommand_turns :
    ((pending 0x110).Pending ∧ (∀ i, decode (pending 0x110).pend ≠ .ok i) ∧ (pending 0x110).sched = []) ∧
      (¬ (scheduled [] []).Pending ∧ (scheduled [] []).sched = [] ∧
        (scheduled [] []).host.script[(scheduled [] []).host.pc]? = none) ∧
      (∀ turn, ¬ (scheduled [turn] [.b 0]).Pending ∧ (scheduled [turn] [.b 0]).sched = turn :: [] ∧
        (scheduled [turn] [.b 0]).host.script[(scheduled [turn] [.b 0]).host.pc]? = some (.b 0)) :=
  ⟨⟨witness_LegalityOfCommandWords.1, witness_LegalityOfCommandWords.2, rfl⟩, ⟨scheduled_idle _ _, rfl, rfl⟩,
    fun _ => ⟨scheduled_idle _ _, rfl, rfl⟩⟩

theorem witness_FetchedWordRunsNext : decodeTableWord 32 0x231 = some (.paRecover true) := by decide

theorem witness_CommandWriteIsAccepted : State.reset.status.busy = false := rfl

theorem witness_CommandWriteWhileBusySetsOvr : (pending 0x10).status.busy = true := rfl

theorem witness_EveryCommandCompletes : (pending 0x10).Pending := pending_is _

theorem witness_ErrorsArePrecise :
    ∃ t, (State.reset.accept 0x10).Pending ∧ (State.reset.accept 0x10).err.code = .none ∧
      coreStep (State.reset.accept 0x10) = .next t ∧ t.err.code ≠ .none :=
  ⟨(State.reset.accept 0x10).raiseError .notConfigured, ⟨rfl, rfl⟩, rfl, rfl, by decide⟩

/-- The clauses of R192 in turn: CFG_LOCKED and NOT_CONFIGURED. -/
theorem witness_ChecksInOrder_config :
    (ham74 false 0 0).status.locked = true ∧ needsConfig (.paRecover true) = true ∧
      (loaded 3 Config.ham74 false 0 0).status.locked = false := ⟨rfl, rfl, rfl⟩

/-- CFG_RANGE at K = N; CFG_ORTHO with one wrong row; CFG_MPOS with all rows 0 (95 section 2.1). -/
theorem witness_ChecksInOrder_build :
    ¬ (loaded 3 { Config.ham74 with k := 7 } false 0 0).code.InRange { nmax := 8, rmax := 3, kmaxBits := 32 } ∧
    ((loaded 3 { Config.ham74 with hRows := [0x1A, 0x2D, 0x4E] } false 0 0).code.InRange
        { nmax := 8, rmax := 3, kmaxBits := 32 } ∧
      ¬ (loaded 3 { Config.ham74 with hRows := [0x1A, 0x2D, 0x4E] } false 0 0).code.Orthogonal) ∧
    ((loaded 3 { Config.ham74 with gRows := [], hRows := [] } false 0 0).code.InRange
        { nmax := 8, rmax := 3, kmaxBits := 32 } ∧
      (loaded 3 { Config.ham74 with gRows := [], hRows := [] } false 0 0).code.Orthogonal ∧
      ∃ j < (loaded 3 { Config.ham74 with gRows := [], hRows := [] } false 0 0).code.k,
        ∀ p < (loaded 3 { Config.ham74 with gRows := [], hRows := [] } false 0 0).code.n,
          ¬ (loaded 3 { Config.ham74 with gRows := [], hRows := [] } false 0 0).code.UnitColumn j p) := by
  simp only [← Code.rangeOk_iff, ← Code.orthoOk_iff, ← Code.isUnitColumn_iff]
  decide

/-- CAPACITY at KMAXBITS + 1 bits of input; INVALID_LENGTH one off; the three output checks at KMAXBITS + 1 or more. -/
theorem witness_ChecksInOrder_lengths :
    (ham74 false 0 33).status.locked = true ∧ (ham74 false 0 33).params.kmaxBits < (ham74 false 0 33).ilen.toNat ∧
    (ham74 false 0 5).ilen.toNat ≤ (ham74 false 0 5).params.kmaxBits ∧
    (ham74 false 0 5).ilen.toNat ≠ (ham74 false 0 5).code.k ∧
    (ham74 false 0 8).ilen.toNat ≠ (ham74 false 0 8).code.n ∧
    (ham74 false 0 17).params.kmaxBits < (ham74 false 0 17).blockCount 4 * 7 ∧
    (ham74 true 0 32).cfg.pa = true ∧ (ham74 true 0 32).ilen.toNat ≤ (ham74 true 0 32).params.kmaxBits ∧
    (ham74 true 0 32).params.kmaxBits < (ham74 true 0 32).ilen.toNat + 1 := by
  decide

/-- R152, 95 section 2.4: N = 10, K = 9 and ILEN = 31 give Lout = 36, above KMAXBITS = 32. -/
theorem witness_ChecksInOrder_output :
    let s : State := { ham74 false 0 31 with cfg := { n := 10, k := 9, pa := false } }
    s.status.locked = true ∧ s.ilen.toNat ≤ s.params.kmaxBits ∧ s.params.kmaxBits < s.trimmedLength false := by
  decide

theorem witness_CommandsLeaveOtherBytes :
    exec .nop (ham74 false 0 0) = .next (ham74 false 0 0).complete ∧
      mayWrite .nop (regAt (ham74 false 0 0).params (0x1FFFF - 0x1FFFF % 4)) = false ∧
      mayWrite .nop (regAt (ham74 false 0 0).params (0x014 - 0x014 % 4)) = false := ⟨rfl, by decide, by decide⟩

theorem witness_NopOnlyCompletes :
    (ham74 false 0 0).status.busy = false ∧ (ham74 false 0 0).resetIn = false ∧
      (ham74 false 0 0).status.ovr = false ∧ (ham74 false 0 0).status.wign = false := ⟨rfl, rfl, rfl, rfl⟩

theorem witness_BuildCommitsConfiguration :
    let s := loaded 3 Config.ham74 false 0 0
    s.params.Legal ∧ s.status.locked = false ∧ s.code.InRange s.params ∧ s.code.Orthogonal ∧
      ∀ j < s.code.k, s.code.LowestUnitColumn j ((fun j => j) j) :=
  ⟨(ham74_inv false 0 0).params, rfl, (ham74_built false 0 0).inRange, (ham74_built false 0 0).orthogonal,
    ham74_positions⟩

theorem witness_BuiltTableLaws :
    let p : Params := { nmax := 8, rmax := 3, kmaxBits := 32 }
    p.Legal ∧ ham74Code.InRange p ∧
      (ham74Code.buildTable p).getD 7 none = some { pattern := Bits.unit 7 3, weight := 1 } ∧
      Bits.unit 7 3 ∈ ham74Code.patterns ∧ ham74Code.syn (Bits.unit 7 3) = 7 :=
  ⟨(ham74_inv false 0 0).params, (ham74_built false 0 0).inRange, by decide, by decide, by decide⟩

theorem witness_XferCopiesOutputToInput :
    let s : State := { ham74 false 0 0 with olen := 32 }
    s.mem.wf s.params = true ∧ s.olen.toNat ≤ s.params.kmaxBits := by
  decide

/-- A step that runs a pending CFG_UNLOCK. -/
theorem witness_LockedConfigurationIsFrozen :
    ∃ t, (pending 0x02).Inv ∧ (pending 0x02).status.locked = true ∧ step (pending 0x02) = .next t :=
  ⟨_, pending_inv _, rfl, rfl⟩

theorem witness_SyndromeIsLinear : (Bits.unit 7 6).length = ham74Code.n ∧ (Bits.unit 7 0).length = ham74Code.n := by
  decide

theorem witness_EnumerationOrder :
    6 < ham74Code.n ∧ 0 < 6 ∧ 5 < 6 ∧ (0 < 5 ∨ (0 = 5 ∧ 6 < 6)) ∧
      (Bits.add (Bits.unit 7 5) (Bits.unit 7 6)).length = ham74Code.n ∧
      Bits.weight (Bits.add (Bits.unit 7 5) (Bits.unit 7 6)) ≤ 2 := by
  decide

theorem witness_ResolutionIsFirstPattern : (ham74 false 0 0).Inv ∧ (ham74 false 0 0).status.locked = true :=
  ⟨ham74_inv _ _ _, rfl⟩

theorem witness_EncBlkWritesCodeword :
    let s := ham74 false 0xD 4
    s.status.locked = true ∧ s.ilen.toNat ≤ s.params.kmaxBits ∧ s.ilen.toNat = s.code.k := by
  decide

theorem witness_SynBlkWritesSyndrome :
    let s := ham74 false 0x3D 7
    s.status.locked = true ∧ s.ilen.toNat ≤ s.params.kmaxBits ∧ s.ilen.toNat = s.code.n ∧ s.code.r ≤ 16 := by
  decide

theorem witness_DecBlkCorrectsAndExtracts :
    let s := ham74 false 0x3D 7
    s.status.locked = true ∧ s.mem.wf s.params = true ∧ s.ilen.toNat ≤ s.params.kmaxBits ∧
      s.ilen.toNat = s.code.n := by
  decide

/-- R131, 95 S3: a message of HAM74, its last position flipped, the columns of H non-zero and distinct, and the pattern
found equal to the flip. -/
theorem witness_single_flip :
    (ham74 false 0 0).Inv ∧ (ham74 false 0 0).status.locked = true ∧ [true, false, true, true].length = ham74Code.k ∧
      6 < ham74Code.n ∧ ham74Code.first (ham74Code.hcol 6) = some (Bits.unit 7 6) ∧ ham74Code.DistinctColumns := by
  refine ⟨ham74_inv _ _ _, rfl, by decide, by decide, by decide, ?_⟩
  show ∀ p < 7, ham74Code.hcol p ≠ 0 ∧ ∀ q < 7, ham74Code.hcol p = ham74Code.hcol q → p = q
  decide

/-- R131 law 3, 95 S4: in REP7 the pair of positions 0 and 1 is the first pattern with its syndrome. -/
theorem witness_double_flip :
    (rep7 0 0).Inv ∧ (rep7 0 0).status.locked = true ∧ [true].length = (rep7 0 0).code.k ∧ 0 < 1 ∧
      1 < (rep7 0 0).code.n ∧ (rep7 0 0).code.first ((rep7 0 0).code.hcol 0 ^^^ (rep7 0 0).code.hcol 1) =
        some (Bits.add (Bits.unit (rep7 0 0).code.n 0) (Bits.unit (rep7 0 0).code.n 1)) :=
  ⟨rep7_inv 0 0, by decide⟩

theorem witness_EncKeyEncodesPaddedBlocks :
    let s := ham74 false 0x1D 16
    s.params.Legal ∧ s.status.locked = true ∧ s.mem.wf s.params = true ∧ s.ilen.toNat ≤ s.params.kmaxBits ∧
      s.blockCount s.code.k * s.code.n ≤ s.params.kmaxBits := by
  decide

theorem witness_DecKeyDecodesAndTrims :
    let s : State := { ham74 false 0x1ABD 14 with origLen := 5 }
    s.params.Legal ∧ s.status.locked = true ∧ s.mem.wf s.params = true ∧ s.ilen.toNat ≤ s.params.kmaxBits ∧
      s.trimmedLength true ≤ s.params.kmaxBits ∧ 1 < s.blockCount s.code.n ∧ 0 < s.code.k ∧
      1 * s.code.k + 0 < s.trimmedLength true := by
  decide

theorem witness_LocateReportsPositions :
    let s := ham74 false 0x1ABD 32
    s.params.Legal ∧ s.status.locked = true ∧ s.mem.wf s.params = true ∧ s.ilen.toNat ≤ s.params.kmaxBits := by
  decide

theorem witness_KeyRoundTrip :
    (ham74 false 0x1D 5).Inv ∧ (ham74 false 0x1D 5).status.locked = true ∧
      (ham74 false 0x1D 5).ilen.toNat ≤ (ham74 false 0x1D 5).params.kmaxBits ∧
      (ham74 false 0x1D 5).blockCount (ham74 false 0x1D 5).code.k * (ham74 false 0x1D 5).code.n ≤
        (ham74 false 0x1D 5).params.kmaxBits :=
  ⟨ham74_inv _ _ _, rfl, by decide, by decide⟩

/-- R153 law 3, 95 S6: the blocks 0x2D and 0x31 with bits 4 and 2 flipped (0x1ABD, 14 bits). -/
theorem witness_OneFlipPerBlockIsCorrectedAndLocated :
    let s := ham74 false 0x1ABD 14
    let m (b : Nat) : Bits := if b = 0 then [true, false, true, true] else [true, false, false, false]
    let flip (b : Nat) : Option Nat := if b = 0 then some 4 else some 2
    s.Inv ∧ s.status.locked = true ∧ s.code.DistinctColumns ∧ s.ilen.toNat ≤ s.params.kmaxBits ∧
      s.trimmedLength false ≤ s.params.kmaxBits ∧
      ∀ b < s.blockCount s.code.n, (m b).length = s.code.k ∧
        (flip b = none → s.inputBlock s.code.n b = s.code.enc (m b)) ∧
        ∀ p, flip b = some p → p < s.code.n ∧
          s.inputBlock s.code.n b = Bits.add (s.code.enc (m b)) (Bits.unit s.code.n p) := by
  refine ⟨ham74_inv _ _ _, rfl, witness_single_flip.2.2.2.2.2, by decide, by decide, fun b hb => ?_⟩
  have hb : b < 2 := hb
  have h : b = 0 ∨ b = 1 := by omega
  rcases h with rfl | rfl
  · refine ⟨by decide, fun h => (by cases h), fun p h => ?_⟩
    cases h
    decide
  · refine ⟨by decide, fun h => (by cases h), fun p h => ?_⟩
    cases h
    decide

/-- Both cases of each compression: the least full input and one bit less (R176, R178). -/
theorem witness_compress :
    ((ham74 false 0x6 3).status.locked = true ∧ (ham74 false 0x6 3).mem.wf (ham74 false 0x6 3).params = true ∧
      (ham74 false 0x6 3).ilen.toNat ≤ (ham74 false 0x6 3).params.kmaxBits ∧ (ham74 false 0x6 3).cfg.pa = false ∧
      3 ≤ (ham74 false 0x6 3).ilen.toNat ∧ (ham74 false 0x1 2).ilen.toNat < 3) ∧
    ((ham74 true 0x3 2).status.locked = true ∧ (ham74 true 0x3 2).mem.wf (ham74 true 0x3 2).params = true ∧
      (ham74 true 0x3 2).ilen.toNat ≤ (ham74 true 0x3 2).params.kmaxBits ∧ (ham74 true 0x3 2).cfg.pa = true ∧
      2 ≤ (ham74 true 0x3 2).ilen.toNat ∧ (ham74 true 0x1 1).ilen.toNat < 2) := by
  decide

/-- Both cases of three-bit recovery, and adjacent recovery at the longest input (R177, R179, R193). -/
theorem witness_recover :
    ((ham74 false 0xB 2).ilen.toNat ≤ (ham74 false 0xB 2).params.kmaxBits ∧ 2 ≤ (ham74 false 0xB 2).ilen.toNat ∧
      (ham74 false 0xB 2).cfg.pa = false ∧ (ham74 false 0x1 1).ilen.toNat < 2) ∧
    ((ham74 true 0xB 31).params.Legal ∧ (ham74 true 0xB 31).status.locked = true ∧
      (ham74 true 0xB 31).mem.wf (ham74 true 0xB 31).params = true ∧ (ham74 true 0xB 31).cfg.pa = true ∧
      (ham74 true 0xB 31).ilen.toNat + 1 ≤ (ham74 true 0xB 31).params.kmaxBits) := by
  decide

theorem witness_AdjacentRoundTrip :
    let s := ham74 true 0xD 5
    s.params.Legal ∧ s.status.locked = true ∧ s.mem.wf s.params = true ∧ s.ilen.toNat ≤ s.params.kmaxBits ∧
      s.cfg.pa = true ∧ 2 ≤ s.ilen.toNat := by
  decide

theorem witness_ThreeBitRecoveryDeviation :
    3 ≤ [true, false, true, false, true, false, true].length ∧
      1 < [true, false, true, false, true, false, true].length / 3 := by
  decide

/-- Writes of CTRL with and without SRST, of STATUS with DONE, and an idle core (R44, R196, R216). -/
theorem witness_control_writes :
    (0x2 : Word).getLsbD 1 = true ∧ (0x1 : Word).getLsbD 1 = false ∧ (ham74 false 0 0).status.busy = false := by
  decide

theorem witness_ResetStateIsAtReset : (0x2 : Word).getLsbD 1 = true ∧ needsConfig .encBlk = true := by decide

theorem witness_HardResetHoldsTheCore : (ham74 false 0 0).assertReset.resetIn = true := rfl

/-- The first and the last slots of each row register, in an idle unlocked core and in a locked one (R28, R29, R45). -/
theorem witness_ConfigurationWritesAndLock :
    (loaded 3 Config.ham74 false 0 0).params.Legal ∧ (loaded 3 Config.ham74 false 0 0).status.busy = false ∧
      (loaded 3 Config.ham74 false 0 0).status.locked = false ∧ (ham74 false 0 0).status.locked = true ∧
      0 + 1 < (ham74 false 0 0).params.nmax ∧ 6 + 1 < (ham74 false 0 0).params.nmax ∧
      0 < (ham74 false 0 0).params.rmax ∧ 2 < (ham74 false 0 0).params.rmax := by
  decide

theorem witness_InputWrites :
    (ham74 false 0 0).params.Legal ∧ (ham74 false 0 0).mem.wf (ham74 false 0 0).params = true ∧
      (ham74 false 0 0).status.busy = false ∧ (pending 0x10).status.busy = true ∧
      0 < (ham74 false 0 0).params.kmaxBits / 32 := by
  decide

/-- The lowest and the highest word of each range, at NMAX = 8, RMAX = 3, KMAXBITS = 32 (R65). -/
theorem witness_ReadOnlyAndReservedSpace :
    (ham74 false 0 0).params.Legal ∧
      ∀ a ∈ [0x000, 0x048, 0x200, 0x27C, 0x8000, 0x1FFFC, 0x04C, 0x0FC, 0x280, 0x3FFC, 0x11C, 0x17C, 0x18C, 0x1FC,
        0x21C, 0x4004, 0x7FFC, 0x8004, 0xFFFC, 0x10080], a % 4 = 0 ∧ a < 0x20000 := by
  decide

theorem witness_ReadsHaveNoSideEffects : (ham74 false 0 0).status.busy = false := rfl

/-- R65, U5: a reserved offset and a missing slot read 0 while BUSY = 1 too, without a draw. -/
theorem test_busy_read_of_reserved :
    (pending 0x10).hostRead 0x04C = (0, pending 0x10) ∧ (pending 0x10).hostRead 0x17C = (0, pending 0x10) :=
  ⟨rfl, rfl⟩

theorem witness_ReadsWhileBusy :
    (pending 0x10).Inv ∧ (pending 0x10).status.busy = true ∧
      ∀ a ∈ [0x010, 0x018, 0x048, 0x100, 0x8000, 0x1007C], a < 0x20000 ∧ a % 4 = 0 ∧
        regAt (pending 0x10).params a ∉ [.id, .param, .ctrl, .status, .cmd, .reserved] :=
  ⟨pending_inv _, rfl, by decide⟩

/-- The first and the last bit of a buffer, the last lane and bit of a word (R62, R63). -/
theorem witness_BufferPackingAndByteLanes :
    (ham74 false 0 0).params.Legal ∧ 0 < (ham74 false 0 0).params.kmaxBits ∧
      31 < (ham74 false 0 0).params.kmaxBits ∧ 0x8000 % 4 = 0 ∧ 3 < 4 ∧ 7 < 8 := by
  decide

/-- The last existing slots of G_ROW and of H_ROW (R28, R29). -/
theorem witness_RegisterReadback :
    State.reset.params.Legal ∧ 30 + 1 < State.reset.params.nmax ∧ 7 < State.reset.params.rmax := by
  decide

/-- A valid entry below 2^R, an index at 2^R, and an unlocked core (R30, R38). -/
theorem witness_DerivedConfigurationReadback :
    ({ ham74 false 0 0 with tblIdx := 7 } : State).Inv ∧ 0 + 1 < (ham74 false 0 0).params.nmax ∧
      6 + 1 < (ham74 false 0 0).params.nmax ∧
      (ham74 false 0 0).table.getD 7 none = some { pattern := Bits.unit 7 3, weight := 1 } ∧
      2 ^ (ham74Code.n - ham74Code.k) ≤ ({ ham74 false 0 0 with tblIdx := 8 } : State).tblIdx.toNat ∧
      State.reset.status.locked = false := by
  refine ⟨?_, by decide, by decide, by decide, by decide, rfl⟩
  obtain ⟨h1, h2, h3, h4, h5, h6, h7, _, h9, h10, h11, h12⟩ := ham74_inv false 0 0
  obtain ⟨b1, b2, b3, b4, b5⟩ := h7 rfl
  exact ⟨h1, h2, h3, h4, h5, h6, fun _ => ⟨b1, b2, b3, b4, b5⟩, fun e => (by cases e), h9, h10, h11, h12⟩

theorem witness_UndefinedAccessIsRefused :
    State.reset.resetIn = false ∧ (2 ≠ 4 ∧ 0x7FFD % 4 ≠ 0 ∧ 0x20000 ≤ 0x20000) ∧
      (0x1FFFC % 4 = 0 ∧ 0x1FFFC < 0x20000) := ⟨rfl, by decide, by decide⟩

/-- R86: a script with a label twice and a mask that meets t or does not: the clauses of HostControlFlow. -/
def branching (t : Word) : State :=
  { State.reset with host := { script := [.b 1, .label 1, .bnz .t 0x1 1, .label 1], pc := 2, t := t } }

theorem witness_HostControlFlow :
    (branching 1).hostVal .t &&& 0x1 ≠ 0 ∧ (branching 2).hostVal .t &&& 0x1 = 0 ∧
      (branching 1).host.script[1]? = some (.label 1) ∧
      (∀ j < 1, (branching 1).host.script[j]? ≠ some (.label 1)) ∧
      ∀ i : Nat, State.reset.host.script[i]? ≠ some (.label 1) :=
  ⟨by decide, by decide, rfl, by decide, fun _ h => by cases h⟩

/-- R86: `bnz t, 0x1, L` goes back to the first L, or falls through. -/
theorem test_bnz :
    step (branching 1) = .next { branching 1 with host.pc := 1 } ∧
      step (branching 2) = .next { branching 2 with host.pc := 3 } :=
  ⟨rfl, rfl⟩

/-- A step that runs a pending ENC_BLK. -/
theorem witness_EveryStepKeepsInvariant : ∃ t, (pending 0x10).Inv ∧ step (pending 0x10) = .next t :=
  ⟨_, pending_inv _, rfl⟩

/-- A host that reads STATUS, or resets the core, while ENC_BLK is pending. -/
def polling (st : HostStmt) : State := { pending 0x10 with host := { script := [st], pc := 0, t := 0 } }

theorem witness_PendingCommandIsUndisturbed :
    ∃ t u, (polling (Script.rd .status)).Pending ∧ (polling (Script.rd .status)).hostStep = .next t ∧
      (polling (Script.wr .ctrl 2)).Pending ∧ (polling (Script.wr .ctrl 2)).hostStep = .next u :=
  ⟨_, _, ⟨rfl, rfl⟩, rfl, ⟨rfl, rfl⟩, rfl⟩

theorem witness_ResultsIndependentOfDelay :
    ∃ s' t t', (polling (Script.rd .status)).Pending ∧ (polling (Script.rd .status)).hostStep = .next s' ∧
      (polling (Script.rd .status)).HostDelay s' ∧ coreStep (polling (Script.rd .status)) = .next t ∧
      coreStep s' = .next t' :=
  ⟨_, _, _, ⟨rfl, rfl⟩, rfl, .step (.none _) rfl ⟨rfl, rfl⟩, rfl, rfl⟩

end Sys2Proof.Tests
end

section
/-! PROOFS of the family 00_scope: what reset leaves (O44), and the invariant of the core, which every step keeps (O55). -/

namespace Sys2Proof.Params.Legal

variable {p : Params}

theorem nmax_le (h : p.Legal) : p.nmax ≤ 32 := h.1.2

theorem rmax_lt (h : p.Legal) : p.rmax < 32 := by
  obtain ⟨-, ⟨-, hr⟩, -⟩ := h
  omega

theorem kmaxBits_mod (h : p.Legal) : p.kmaxBits % 32 = 0 := h.2.2.1

theorem nmax_le_kmaxBits (h : p.Legal) : p.nmax ≤ p.kmaxBits := by
  obtain ⟨⟨-, hn⟩, -, -, hk, -⟩ := h
  exact hn.trans hk

end Sys2Proof.Params.Legal

namespace Sys2Proof.Machine

/-! ## When a command's body succeeds -/

/-- A failing check ends the body with its code (R192). -/
theorem check_eq_ok_iff {c : Prop} [Decidable c] {code : ErrCode} {body : Except ErrCode State} {u : State} :
    (if c then .error code else body) = .ok u ↔ ¬ c ∧ body = .ok u := by
  by_cases h : c <;> simp [h]

section BodySucceeds

variable {s u : State}

/-- R192, R193: the two checks that every data command makes first. -/
theorem dataChecks_eq_ok_iff {body : Except ErrCode State} :
    (if s.status.locked = false then .error .notConfigured
      else if s.inputTooLong = true then .error .capacity else body) = .ok u ↔
    s.status.locked = true ∧ s.ilen.toNat ≤ s.params.kmaxBits ∧ body = .ok u := by
  rw [check_eq_ok_iff, check_eq_ok_iff, Bool.not_eq_false, State.inputTooLong, decide_eq_true_eq, Nat.not_lt]

/-- R105. -/
theorem cfgBuildBody_eq_ok_iff :
    cfgBuildBody s = .ok u ↔ s.status.locked = false ∧ s.code.InRange s.params ∧ s.code.Orthogonal ∧
      ∃ l, s.code.deriveMpos = some l ∧ u = s.commitBuild l (s.code.buildTable s.params) := by
  rw [cfgBuildBody, check_eq_ok_iff, check_eq_ok_iff, check_eq_ok_iff, Bool.not_eq_true, Bool.not_eq_false,
    Bool.not_eq_false, Code.rangeOk_iff, Code.orthoOk_iff]
  cases s.code.deriveMpos with
  | none => simp
  | some l => simp [eq_comm (a := u)]

/-- R128. -/
theorem encBlkBody_eq_ok_iff :
    encBlkBody s = .ok u ↔ s.status.locked = true ∧ s.ilen.toNat ≤ s.params.kmaxBits ∧ s.ilen.toNat = s.code.k ∧
      u = s.writeObuf (s.code.enc s.input) := by
  rw [encBlkBody, dataChecks_eq_ok_iff, check_eq_ok_iff, not_ne_iff, Except.ok.injEq, eq_comm (a := u)]

/-- R129. -/
theorem synBlkBody_eq_ok_iff :
    synBlkBody s = .ok u ↔ s.status.locked = true ∧ s.ilen.toNat ≤ s.params.kmaxBits ∧ s.ilen.toNat = s.code.n ∧
      u = { s.writeObuf (s.code.svec s.input) with synd := BitVec.ofNat 16 (s.code.syn s.input) } := by
  rw [synBlkBody, dataChecks_eq_ok_iff, check_eq_ok_iff, not_ne_iff, Except.ok.injEq, eq_comm (a := u)]

/-- R130. -/
theorem decBlkBody_eq_ok_iff :
    decBlkBody s = .ok u ↔ s.status.locked = true ∧ s.ilen.toNat ≤ s.params.kmaxBits ∧ s.ilen.toNat = s.code.n ∧
      u = (s.writeObuf (s.code.decodeMessage s.mpos s.table s.input)).writeBlockResults
        [s.code.inspect s.table s.input] := by
  rw [decBlkBody, dataChecks_eq_ok_iff, check_eq_ok_iff, not_ne_iff, Except.ok.injEq, eq_comm (a := u)]

/-- R151. -/
theorem encKeyBody_eq_ok_iff :
    encKeyBody s = .ok u ↔ s.status.locked = true ∧ s.ilen.toNat ≤ s.params.kmaxBits ∧
      nblocks s.ilen.toNat s.code.k * s.code.n ≤ s.params.kmaxBits ∧
      u = s.writeObuf (s.code.encodeKey s.input) := by
  rw [encKeyBody, dataChecks_eq_ok_iff, check_eq_ok_iff, Nat.not_lt, Except.ok.injEq, eq_comm (a := u)]

/-- R152. -/
theorem decKeyBody_eq_ok_iff {orig : Bool} :
    decKeyBody orig s = .ok u ↔ s.status.locked = true ∧ s.ilen.toNat ≤ s.params.kmaxBits ∧
      s.outputLength orig (nblocks s.ilen.toNat s.code.n * s.code.k) ≤ s.params.kmaxBits ∧
      u = (s.writeObuf ((s.code.decodeKey s.mpos s.table s.input).take
          (s.outputLength orig (nblocks s.ilen.toNat s.code.n * s.code.k)))).writeBlockResults
        ((blocks s.input s.code.n).map (s.code.inspect s.table)) := by
  rw [decKeyBody, dataChecks_eq_ok_iff, check_eq_ok_iff, Nat.not_lt, Except.ok.injEq, eq_comm (a := u)]

/-- R165. -/
theorem locateBody_eq_ok_iff {orig : Bool} :
    locateBody orig s = .ok u ↔ s.status.locked = true ∧ s.ilen.toNat ≤ s.params.kmaxBits ∧
      u = (s.writeLocbuf ((s.code.globalPositions 0 (s.code.locateResults s.table s.input)).filter
        (s.positionKept orig))).writeBlockResults (s.code.locateResults s.table s.input) := by
  rw [locateBody, dataChecks_eq_ok_iff, Except.ok.injEq, eq_comm (a := u)]

/-- R180. -/
theorem paCompressBody_eq_ok_iff :
    paCompressBody s = .ok u ↔ s.status.locked = true ∧ s.ilen.toNat ≤ s.params.kmaxBits ∧
      u = s.writeAmplified s.compressed := by
  rw [paCompressBody, dataChecks_eq_ok_iff, Except.ok.injEq, eq_comm (a := u)]

/-- R181. -/
theorem paRecoverBody_eq_ok_iff {seed : Bool} :
    paRecoverBody seed s = .ok u ↔ s.status.locked = true ∧ s.ilen.toNat ≤ s.params.kmaxBits ∧
      (s.cfg.pa = true → s.ilen.toNat + 1 ≤ s.params.kmaxBits) ∧ u = s.writeAmplified (s.recovered seed) := by
  rw [paRecoverBody, dataChecks_eq_ok_iff, check_eq_ok_iff, not_and, Nat.not_lt, Except.ok.injEq, eq_comm (a := u)]

end BodySucceeds

/-! ## How long the output of a command is -/

/-- R150: with blocks of two bits or more, the blocks of an input that fits an even buffer number at most half its
bits. -/
theorem two_mul_nblocks_le {l b k : Nat} (hb : 2 ≤ b) (hl : l ≤ k) (hk : k % 2 = 0) : 2 * nblocks l b ≤ k := by
  have hm : k / 2 * 2 ≤ k / 2 * b := Nat.mul_le_mul_left _ hb
  have : nblocks l b < k / 2 + 1 := by
    rw [nblocks, Nat.div_lt_iff_lt_mul (by omega), Nat.add_mul, Nat.one_mul]
    omega
  omega

namespace Code

theorem zeros_mem_patterns (c : Code) : Bits.zeros c.n ∈ c.patterns := by
  simp [patterns, patterns0]

/-- R124, R127: with a built table, the pattern of a block stands in the enumeration. -/
theorem pattern_inspect_mem_patterns (c : Code) (p : Params) (v : Bits) :
    (c.inspect (c.buildTable p) v).pattern ∈ c.patterns := by
  unfold inspect
  split
  next h => exact resolve_mem_patterns h
  next => exact c.zeros_mem_patterns

/-- R165. -/
theorem pattern_inspectNonzero_mem_patterns (c : Code) (p : Params) (v : Bits) :
    (c.inspectNonzero (c.buildTable p) v).pattern ∈ c.patterns := by
  unfold inspectNonzero
  split
  · exact c.zeros_mem_patterns
  · exact c.pattern_inspect_mem_patterns p v

/-- R166 law 4: with a built table, LOCATE finds at most two positions for each block. -/
theorem length_located_le (c : Code) (p : Params) (received : Bits) :
    (c.globalPositions 0 (c.locateResults (c.buildTable p) received)).length ≤ 2 * nblocks received.length c.n := by
  rw [← length_locateResults c (c.buildTable p)]
  refine length_globalPositions_le c 0 _ fun b hb => ?_
  obtain ⟨v, -, rfl⟩ := List.mem_map.1 hb
  exact setBits_of_mem_patterns (c.pattern_inspectNonzero_mem_patterns p v)

end Code

namespace State

/-- R176, R178: PA_COMPRESS never writes more than it reads. -/
theorem length_compressed_le (s : State) : s.compressed.1.length ≤ s.input.length := by
  unfold compressed
  split
  · exact (Amplifier.length_compress _).2
  · exact (Amplifier.length_compress _).1

/-- R177, R179: of the recoveries only the adjacent-XOR one is longer than its input, by one bit. -/
theorem length_recovered_le {s : State} {k : Nat} (seed : Bool) (hl : s.input.length ≤ k)
    (ha : s.cfg.pa = true → s.input.length + 1 ≤ k) : (s.recovered seed).1.length ≤ k := by
  unfold recovered
  split
  next hpa => exact (Amplifier.length_chain seed s.input).trans_le (ha hpa)
  next =>
    rw [Amplifier.length_recover3]
    omega

end State

/-! ## Rows of G and H, and the derived configuration at reset -/

/-- R12, R28, R29: the bits of the rows after one row is written. -/
theorem rowBit_setIfInBounds (rows : Vector Word 32) {i : Nat} (hi : i < 32) (x : Word) (j p : Nat) :
    rowBit (rows.setIfInBounds i x) j p = if j = i then x.getLsbD p else rowBit rows j p := by
  unfold rowBit
  by_cases h : j = i
  · subst h
    simp [hi]
  · simp [h, Vector.getElem?_setIfInBounds_ne (Ne.symm h)]

/-- R28, R29: a row keeps the bits below NMAX of the word written to it. -/
theorem getLsbD_rowValue {s : State} (hn : s.params.nmax ≤ 32) (v : Word) (p : Nat) :
    (s.rowValue v).getLsbD p = (decide (p < s.params.nmax) && v.getLsbD p) := by
  rw [State.rowValue, BitVec.getLsbD_and, BitVec.getLsbD_ofNat, Nat.testBit_two_pow_sub_one]
  by_cases hp : p < s.params.nmax
  · simp [hp, show p < 32 by omega]
  · simp [hp]

/-- A row written where `P` holds keeps the rows empty where it does not, and at or above NMAX. -/
theorem rows_bounded_setIfInBounds {s : State} {rows : Vector Word 32} {P : Nat → Prop} (hn : s.params.nmax ≤ 32)
    (h : ∀ j p, rowBit rows j p = true → P j ∧ p < s.params.nmax) {i : Nat} (hi : i < 32) (hP : P i) (v : Word) :
    ∀ j p, rowBit (rows.setIfInBounds i (s.rowValue v)) j p = true → P j ∧ p < s.params.nmax := by
  intro j p hb
  rw [rowBit_setIfInBounds rows hi, getLsbD_rowValue hn] at hb
  split at hb
  next hj =>
    simp only [Bool.and_eq_true, decide_eq_true_eq] at hb
    exact ⟨hj ▸ hP, hb.1⟩
  next => exact h j p hb

/-- A register file at its reset value reads 0 at every slot, existing or not. -/
theorem getElem?_replicate_getD {α : Type} (n : Nat) (a : α) (i : Nat) : (Vector.replicate n a)[i]?.getD a = a := by
  rw [Vector.getElem?_replicate]
  split <;> rfl

/-- An empty table has no entry at any syndrome. -/
theorem getD_replicate_none {α : Type} (n i : Nat) : (List.replicate n (none : Option α)).getD i none = none := by
  rw [List.getD_eq_getElem?_getD, List.getElem?_replicate]
  split <;> rfl

end Sys2Proof.Machine

/-! ## The invariant in three parts, each with the part of the state it speaks of -/

namespace Sys2Proof.Machine.State

/-- The buffers and the lengths of their contents (R5, R33, R37, R39–R41). -/
structure DataInv (s : State) : Prop where
  params : s.params.Legal
  memory : s.mem.wf s.params = true
  olen   : s.olen.toNat ≤ s.params.kmaxBits
  loccnt : s.loccnt.toNat ≤ s.params.kmaxBits

/-- The configuration and what CFG_BUILD derives from it (R28–R30, R42, R45). -/
structure ConfigInv (s : State) : Prop where
  gRow     : ∀ i p, rowBit s.gRow i p = true → i + 1 < s.params.nmax ∧ p < s.params.nmax
  hRow     : ∀ r p, rowBit s.hRow r p = true → r < s.params.rmax ∧ p < s.params.nmax
  locked   : s.status.locked = true → s.BuiltConfig
  unlocked : s.status.locked = false → s.NoConfig

/-- The life cycle of a command, its errors and the reset input (R25, R100, R102, R195, R215). -/
structure LifecycleInv (s : State) : Prop where
  busy    : s.status.busy = true →
    s.status.done = false ∧ s.err = { code := .none, opc := 0 } ∧ s.status.uncorr = false ∧
      s.status.underlen = false
  noErr   : s.err.code = .none → s.err.opc = 0
  errSoft : s.err.code ≠ .none → s.status.uncorr = false ∧ s.status.underlen = false
  reset   : s.resetIn = true →
    s.status.busy = false ∧ s.status.done = false ∧ s.status.locked = false ∧ s.ie = false

section Invariant

variable {s t u : State}

theorem Inv.of_parts (hd : s.DataInv) (hc : s.ConfigInv) (hl : s.LifecycleInv) : s.Inv where
  params := hd.params
  memory := hd.memory
  olen := hd.olen
  loccnt := hd.loccnt
  gRow := hc.gRow
  hRow := hc.hRow
  locked := hc.locked
  unlocked := hc.unlocked
  busy := hl.busy
  noErr := hl.noErr
  errSoft := hl.errSoft
  reset := hl.reset

theorem Inv.data (h : s.Inv) : s.DataInv := ⟨h.params, h.memory, h.olen, h.loccnt⟩

theorem Inv.config (h : s.Inv) : s.ConfigInv := ⟨h.gRow, h.hRow, h.locked, h.unlocked⟩

theorem Inv.lifecycle (h : s.Inv) : s.LifecycleInv := ⟨h.busy, h.noErr, h.errSoft, h.reset⟩

/-- The fields `DataInv` speaks of. -/
def dataFields (s : State) : Params × Memory × Word × Word := (s.params, s.mem, s.olen, s.loccnt)

/-- The fields `ConfigInv` speaks of. -/
def configFields (s : State) :
    Params × Bool × Cfg × Vector Word 32 × Vector Word 32 × Vector (BitVec 5) 32 × List (Option TblEntry) :=
  (s.params, s.status.locked, s.cfg, s.gRow, s.hRow, s.mpos, s.table)

/-- The fields `LifecycleInv` speaks of. -/
def lifecycleFields (s : State) : Bool × Bool × Bool × Bool × Bool × Bool × ErrReg × Bool :=
  (s.status.busy, s.status.done, s.status.uncorr, s.status.underlen, s.status.locked, s.ie, s.err, s.resetIn)

theorem DataInv.congr (h : s.DataInv) (e : t.dataFields = s.dataFields) : t.DataInv := by
  simp only [dataFields, Prod.mk.injEq] at e
  obtain ⟨hp, hm, ho, hl⟩ := e
  obtain ⟨params, memory, olen, loccnt⟩ := h
  constructor <;> simpa only [hp, hm, ho, hl]

theorem BuiltConfig.congr (h : s.BuiltConfig) (e : t.configFields = s.configFields) : t.BuiltConfig := by
  simp only [configFields, Prod.mk.injEq] at e
  obtain ⟨hp, -, hc, hg, hh, hm, ht⟩ := e
  have hcode : t.code = s.code := by simp only [code, hc, hg, hh]
  obtain ⟨inRange, orthogonal, positions, beyond, table⟩ := h
  constructor <;> simpa only [hp, hcode, hm, ht]

theorem NoConfig.congr (h : s.NoConfig) (e : t.configFields = s.configFields) : t.NoConfig := by
  simp only [configFields, Prod.mk.injEq] at e
  obtain ⟨hp, -, -, -, -, hm, ht⟩ := e
  exact ⟨hm.trans h.positions, by rw [ht, h.table, hp]⟩

theorem ConfigInv.congr (h : s.ConfigInv) (e : t.configFields = s.configFields) : t.ConfigInv := by
  have hb := fun hs : s.BuiltConfig => hs.congr e
  have hn := fun hs : s.NoConfig => hs.congr e
  simp only [configFields, Prod.mk.injEq] at e
  obtain ⟨hp, hl, -, hg, hh, -, -⟩ := e
  refine ⟨?_, ?_, fun h' => hb (h.locked (hl ▸ h')), fun h' => hn (h.unlocked (hl ▸ h'))⟩
  · simpa only [hp, hg] using h.gRow
  · simpa only [hp, hh] using h.hRow

/-- In an unlocked core the invariant binds the rows alone: CFG may hold anything (R27, R30, R42). -/
theorem NoConfig.configInv (h : s.NoConfig) (hl : s.status.locked = false)
    (hg : ∀ i p, rowBit s.gRow i p = true → i + 1 < s.params.nmax ∧ p < s.params.nmax)
    (hh : ∀ r p, rowBit s.hRow r p = true → r < s.params.rmax ∧ p < s.params.nmax) : s.ConfigInv :=
  ⟨hg, hh, fun e => absurd (hl.symm.trans e) Bool.false_ne_true, fun _ => h⟩

theorem LifecycleInv.congr (h : s.LifecycleInv) (e : t.lifecycleFields = s.lifecycleFields) : t.LifecycleInv := by
  simp only [lifecycleFields, Prod.mk.injEq] at e
  obtain ⟨hb, hd, hu, hn, hl, hi, he, hr⟩ := e
  obtain ⟨busy, noErr, errSoft, reset⟩ := h
  constructor <;> simpa only [hb, hd, hu, hn, hl, hi, he, hr]

/-- What changes none of the fields the invariant speaks of keeps it. -/
theorem Inv.congr (h : s.Inv) (hd : t.dataFields = s.dataFields) (hc : t.configFields = s.configFields)
    (hl : t.lifecycleFields = s.lifecycleFields) : t.Inv :=
  .of_parts (h.data.congr hd) (h.config.congr hc) (h.lifecycle.congr hl)

/-! ## Reset -/

/-- R46: what reset leaves meets the invariant, whatever was before. -/
theorem resetCore_inv (hp : s.params.Legal) : s.resetCore.Inv where
  params := hp
  memory := s.resetCore_wf
  olen := Nat.zero_le _
  loccnt := Nat.zero_le _
  gRow i p h := by simp [rowBit, getElem?_replicate_getD] at h
  hRow r p h := by simp [rowBit, getElem?_replicate_getD] at h
  locked h := by cases h
  unlocked _ := ⟨rfl, rfl⟩
  busy h := by cases h
  noErr _ := rfl
  errSoft h := absurd rfl h
  reset _ := ⟨rfl, rfl, rfl, rfl⟩

/-- R215: both edges of the reset input reset the core. -/
theorem assertReset_eq_resetCore (s : State) : s.assertReset = ({ s with resetIn := true } : State).resetCore := rfl

theorem releaseReset_cases (s : State) :
    s.releaseReset = s ∨ s.releaseReset = ({ s with resetIn := false } : State).resetCore := by
  unfold releaseReset
  split
  · exact .inr rfl
  · exact .inl rfl

/-! ## Host steps -/

theorem Inv.accept (h : s.Inv) (hr : s.resetIn = false) (w : Word) : (s.accept w).Inv :=
  .of_parts (h.data.congr rfl) (h.config.congr rfl)
    { busy := fun _ => ⟨rfl, rfl, rfl, rfl⟩
      noErr := fun _ => rfl
      errSoft := fun e => absurd rfl e
      reset := fun e => absurd (hr.symm.trans e) Bool.false_ne_true }

theorem Inv.clearW1C (h : s.Inv) (v : Word) : ({ s with status := s.status.clearW1C v } : State).Inv :=
  .of_parts (h.data.congr rfl) (h.config.congr rfl)
    { busy := fun hb => by
        obtain ⟨hd, hrest⟩ := h.busy hb
        exact ⟨by simp [Status.clearW1C, hd], hrest⟩
      noErr := h.noErr
      errSoft := h.errSoft
      reset := fun hr => by
        obtain ⟨hb, hd, hrest⟩ := h.reset hr
        exact ⟨hb, by simp [Status.clearW1C, hd], hrest⟩ }

theorem Inv.writeIe (h : s.Inv) (hr : s.resetIn = false) (b : Bool) : ({ s with ie := b } : State).Inv :=
  .of_parts (h.data.congr rfl) (h.config.congr rfl)
    { busy := h.busy
      noErr := h.noErr
      errSoft := h.errSoft
      reset := fun e => absurd (hr.symm.trans e) Bool.false_ne_true }

theorem Inv.writeCfg (h : s.Inv) (hl : s.status.locked = false) (c : Cfg) : ({ s with cfg := c } : State).Inv := by
  obtain ⟨hm, ht⟩ := h.unlocked hl
  exact .of_parts (h.data.congr rfl) (NoConfig.configInv ⟨hm, ht⟩ hl h.gRow h.hRow) (h.lifecycle.congr rfl)

theorem Inv.writeGRow (h : s.Inv) (hl : s.status.locked = false) {i : Nat} (hi : i + 1 < s.params.nmax) (v : Word) :
    ({ s with gRow := s.gRow.setIfInBounds i (s.rowValue v) } : State).Inv := by
  obtain ⟨hm, ht⟩ := h.unlocked hl
  have hn := h.params.nmax_le
  have hg := rows_bounded_setIfInBounds (P := fun j => j + 1 < s.params.nmax) hn h.gRow (by omega) hi v
  exact .of_parts (h.data.congr rfl) (NoConfig.configInv ⟨hm, ht⟩ hl hg h.hRow) (h.lifecycle.congr rfl)

theorem Inv.writeHRow (h : s.Inv) (hl : s.status.locked = false) {r : Nat} (hr : r < s.params.rmax) (v : Word) :
    ({ s with hRow := s.hRow.setIfInBounds r (s.rowValue v) } : State).Inv := by
  obtain ⟨hm, ht⟩ := h.unlocked hl
  have hr32 := hr.trans h.params.rmax_lt
  have hh := rows_bounded_setIfInBounds (P := fun j => j < s.params.rmax) h.params.nmax_le h.hRow hr32 hr v
  exact .of_parts (h.data.congr rfl) (NoConfig.configInv ⟨hm, ht⟩ hl h.gRow hh) (h.lifecycle.congr rfl)

theorem Inv.writeIbuf (h : s.Inv) {w : Nat} (hw : w < s.params.kmaxBits / 32) (v : Word) :
    ({ s with mem.ibuf := Bits.setWordAt s.mem.ibuf w v } : State).Inv :=
  .of_parts
    { params := h.params
      memory := writeIbuf_wf h.params.kmaxBits_mod h.memory hw v
      olen := h.olen
      loccnt := h.loccnt }
    (h.config.congr rfl) (h.lifecycle.congr rfl)

/-- R45, R47, R66, R100, R103, R216, R218: a host write keeps the invariant; the bus takes none during reset (R215). -/
theorem Inv.hostWrite (h : s.Inv) (hr : s.resetIn = false) (a : Nat) (v : Word) : (s.hostWrite a v).Inv := by
  rcases hostWrite_cases s a v with e | e | ⟨_, _, e⟩ | ⟨_, e⟩ | e | ⟨_, e⟩ | ⟨_, e⟩ |
    ⟨_, hl, e | ⟨i, hi, e⟩ | ⟨r, hr', e⟩⟩ | ⟨_, e | e | e | ⟨w, hw, e⟩⟩ <;> rw [e]
  · exact h
  · exact h.congr rfl rfl rfl
  · exact resetCore_inv h.params
  · exact h.writeIe hr _
  · exact h.clearW1C v
  · exact h.congr rfl rfl rfl
  · exact h.accept hr v
  · exact h.writeCfg hl _
  · exact h.writeGRow hl hi v
  · exact h.writeHRow hl hr' v
  · exact h.congr rfl rfl rfl
  · exact h.congr rfl rfl rfl
  · exact h.congr rfl rfl rfl
  · exact h.writeIbuf hw v

/-- R66: a read changes nothing the invariant speaks of. -/
theorem Inv.readIntoT (h : s.Inv) (a : Nat) : (s.readIntoT a).Inv := by
  have hread : (s.hostRead a).2.Inv := by
    rcases hostRead_snd s a with e | e <;> rw [e]
    · exact h
    · exact h.congr rfl rfl rfl
  exact hread.congr rfl rfl rfl

theorem Inv.hostStep (h : s.Inv) (hs : s.hostStep = .next t) : t.Inv := by
  rcases hostStep_cases hs with ⟨_, rfl⟩ | ⟨a, v, _, _, _, hr, rfl⟩ | ⟨a, _, _, _, _, rfl⟩
  · exact h.congr rfl rfl rfl
  · exact (h.hostWrite hr a _).congr rfl rfl rfl
  · exact (h.readIntoT a).congr rfl rfl rfl

/-! ## Commands: the buffers -/

theorem DataInv.writeObuf (h : s.DataInv) {out : Bits} (ho : out.length ≤ s.params.kmaxBits) :
    (s.writeObuf out).DataInv where
  params := h.params
  memory := writeObuf_wf h.memory ho
  olen := (Nat.mod_le _ _).trans ho
  loccnt := h.loccnt

theorem DataInv.writeLocbuf (h : s.DataInv) {positions : List Nat} (hp : positions.length ≤ s.params.kmaxBits) :
    (s.writeLocbuf positions).DataInv where
  params := h.params
  memory := writeLocbuf_wf h.memory hp
  olen := h.olen
  loccnt := (Nat.mod_le _ _).trans hp

theorem DataInv.transfer (h : s.DataInv) : s.transfer.DataInv where
  params := h.params
  memory := transfer_wf h.memory
  olen := h.olen
  loccnt := h.loccnt

/-- R5, R106: a built code is no longer than the shortest buffer. -/
theorem BuiltConfig.n_le_kmaxBits (h : s.BuiltConfig) (hp : s.params.Legal) : s.code.n ≤ s.params.kmaxBits := by
  obtain ⟨-, -, hn, -⟩ := h.inRange
  exact hn.trans hp.nmax_le_kmaxBits

theorem BuiltConfig.k_lt_n (h : s.BuiltConfig) : s.code.k < s.code.n := by
  obtain ⟨-, hkn, -⟩ := h.inRange
  exact hkn

/-- R166 law 4: the positions LOCATE reports fit LOCBUF. -/
theorem BuiltConfig.length_positions_le (h : s.BuiltConfig) (hp : s.params.Legal)
    (hl : s.input.length ≤ s.params.kmaxBits) :
    (s.code.globalPositions 0 (s.code.locateResults s.table s.input)).length ≤ s.params.kmaxBits := by
  obtain ⟨hk, hkn, -⟩ := h.inRange
  have hmod := hp.kmaxBits_mod
  rw [h.table]
  exact (s.code.length_located_le _ _).trans (two_mul_nblocks_le (by omega) hl (by omega))

/-- R193: no command writes past the end of a buffer. -/
theorem Inv.body_data (h : s.Inv) {i : Instr} (hb : bodyOf i s = .ok u) : u.DataInv := by
  have hd := h.data
  cases i with
  | nop => cases hb; exact hd
  | cfgBuild =>
    obtain ⟨_, _, _, l, _, rfl⟩ := cfgBuildBody_eq_ok_iff.1 hb
    exact hd.congr rfl
  | cfgUnlock => cases hb; exact hd.congr rfl
  | xfer => cases hb; exact hd.transfer
  | encBlk =>
    obtain ⟨hl, _, _, rfl⟩ := encBlkBody_eq_ok_iff.1 hb
    refine hd.writeObuf ?_
    rw [Code.length_enc]
    exact (h.locked hl).n_le_kmaxBits h.params
  | synBlk =>
    obtain ⟨hl, _, _, rfl⟩ := synBlkBody_eq_ok_iff.1 hb
    refine (hd.writeObuf (out := s.code.svec s.input) ?_).congr rfl
    rw [Code.length_svec]
    exact (Nat.sub_le _ _).trans ((h.locked hl).n_le_kmaxBits h.params)
  | decBlk =>
    obtain ⟨hl, _, _, rfl⟩ := decBlkBody_eq_ok_iff.1 hb
    refine (hd.writeObuf (out := s.code.decodeMessage s.mpos s.table s.input) ?_).congr rfl
    rw [Code.length_decodeMessage]
    exact (h.locked hl).k_lt_n.le.trans ((h.locked hl).n_le_kmaxBits h.params)
  | encKey =>
    obtain ⟨_, hle, hcap, rfl⟩ := encKeyBody_eq_ok_iff.1 hb
    refine hd.writeObuf ?_
    rwa [Code.length_encodeKey, length_input h.memory hle]
  | decKey orig =>
    obtain ⟨_, _, hcap, rfl⟩ := decKeyBody_eq_ok_iff.1 hb
    exact (hd.writeObuf ((List.length_take_le _ _).trans hcap)).congr rfl
  | locate orig =>
    obtain ⟨hl, hle, rfl⟩ := locateBody_eq_ok_iff.1 hb
    have hin := length_input h.memory hle
    have hpos := (h.locked hl).length_positions_le h.params (hin.trans_le hle)
    exact (hd.writeLocbuf ((List.length_filter_le _ _).trans hpos)).congr rfl
  | paCompress =>
    obtain ⟨_, hle, rfl⟩ := paCompressBody_eq_ok_iff.1 hb
    have hin := length_input h.memory hle
    exact (hd.writeObuf ((length_compressed_le s).trans (hin.trans_le hle))).congr rfl
  | paRecover seed =>
    obtain ⟨_, hle, hcap, rfl⟩ := paRecoverBody_eq_ok_iff.1 hb
    have hin := length_input h.memory hle
    rw [← hin] at hle hcap
    exact (hd.writeObuf (length_recovered_le seed hle hcap)).congr rfl

/-! ## Commands: the configuration -/

/-- R108, R110: MPOS[j] after the commit of a build. -/
theorem mpos_commitBuild {l : List Nat} (table : List (Option TblEntry)) (hl : l.length ≤ 32) (j : Nat) :
    (s.commitBuild l table).mpos[j]?.getD 0 = BitVec.ofNat 5 (l.getD j 0) := by
  rw [commitBuild_mpos]
  by_cases hj : j < 32
  · simp [hj]
  · simp [hj, show l.length ≤ j by omega]

/-- R105, R110: the commit after the checks of CFG_BUILD is a built configuration. -/
theorem builtConfig_commitBuild {l : List Nat} (hn : s.params.nmax ≤ 32) (hr : s.code.InRange s.params)
    (ho : s.code.Orthogonal) (hl : s.code.deriveMpos = some l) :
    (s.commitBuild l (s.code.buildTable s.params)).BuiltConfig := by
  obtain ⟨hlen, hpos⟩ := (Code.deriveMpos_eq_some_iff _ _).1 hl
  have ⟨_, hkn, hnn, _⟩ := hr
  refine ⟨hr, ho, fun j hj => ?_, fun j hj => ?_, rfl⟩
  · have hj : j < s.code.k := hj
    have hlt := (hpos j hj).1
    rw [mpos_commitBuild _ (by omega), BitVec.toNat_ofNat, Nat.mod_eq_of_lt (by omega)]
    exact hpos j hj
  · have hj : s.code.k ≤ j := hj
    rw [mpos_commitBuild _ (by omega), List.getD_eq_default _ _ (by omega)]
    rfl

theorem Inv.body_config (h : s.Inv) {i : Instr} (hb : bodyOf i s = .ok u) : u.ConfigInv := by
  have hc := h.config
  cases hi : needsConfig i with
  | true =>
    rw [body_frame hi hb]
    exact hc.congr rfl
  | false =>
    cases i <;> simp only [needsConfig, Bool.true_eq_false] at hi
    case nop => cases hb; exact hc
    case cfgBuild =>
      obtain ⟨_, hr, ho, l, hl, rfl⟩ := cfgBuildBody_eq_ok_iff.1 hb
      exact ⟨h.gRow, h.hRow, fun _ => builtConfig_commitBuild h.params.nmax_le hr ho hl, fun e => by cases e⟩
    case cfgUnlock =>
      cases hb
      exact ⟨h.gRow, h.hRow, fun e => (by cases e), fun _ => ⟨rfl, rfl⟩⟩
    case xfer => cases hb; exact hc.congr rfl

/-! ## Commands: the life cycle -/

theorem Inv.complete_lifecycle (h : s.Inv) (hp : s.Pending) {i : Instr} (hb : bodyOf i s = .ok u) :
    u.complete.LifecycleInv := by
  obtain ⟨hbusy, hreset⟩ := hp
  obtain ⟨-, herr, -⟩ := h.busy hbusy
  obtain ⟨-, -, -, -, -, hu, -⟩ := body_ok_keeps hb
  rw [← body_ok_err hb] at herr
  rw [← hu] at hreset
  refine ⟨fun e => (by cases e), ?_, ?_, ?_⟩
  · rw [complete_err, herr]
    exact fun _ => rfl
  · rw [complete_err, herr]
    exact fun e => absurd rfl e
  · rw [complete_resetIn, hreset]
    exact fun e => (by cases e)

theorem Inv.raiseError (h : s.Inv) (hp : s.Pending) {c : ErrCode} (hc : c ≠ .none) : (s.raiseError c).Inv :=
  .of_parts (h.data.congr rfl) (h.config.congr rfl)
    { busy := fun e => by cases e
      noErr := fun e => absurd e hc
      errSoft := fun _ => (h.busy hp.1).2.2
      reset := fun e => absurd (hp.2.symm.trans e) Bool.false_ne_true }

theorem Inv.exec (h : s.Inv) (hp : s.Pending) {i : Instr} (he : exec i s = .next t) : t.Inv := by
  rcases (exec_eq_next_iff i s t).1 he with ⟨u, hb, rfl⟩ | ⟨c, hb, rfl⟩
  · exact .of_parts ((h.body_data hb).congr rfl) ((h.body_config hb).congr rfl) (h.complete_lifecycle hp hb)
  · exact h.raiseError hp (body_error_ne_none hb)

theorem Inv.coreStep (h : s.Inv) (hs : coreStep s = .next t) : t.Inv := by
  rcases coreStep_cases s with ⟨_, e⟩ | ⟨i, hp, _, e⟩ | ⟨_, hp, _, e⟩ <;> rw [e] at hs
  · cases hs; exact h
  · exact h.exec hp hs
  · cases hs; exact h.raiseError hp (by decide)

end Invariant

/-- Settles O55: a step is a host step, the core's step or an edge of the reset input, on a state with a turn less, and
each of them keeps the invariant. -/
theorem everyStepKeepsInvariant : Obligations.EveryStepKeepsInvariant := by
  intro s t h hs
  obtain ⟨q, hq⟩ := step_cases s
  have h' : ({ s with sched := q } : State).Inv := h.congr rfl rfl rfl
  rcases hq with e | e | e | e <;> rw [e] at hs
  · exact h'.hostStep hs
  · exact h'.coreStep hs
  · cases hs
    rw [assertReset_eq_resetCore]
    exact resetCore_inv h.params
  · cases hs
    rcases releaseReset_cases { s with sched := q } with e | e <;> rw [e]
    · exact h'
    · exact resetCore_inv h.params

/-! ## What reset leaves -/

theorem resetCore_atReset (s : State) : s.resetCore.AtReset where
  status := rfl
  ie := rfl
  err := rfl
  pend := rfl
  cfg := rfl
  gRow := getElem?_replicate_getD 32 0
  hRow := getElem?_replicate_getD 32 0
  mpos := getElem?_replicate_getD 32 0
  table := ⟨List.length_replicate, getD_replicate_none _⟩
  lengths := ⟨rfl, rfl, rfl⟩
  results := ⟨rfl, rfl, rfl, rfl, rfl, rfl⟩
  tblIdx := rfl
  memory := s.resetCore_wf
  irq := rfl

/-- The state after reset is what a reset leaves that takes the first three draws. -/
theorem reset_eq_resetCore : reset = ({ reset with draws := 0 } : State).resetCore := rfl

/-- R216: a write of 1 to SRST is a soft reset. -/
theorem hostWrite_srst {v : Word} (hv : v.getLsbD 1 = true) (s : State) : s.hostWrite 0x008 v = s.resetCore := by
  show s.writeCtrl v = s.resetCore
  rw [writeCtrl, if_pos hv]

/-- R192: a data command in an unconfigured core. -/
theorem exec_of_unlocked {s : State} {i : Instr} (hi : needsConfig i = true) (hl : s.status.locked = false) :
    Machine.exec i s = .next (s.failedWith .notConfigured) := by
  have hb : bodyOf i s = .error .notConfigured := by
    cases i <;> simp only [needsConfig, Bool.false_eq_true] at hi <;> exact if_pos hl
  rw [exec_eq_runCommand, runCommand_error hb]
  rfl

theorem AtReset.exec_eq_failedWith {s : State} (h : s.AtReset) (i : Instr) (hi : needsConfig i = true) :
    Machine.exec i s = .next (s.failedWith .notConfigured) :=
  exec_of_unlocked hi (by rw [h.status])

/-- R22, R46: ID and PARAM after a reset are those before, and no data command is configured. -/
theorem resetCore_leaves (s : State) :
    s.resetCore.AtReset ∧ s.resetCore.windowWord 0x000 = s.windowWord 0x000 ∧
      s.resetCore.windowWord 0x004 = s.windowWord 0x004 ∧
      ∀ i, needsConfig i = true → exec i s.resetCore = .next (s.resetCore.failedWith .notConfigured) :=
  ⟨resetCore_atReset s, rfl, rfl, (resetCore_atReset s).exec_eq_failedWith⟩

/-- Settles O44: every reset is `resetCore`, which keeps the parameters and leaves the core unconfigured. -/
theorem resetStateIsAtReset : Obligations.ResetStateIsAtReset := by
  have hreset : reset.AtReset := reset_eq_resetCore ▸ resetCore_atReset _
  refine ⟨hreset, rfl, rfl, by decide, hreset.exec_eq_failedWith, fun s v hv => ?_, fun s => ?_⟩
  · rw [hostWrite_srst hv]
    exact resetCore_leaves s
  · exact ⟨_, rfl, resetCore_leaves { s with resetIn := true }⟩

end Sys2Proof.Machine.State
end

section
/-! PROOFS of the family 10_state: the words of the registers and what a host write does to them (O39, O40, O41, O42,
O45, O46, O47, O51, O52), the invariant at reset (O54), and the locked configuration along a step (O17). -/

namespace Sys2Proof.Params.Legal

variable {p : Params}

theorem gRow_slot_lt (h : p.Legal) {i : Nat} (hi : i + 1 < p.nmax) : i < 32 := by
  have := h.nmax_le
  omega

theorem hRow_slot_lt (h : p.Legal) {r : Nat} (hr : r < p.rmax) : r < 32 := hr.trans h.rmax_lt

theorem kmaxBits_le (h : p.Legal) : p.kmaxBits ≤ 16384 := by
  obtain ⟨-, -, -, -, hk⟩ := h
  exact hk

theorem ibuf_slot_lt (h : p.Legal) {w : Nat} (hw : w < p.kmaxBits / 32) : w < 0x1000 := by
  have := h.kmaxBits_le
  omega

end Sys2Proof.Params.Legal

namespace Sys2Proof.Machine

/-! ## Packed words -/

namespace Bits

/-- R62: a vector of at most 32 bits is packed without loss. -/
theorem getLsbD_toWord_of_length_le {v : Bits} (h : v.length ≤ 32) (i : Nat) : (toWord v).getLsbD i = bit v i := by
  rw [getLsbD_toWord]
  by_cases hi : i < 32
  · simp [hi]
  · simp [hi, bit_of_length_le (h.trans (Nat.not_lt.1 hi))]

theorem toNat_toWord_of_length_le {v : Bits} (h : v.length ≤ 32) : (toWord v).toNat = toNat v := by
  rw [toWord, BitVec.toNat_ofNat]
  exact Nat.mod_eq_of_lt ((toNat_lt v).trans_le (Nat.pow_le_pow_right (by decide) h))

/-- R62: which bits a word write sets, by word index and bit index. -/
theorem bit_setWordAt_div {v : Bits} {w : Nat} (h : 32 * w + 32 ≤ v.length) (x : Word) (i : Nat) :
    bit (setWordAt v w x) i = if i / 32 = w then x.getLsbD (i % 32) else bit v i := by
  rw [bit_setWordAt h]
  by_cases hi : i / 32 = w
  · rw [if_pos hi, if_pos (by omega), show i - 32 * w = i % 32 by omega]
  · rw [if_neg hi, if_neg (by omega)]

end Bits

/-! ## The map at the slots that exist, and at the places that do not -/

section Map

variable {p : Params}

theorem regAt_gRow_of_lt (hp : p.Legal) {i : Nat} (hi : i + 1 < p.nmax) : regAt p (0x100 + 4 * i) = .gRow i := by
  rw [regAt_gRow p (hp.gRow_slot_lt hi), if_pos hi]

theorem regAt_hRow_of_lt (hp : p.Legal) {r : Nat} (hr : r < p.rmax) : regAt p (0x180 + 4 * r) = .hRow r := by
  rw [regAt_hRow p (hp.hRow_slot_lt hr), if_pos hr]

theorem regAt_mpos_of_lt (hp : p.Legal) {j : Nat} (hj : j + 1 < p.nmax) : regAt p (0x200 + 4 * j) = .mpos j := by
  rw [regAt_mpos p (hp.gRow_slot_lt hj), if_pos hj]

theorem regAt_ibuf_of_lt (hp : p.Legal) {w : Nat} (hw : w < p.kmaxBits / 32) :
    regAt p (0x4000 + 4 * w) = .ibuf w := by
  rw [regAt_ibuf p (hp.ibuf_slot_lt hw), if_pos hw]

/-- R28: past the last G_ROW slot. -/
theorem regAt_missing_gRow {a : Nat} (ha : a % 4 = 0) (hlo : 0x100 + 4 * (p.nmax - 1) ≤ a) (hhi : a < 0x180) :
    regAt p a = .reserved := by
  obtain ⟨i, rfl⟩ : ∃ i, a = 0x100 + 4 * i := ⟨(a - 0x100) / 4, by omega⟩
  rw [regAt_gRow p (by omega), if_neg (by omega)]

/-- R29: past the last H_ROW slot. -/
theorem regAt_missing_hRow {a : Nat} (ha : a % 4 = 0) (hlo : 0x180 + 4 * p.rmax ≤ a) (hhi : a < 0x200) :
    regAt p a = .reserved := by
  obtain ⟨r, rfl⟩ : ∃ r, a = 0x180 + 4 * r := ⟨(a - 0x180) / 4, by omega⟩
  rw [regAt_hRow p (by omega), if_neg (by omega)]

/-- R30: past the last MPOS slot. -/
theorem regAt_missing_mpos {a : Nat} (ha : a % 4 = 0) (hlo : 0x200 + 4 * (p.nmax - 1) ≤ a) (hhi : a < 0x280) :
    regAt p a = .reserved := by
  obtain ⟨j, rfl⟩ : ∃ j, a = 0x200 + 4 * j := ⟨(a - 0x200) / 4, by omega⟩
  rw [regAt_mpos p (by omega), if_neg (by omega)]

/-- R39: past the end of IBUF. -/
theorem regAt_missing_ibuf (hp : p.Legal) {a : Nat} (ha : a % 4 = 0) (hlo : 0x4000 + p.kmaxBits / 8 ≤ a)
    (hhi : a < 0x8000) : regAt p a = .reserved := by
  have := hp.kmaxBits_mod
  obtain ⟨w, rfl⟩ : ∃ w, a = 0x4000 + 4 * w := ⟨(a - 0x4000) / 4, by omega⟩
  rw [regAt_ibuf p (by omega), if_neg (by omega)]

/-- R40: past the end of OBUF. -/
theorem regAt_missing_obuf (hp : p.Legal) {a : Nat} (ha : a % 4 = 0) (hlo : 0x8000 + p.kmaxBits / 8 ≤ a)
    (hhi : a < 0x10000) : regAt p a = .reserved := by
  have := hp.kmaxBits_mod
  obtain ⟨w, rfl⟩ : ∃ w, a = 0x8000 + 4 * w := ⟨(a - 0x8000) / 4, by omega⟩
  rw [regAt_obuf p (by omega), if_neg (by omega)]

/-- R41: past the end of LOCBUF. -/
theorem regAt_missing_locbuf {a : Nat} (ha : a % 4 = 0) (hlo : 0x10000 + 4 * p.kmaxBits ≤ a) (hhi : a < 0x20000) :
    regAt p a = .reserved := by
  obtain ⟨e, rfl⟩ : ∃ e, a = 0x10000 + 4 * e := ⟨(a - 0x10000) / 4, by omega⟩
  rw [regAt_locbuf p (by omega), if_neg (by omega)]

end Map

namespace State

/-! ## The words of the registers -/

section Words

variable {s : State}

/-- R23, R191: of the error codes only NONE is 0. -/
theorem errf_eq_decide (s : State) : s.errf = decide (s.err.code ≠ .none) := by
  unfold errf
  cases s.err.code <;> rfl

/-- R23. -/
theorem getLsbD_statusWord (s : State) (b : Nat) :
    s.statusWord.getLsbD b =
      Bits.bit [s.status.busy, s.status.done, s.errf, s.status.uncorr, s.status.underlen, s.status.ovr, s.status.wign,
        s.status.locked] b :=
  Bits.getLsbD_toWord_of_length_le (by simp) b

/-- R24. -/
theorem toNat_ctrlWord (s : State) : s.ctrlWord.toNat = s.ie.toNat := by
  rw [ctrlWord, Bits.toNat_toWord_of_length_le (by simp)]
  simp [Bits.toNat]

/-- R22. -/
theorem toNat_paramWord (hp : s.params.Legal) :
    s.paramWord.toNat = s.params.nmax + s.params.rmax * 2 ^ 8 + s.params.kmaxBits / 32 * 2 ^ 16 := by
  have hn := hp.nmax_le
  have hr := hp.rmax_lt
  have hk := hp.kmaxBits_le
  rw [paramWord, BitVec.toNat_ofNat]
  omega

/-- R25. -/
theorem toNat_errWord (s : State) : s.errWord.toNat = s.err.code.number.toNat + s.err.opc.toNat * 2 ^ 8 := by
  have hc := s.err.code.number.isLt
  have ho := s.err.opc.isLt
  rw [errWord, BitVec.toNat_ofNat]
  omega

/-- R27. -/
theorem toNat_cfgWord (s : State) :
    s.cfgWord.toNat = s.cfg.n.toNat + s.cfg.k.toNat * 2 ^ 8 + s.cfg.pa.toNat * 2 ^ 16 := by
  have hn := s.cfg.n.isLt
  have hk := s.cfg.k.isLt
  have hpa := s.cfg.pa.toNat_le
  rw [cfgWord, BitVec.toNat_ofNat]
  omega

/-- R30. -/
theorem toNat_mposWord (s : State) (j : Nat) :
    (s.mposWord j).toNat = if s.status.locked = true ∧ j < s.code.k then (s.mpos[j]?.getD 0).toNat else 0 := by
  unfold mposWord
  split
  · exact BitVec.toNat_setWidth_of_le (by decide)
  · rfl

/-- R38: the entry that TBL_IDX selects. -/
theorem tableWindow_of_lt (h : s.tblIdx.toNat < 2 ^ s.code.r) : s.tableWindow = s.table.getD s.tblIdx.toNat none :=
  if_pos h

/-- R38: no entry is selected. -/
theorem tableWindow_eq_none (hu : s.status.locked = false → s.NoConfig)
    (h : s.status.locked = false ∨ 2 ^ s.code.r ≤ s.tblIdx.toNat ∨ s.table.getD s.tblIdx.toNat none = none) :
    s.tableWindow = none := by
  have hempty (hn : s.table.getD s.tblIdx.toNat none = none) : s.tableWindow = none := by
    rw [tableWindow, hn, ite_self]
  rcases h with hl | hr | hn
  · exact hempty (by rw [(hu hl).table, getD_replicate_none])
  · exact if_neg (Nat.not_lt.2 hr)
  · exact hempty hn

theorem tblPatWord_of_some {e : TblEntry} (h : s.tableWindow = some e) : s.tblPatWord = Bits.toWord e.pattern := by
  rw [tblPatWord, h]

theorem toNat_tblInfoWord_of_some {e : TblEntry} (hl : s.status.locked = true) (h : s.tableWindow = some e) :
    s.tblInfoWord.toNat = 1 + 2 * e.weight.toNat := by
  have hw := e.weight.isLt
  rw [tblInfoWord, h]
  simp only [hl, if_true, BitVec.toNat_ofNat]
  omega

theorem tblWords_of_none (h : s.tableWindow = none) : s.tblPatWord = 0 ∧ s.tblInfoWord = 0 := by
  rw [tblPatWord, tblInfoWord, h]
  exact ⟨rfl, rfl⟩

theorem windowWord_of_regAt {a : Nat} {r : Reg} (h : regAt s.params a = r) : s.windowWord a = s.readReg r := by
  rw [windowWord, h]

end Words

/-! ## Host writes

At the fixed offset of a control register the map computes, so a write there is its arm of `writeReg` by definition; the
slots need the parameters. -/

section Writes

variable {s : State}

theorem hostWrite_of_regAt {a : Nat} {r : Reg} (h : regAt s.params a = r) (v : Word) :
    s.hostWrite a v = s.writeReg r v := by
  rw [hostWrite, h]

theorem unlessBusy_of_busy (h : s.status.busy = true) (t : State) : s.unlessBusy t = s.setWign := if_pos h

theorem unlessBusy_of_idle (h : s.status.busy = false) (t : State) : s.unlessBusy t = t := by
  rw [unlessBusy, h, if_neg Bool.false_ne_true]

theorem unlessFrozen_of_frozen (h : s.status.busy = true ∨ s.status.locked = true) (t : State) :
    s.unlessFrozen t = s.setWign :=
  if_pos (Bool.or_eq_true_iff.2 h)

theorem unlessFrozen_of_open (hb : s.status.busy = false) (hl : s.status.locked = false) (t : State) :
    s.unlessFrozen t = t := by
  rw [unlessFrozen, hb, hl, Bool.or_self, if_neg Bool.false_ne_true]

/-- R28, R45. -/
theorem hostWrite_gRow (hp : s.params.Legal) {i : Nat} (hi : i + 1 < s.params.nmax) (v : Word) :
    s.hostWrite (0x100 + 4 * i) v = s.unlessFrozen { s with gRow := s.gRow.setIfInBounds i (s.rowValue v) } :=
  hostWrite_of_regAt (regAt_gRow_of_lt hp hi) v

/-- R29, R45. -/
theorem hostWrite_hRow (hp : s.params.Legal) {r : Nat} (hr : r < s.params.rmax) (v : Word) :
    s.hostWrite (0x180 + 4 * r) v = s.unlessFrozen { s with hRow := s.hRow.setIfInBounds r (s.rowValue v) } :=
  hostWrite_of_regAt (regAt_hRow_of_lt hp hr) v

/-- R39, R218. -/
theorem hostWrite_ibuf (hp : s.params.Legal) {w : Nat} (hw : w < s.params.kmaxBits / 32) (v : Word) :
    s.hostWrite (0x4000 + 4 * w) v = s.unlessBusy { s with mem.ibuf := Bits.setWordAt s.mem.ibuf w v } :=
  hostWrite_of_regAt (regAt_ibuf_of_lt hp hw) v

/-- R24, R216: a write of 0 to SRST. -/
theorem hostWrite_ctrl_ie {v : Word} (hv : v.getLsbD 1 = false) (s : State) :
    s.hostWrite 0x008 v = { s with ie := v.getLsbD 0 } :=
  if_neg (ne_true_of_eq_false hv)

/-- R26, R100. -/
theorem hostWrite_cmd_of_idle (h : s.status.busy = false) (w : Word) : s.hostWrite 0x014 w = s.accept w :=
  if_neg (ne_true_of_eq_false h)

/-- R28, R29: the bits of the rows after a write to slot `i`, below NMAX and above. -/
theorem rowBit_writeRow (hn : s.params.nmax ≤ 32) (rows : Vector Word 32) {i : Nat} (hi : i < 32) (v : Word)
    (j p : Nat) :
    rowBit (rows.setIfInBounds i (s.rowValue v)) j p =
      if j = i then decide (p < s.params.nmax) && v.getLsbD p else rowBit rows j p := by
  rw [rowBit_setIfInBounds rows hi, getLsbD_rowValue hn]

/-- R65: what a reserved place does, written and read, busy or not. -/
theorem reserved_place {a : Nat} (h : regAt s.params a = .reserved) (v : Word) :
    s.hostWrite a v = s ∧ s.windowWord a = 0 ∧ s.hostRead a = (0, s) :=
  ⟨hostWrite_of_regAt h v, windowWord_of_regAt h, hostRead_reserved h⟩

/-- R47: the read-only control registers. -/
theorem hostWrite_readOnly (s : State) (v : Word) :
    ∀ a ∈ [0x000, 0x004, 0x010, 0x024, 0x028, 0x02C, 0x030, 0x034, 0x038, 0x03C, 0x044, 0x048],
      s.hostWrite a v = s := by
  simp only [List.forall_mem_cons]
  exact ⟨rfl, rfl, rfl, rfl, rfl, rfl, rfl, rfl, rfl, rfl, rfl, rfl, nofun⟩

/-- R30, R47: MPOS is read-only, at slots that exist and at missing ones. -/
theorem hostWrite_mpos {a : Nat} (ha : a % 4 = 0) (hlo : 0x200 ≤ a) (hhi : a < 0x280) (v : Word) :
    s.hostWrite a v = s := by
  obtain ⟨j, rfl⟩ : ∃ j, a = 0x200 + 4 * j := ⟨(a - 0x200) / 4, by omega⟩
  rw [hostWrite, regAt_mpos _ (by omega)]
  split <;> rfl

/-- R40, R41, R47: OBUF and LOCBUF are read-only, at words that exist and at missing ones. -/
theorem hostWrite_outputs {a : Nat} (ha : a % 4 = 0) (hlo : 0x8000 ≤ a) (hhi : a < 0x20000) (v : Word) :
    s.hostWrite a v = s := by
  by_cases hobuf : a < 0x10000
  · obtain ⟨w, rfl⟩ : ∃ w, a = 0x8000 + 4 * w := ⟨(a - 0x8000) / 4, by omega⟩
    rw [hostWrite, regAt_obuf _ (by omega)]
    split <;> rfl
  · obtain ⟨e, rfl⟩ : ∃ e, a = 0x10000 + 4 * e := ⟨(a - 0x10000) / 4, by omega⟩
    rw [hostWrite, regAt_locbuf _ (by omega)]
    split <;> rfl

end Writes

/-! ## A step of a locked core -/

section Locked

variable {s t u : State}

/-- R45, R216: a host write leaves a locked configuration alone, unless it is a soft reset. -/
theorem hostWrite_of_locked (hl : s.status.locked = true) (a : Nat) (v : Word) :
    (s.hostWrite a v).configFields = s.configFields ∨ s.hostWrite a v = s.resetCore := by
  rcases hostWrite_cases s a v with e | e | ⟨_, _, e⟩ | ⟨_, e⟩ | e | ⟨_, e⟩ | ⟨_, e⟩ | ⟨_, hu, _⟩ |
    ⟨_, e | e | e | ⟨_, _, e⟩⟩
  case inr.inr.inl => exact .inr e
  case inr.inr.inr.inr.inr.inr.inr.inl => exact absurd (hu.symm.trans hl) Bool.false_ne_true
  all_goals
    rw [e]
    exact .inl rfl

/-- R66: a read leaves the configuration alone. -/
theorem configFields_readIntoT (s : State) (a : Nat) : (s.readIntoT a).configFields = s.configFields := by
  show (s.hostRead a).2.configFields = s.configFields
  rcases hostRead_snd s a with e | e <;> rw [e]
  rfl

theorem hostStep_of_locked (hl : s.status.locked = true) (hs : s.hostStep = .next t) :
    t.configFields = s.configFields ∨ t.AtReset := by
  rcases hostStep_cases hs with ⟨_, rfl⟩ | ⟨a, v, _, _, _, _, rfl⟩ | ⟨a, _, _, _, _, rfl⟩
  · exact .inl rfl
  · rcases hostWrite_of_locked hl a (s.hostVal v) with e | e
    · exact .inl e
    · rw [e]
      exact .inr (resetCore_atReset s.hostNext)
  · exact .inl (configFields_readIntoT s a)

/-- R105, R111: of the commands that succeed in a locked core only CFG_UNLOCK touches the configuration. -/
theorem body_of_locked (hl : s.status.locked = true) {i : Instr} (hb : bodyOf i s = .ok u) :
    u.configFields = s.configFields ∨ (i = .cfgUnlock ∧ u = s.unlock) := by
  cases hi : needsConfig i with
  | true =>
    rw [body_frame hi hb]
    exact .inl rfl
  | false =>
    cases i <;> simp only [needsConfig, Bool.true_eq_false] at hi
    case nop => cases hb; exact .inl rfl
    case cfgBuild =>
      obtain ⟨hu, _⟩ := cfgBuildBody_eq_ok_iff.1 hb
      rw [hl] at hu
      cases hu
    case cfgUnlock => cases hb; exact .inr ⟨rfl, rfl⟩
    case xfer => cases hb; exact .inl rfl

theorem coreStep_of_locked (hl : s.status.locked = true) (hs : coreStep s = .next t) :
    t.configFields = s.configFields ∨
      (s.Pending ∧ decode s.pend = .ok .cfgUnlock ∧ t = s.unlock.complete) := by
  rcases coreStep_cases s with ⟨_, e⟩ | ⟨i, hp, hd, e⟩ | ⟨_, _, _, e⟩ <;> rw [e] at hs
  · cases hs; exact .inl rfl
  · rcases (exec_eq_next_iff i s t).1 hs with ⟨u, hb, rfl⟩ | ⟨_, _, rfl⟩
    · rcases body_of_locked hl hb with e | ⟨rfl, rfl⟩
      · exact .inl e
      · exact .inr ⟨hp, hd, rfl⟩
    · exact .inl rfl
  · cases hs; exact .inl rfl

/-- R110, R111, R215, R216: what a step can do to a locked configuration. -/
theorem step_of_locked (hl : s.status.locked = true) (hs : step s = .next t) :
    t.configFields = s.configFields ∨
      (s.Pending ∧ decode s.pend = .ok .cfgUnlock ∧ ∃ q, t = ({ s with sched := q } : State).unlock.complete) ∨
      t.AtReset := by
  obtain ⟨q, hq⟩ := step_cases s
  rcases hq with e | e | e | e <;> rw [e] at hs
  · exact (hostStep_of_locked (s := { s with sched := q }) hl hs).imp_right .inr
  · rcases coreStep_of_locked (s := { s with sched := q }) hl hs with h | ⟨hp, hd, ht⟩
    · exact .inl h
    · exact .inr (.inl ⟨hp, hd, q, ht⟩)
  · cases hs
    exact .inr (.inr (resetCore_atReset { s with sched := q, resetIn := true }))
  · cases hs
    rcases releaseReset_cases { s with sched := q } with e | e <;> rw [e]
    · exact .inl rfl
    · exact .inr (.inr (resetCore_atReset _))

end Locked

/-! ## The obligations -/

/-- Settles O17: a step keeps the fields of a locked configuration, runs CFG_UNLOCK or resets the core. -/
theorem lockedConfigurationIsFrozen : Obligations.LockedConfigurationIsFrozen := by
  intro s t _ hl hs
  rcases step_of_locked hl hs with e | ⟨hp, hd, q, rfl⟩ | h
  · simp only [configFields, Prod.mk.injEq] at e
    obtain ⟨-, hlt, hc, hg, hh, hm, ht⟩ := e
    exact .inl ⟨hlt.trans hl, hc, hg, hh, hm, ht⟩
  · exact .inr (.inl ⟨rfl, hp, hd, rfl, rfl, rfl⟩)
  · exact .inr (.inr h)

/-- Settles O45: the three kinds of configuration register share the guard `unlessFrozen`. -/
theorem configurationWritesAndLock : Obligations.ConfigurationWritesAndLock := by
  intro s v hp
  refine ⟨fun hf => ⟨?_, fun i hi => ?_, fun r hr => ?_⟩, fun hb hl => ⟨?_, fun i hi => ?_, fun r hr => ?_⟩⟩
  · exact unlessFrozen_of_frozen hf _
  · exact (hostWrite_gRow hp hi v).trans (unlessFrozen_of_frozen hf _)
  · exact (hostWrite_hRow hp hr v).trans (unlessFrozen_of_frozen hf _)
  · exact unlessFrozen_of_open hb hl _
  · rw [hostWrite_gRow hp hi, unlessFrozen_of_open hb hl]
    exact ⟨rfl, rowBit_writeRow hp.nmax_le s.gRow (hp.gRow_slot_lt hi) v⟩
  · rw [hostWrite_hRow hp hr, unlessFrozen_of_open hb hl]
    exact ⟨rfl, rowBit_writeRow hp.nmax_le s.hRow (hp.hRow_slot_lt hr) v⟩

/-- Settles O46: the four kinds of input share the guard `unlessBusy`. -/
theorem inputWrites : Obligations.InputWrites := by
  intro s v hp hm
  refine ⟨fun hb a ha => ?_, fun hb => ⟨?_, ?_, ?_, fun w hw => ?_⟩⟩
  · rcases ha with rfl | rfl | rfl | ⟨w, hw, rfl⟩
    · exact unlessBusy_of_busy hb _
    · exact unlessBusy_of_busy hb _
    · exact unlessBusy_of_busy hb _
    · exact (hostWrite_ibuf hp hw v).trans (unlessBusy_of_busy hb _)
  · exact unlessBusy_of_idle hb _
  · exact unlessBusy_of_idle hb _
  · exact unlessBusy_of_idle hb _
  · obtain ⟨hibuf, -⟩ := (Memory.wf_iff _ _).1 hm
    have hfit : 32 * w + 32 ≤ s.mem.ibuf.length := by omega
    rw [hostWrite_ibuf hp hw, unlessBusy_of_idle hb]
    exact ⟨rfl, writeIbuf_wf hp.kmaxBits_mod hm hw v, Bits.bit_setWordAt_div hfit v⟩

/-- Settles O47: what the second part lists is reserved in the map. -/
theorem readOnlyAndReservedSpace : Obligations.ReadOnlyAndReservedSpace := by
  intro s a v hp ha hwin
  constructor
  · rintro (h | ⟨hlo, hhi⟩ | hlo)
    · exact hostWrite_readOnly s v a h
    · exact hostWrite_mpos ha hlo hhi v
    · exact hostWrite_outputs ha hlo hwin v
  · rintro (h | h | ⟨hlo, hhi⟩ | ⟨hlo, hhi⟩ | ⟨hlo, hhi⟩ | ⟨hlo, hhi⟩ | ⟨hlo, hhi⟩ | hlo) <;> refine reserved_place ?_ v
    · exact regAt_gap _ (.inl h)
    · exact regAt_gap _ (.inr h)
    · exact regAt_missing_gRow ha hlo hhi
    · exact regAt_missing_hRow ha hlo hhi
    · exact regAt_missing_mpos ha hlo hhi
    · exact regAt_missing_ibuf hp ha hlo hhi
    · exact regAt_missing_obuf hp ha hlo hhi
    · exact regAt_missing_locbuf ha hlo hwin

/-- Settles O52: TBL_PAT and TBL_INFO show the entry of `tableWindow`, and an unlocked core has none. -/
theorem derivedConfigurationReadback : Obligations.DerivedConfigurationReadback := by
  intro s h
  refine ⟨fun j hj => ?_, fun e hl hidx he => ?_, fun hnone => ?_⟩
  · rw [windowWord_of_regAt (regAt_mpos_of_lt h.params hj)]
    exact toNat_mposWord s j
  · have hw : s.tableWindow = some e := (tableWindow_of_lt hidx).trans he
    exact ⟨tblPatWord_of_some hw, toNat_tblInfoWord_of_some hl hw⟩
  · exact tblWords_of_none (tableWindow_eq_none h.unlocked hnone)

/-- Settles O39: the map gives STATUS at 0x00C, whose write is `clearW1C`. -/
theorem statusWriteOneToClear : Obligations.StatusWriteOneToClear := fun _ _ => rfl

/-- Settles O40: bit by bit from the list that the STATUS word packs. -/
theorem statusWordLayout : Obligations.StatusWordLayout := by
  intro s
  have hbit := getLsbD_statusWord s
  refine ⟨hbit 0, hbit 1, ?_, hbit 3, hbit 4, hbit 5, hbit 6, hbit 7, fun b hb => ?_⟩
  · exact (hbit 2).trans (errf_eq_decide s)
  · exact (hbit b).trans (Bits.bit_of_length_le hb)

/-- Settles O41: each write changes DONE or IE, and IRQ is computed from them. -/
theorem interruptFollowsDoneAndEnable : Obligations.InterruptFollowsDoneAndEnable := by
  refine fun s => ⟨rfl, fun v hv => ?_, fun w hb => ?_, fun v hv => ?_, fun v hv => ?_⟩
  · rw [statusWriteOneToClear s v, irq]
    simp [hv]
  · rw [hostWrite_cmd_of_idle hb]
    rfl
  · rw [hostWrite_srst hv]
    rfl
  · rw [hostWrite_ctrl_ie hv]
    rfl

/-- Settles O42: with SRST the write is `resetCore`, which leaves BUSY = 0, so EXEC is not enabled. -/
theorem controlWriteAndSoftReset : Obligations.ControlWriteAndSoftReset := by
  refine fun s v => ⟨toNat_ctrlWord s, fun hv => hostWrite_ctrl_ie hv s, fun hv => ?_⟩
  rw [hostWrite_srst hv]
  exact ⟨resetCore_atReset s, rfl, rfl, rfl, rfl, if_neg (by simp)⟩

/-- Settles O51: a register stored in a 32-bit field reads as that field; the packed words do not overflow. -/
theorem registerReadback : Obligations.RegisterReadback := fun s hp =>
  ⟨rfl, toNat_paramWord hp, toNat_ctrlWord s, toNat_errWord s, rfl, toNat_cfgWord s, rfl, rfl, rfl,
    BitVec.toNat_setWidth_of_le (by decide), rfl, rfl, rfl, rfl, rfl, BitVec.toNat_setWidth_of_le (by decide),
    fun _ hi => windowWord_of_regAt (regAt_gRow_of_lt hp hi), fun _ hr => windowWord_of_regAt (regAt_hRow_of_lt hp hr)⟩

/-- Settles O54: the state after reset is what a reset leaves, with the default parameters, which are legal (R5). -/
theorem invariantHoldsAtReset : Obligations.InvariantHoldsAtReset := by
  unfold Obligations.InvariantHoldsAtReset
  rw [reset_eq_resetCore]
  exact resetCore_inv (by decide)

end State

end Sys2Proof.Machine
end

section
/-! PROOFS of the family 20_memory: accesses and reads on the bus (O53, O48), the packing of the buffers (O50), what is
refused (O56), and what the host can and cannot do to a pending command (O57, O58). -/

namespace Sys2Proof.Machine

/-! ## Words of the buffers -/

/-- R62: bit i of a bit buffer stands in its word ⌊i/32⌋. -/
theorem Bits.getLsbD_wordAt_div (v : Bits) (i : Nat) : (wordAt v (i / 32)).getLsbD (i % 32) = bit v i := by
  have hlt : i % 32 < 32 := Nat.mod_lt _ (by decide)
  rw [wordAt, getLsbD_toWord, bit_slice, Nat.div_add_mod]
  simp [hlt]

section Map

variable {p : Params}

theorem regAt_obuf_of_lt (hp : p.Legal) {w : Nat} (hw : w < p.kmaxBits / 32) : regAt p (0x8000 + 4 * w) = .obuf w := by
  have := hp.ibuf_slot_lt hw
  rw [regAt_obuf p (by omega), if_pos hw]

theorem regAt_locbuf_of_lt (hp : p.Legal) {e : Nat} (he : e < p.kmaxBits) : regAt p (0x10000 + 4 * e) = .locbuf e := by
  rw [regAt_locbuf p (he.trans_le hp.kmaxBits_le), if_pos he]

end Map

namespace State

/-- R63: byte lane b of the aligned word at `a`. -/
theorem windowByte_add (s : State) {a b : Nat} (ha : a % 4 = 0) (hb : b < 4) :
    s.windowByte (a + b) = (s.windowWord a).extractLsb' (8 * b) 8 := by
  have hlane : (a + b) % 4 = b := by omega
  rw [windowByte, hlane, Nat.add_sub_cancel]

/-! ## Bus accesses -/

theorem accessDefined_iff {a width : Nat} :
    accessDefined a width = true ↔ width = 4 ∧ a % 4 = 0 ∧ a < 0x20000 := by
  simp [accessDefined, and_assoc]

section Access

variable {s : State} {a width : Nat}

/-- R64, U4. -/
theorem hostAccess_of_undefined (hr : s.resetIn = false) (h : width ≠ 4 ∨ a % 4 ≠ 0 ∨ 0x20000 ≤ a)
    (effect : State → State) : s.hostAccess a width effect = .refused (.undefinedAccess a width) := by
  have hd : ¬ accessDefined a width = true := by
    rw [accessDefined_iff]
    omega
  rw [hostAccess, hr, if_neg Bool.false_ne_true, if_pos (Bool.not_eq_true _ ▸ hd)]

/-- R64. -/
theorem hostAccess_of_defined (hr : s.resetIn = false) (hw : width = 4) (ha : a % 4 = 0) (hwin : a < 0x20000)
    (effect : State → State) : s.hostAccess a width effect = .next (effect s).hostNext := by
  have hd : accessDefined a width = true := accessDefined_iff.2 ⟨hw, ha, hwin⟩
  rw [hostAccess, hr, hd, if_neg Bool.false_ne_true, if_neg Bool.false_ne_true.symm]

end Access

/-! ## What a step can be refused for -/

theorem coreStep_runs (s : State) : ∃ t, coreStep s = .next t := by
  rcases coreStep_cases s with ⟨_, e⟩ | ⟨i, _, _, e⟩ | ⟨_, _, _, e⟩ <;> rw [e]
  · exact ⟨_, rfl⟩
  · exact exec_runs i s
  · exact ⟨_, rfl⟩

/-- An outcome that is a state or one of the three refusals of a host statement (R64, R215, R86). -/
def RunsOrRefusesHost (s : State) (o : Host.Outcome State Fault Refusal) : Prop :=
  (∃ t, o = .next t) ∨ (∃ a width, o = .refused (.undefinedAccess a width)) ∨
    (∃ a, s.resetIn = true ∧ o = .refused (.accessDuringReset a)) ∨ (∃ l, o = .refused (.undefinedLabel l))

theorem RunsOrRefusesHost.next (s t : State) : s.RunsOrRefusesHost (.next t) := .inl ⟨t, rfl⟩

theorem runsOrRefusesHost_hostAccess (s : State) (a width : Nat) (effect : State → State) :
    s.RunsOrRefusesHost (s.hostAccess a width effect) := by
  rcases hostAccess_cases a width effect s with ⟨hr, e⟩ | ⟨_, _, e⟩ | ⟨_, _, e⟩ <;> rw [e]
  · exact .inr (.inr (.inl ⟨a, hr, rfl⟩))
  · exact .inr (.inl ⟨a, width, rfl⟩)
  · exact .next s _

theorem runsOrRefusesHost_hostJump (s : State) (l : Nat) : s.RunsOrRefusesHost (s.hostJump l) := by
  unfold hostJump
  split
  · exact .next s _
  · exact .inr (.inr (.inr ⟨l, rfl⟩))

theorem runsOrRefusesHost_hostStmt (s : State) (st : HostStmt) : s.RunsOrRefusesHost (s.hostStmt st) := by
  cases st with
  | wr a width v => exact s.runsOrRefusesHost_hostAccess a width _
  | rd a width => exact s.runsOrRefusesHost_hostAccess a width _
  | label l => exact .next s _
  | bnz v mask l =>
    simp only [hostStmt]
    split
    · exact s.runsOrRefusesHost_hostJump l
    · exact .next s _
  | b l => exact s.runsOrRefusesHost_hostJump l

theorem runsOrRefusesHost_hostStep (s : State) : s.RunsOrRefusesHost s.hostStep := by
  unfold hostStep
  split
  · exact s.runsOrRefusesHost_hostStmt _
  · exact .next s s

/-! ## A host step while a command is pending -/

/-- `s` with what a host can change while a command is pending, taken from `t`: IE, the bits DONE, OVR and WIGN, the
host itself and the draw counter (R70, R103, R218). -/
def withHostSide (s t : State) : State :=
  { s with
    ie := t.ie
    status := { s.status with done := t.status.done, ovr := t.status.ovr, wign := t.status.wign }
    host := t.host
    draws := t.draws }

theorem withHostSide_code (s t : State) : (s.withHostSide t).code = s.code := rfl

theorem eq_withHostSide_trans {s t u : State} (ht : t = s.withHostSide t) (hu : u = t.withHostSide u) :
    u = s.withHostSide u :=
  calc
    u = t.withHostSide u := hu
    _ = (s.withHostSide t).withHostSide u := by rw [← ht]
    _ = s.withHostSide u := rfl

section Pending

variable {s t : State}

theorem Pending.of_eq_withHostSide (hp : s.Pending) (ht : t = s.withHostSide t) : t.Pending := by
  rw [ht]
  exact hp

/-- R103, R216, R218: of a host write to a busy core. -/
theorem hostWrite_of_busy (hb : s.status.busy = true) (a : Nat) (v : Word) :
    (a / 4 = 2 ∧ v.getLsbD 1 = true ∧ s.hostWrite a v = s.resetCore) ∨
      s.hostWrite a v = s.withHostSide (s.hostWrite a v) := by
  have keeps {t : State} (e : s.hostWrite a v = t) (ht : t = s.withHostSide t) :
      s.hostWrite a v = s.withHostSide (s.hostWrite a v) := e ▸ ht
  have not_idle (h : s.status.busy = false) : False := Bool.false_ne_true (h.symm.trans hb)
  rcases hostWrite_cases s a v with e | e | h | ⟨_, e⟩ | e | ⟨_, e⟩ | ⟨hi, _⟩ | ⟨hi, _⟩ | ⟨hi, _⟩
  · exact .inr (keeps e rfl)
  · exact .inr (keeps e rfl)
  · exact .inl h
  · exact .inr (keeps e rfl)
  · exact .inr (keeps e rfl)
  · exact .inr (keeps e rfl)
  · exact (not_idle hi).elim
  · exact (not_idle hi).elim
  · exact (not_idle hi).elim

/-- R66. -/
theorem readIntoT_eq_withHostSide (s : State) (a : Nat) : s.readIntoT a = s.withHostSide (s.readIntoT a) := by
  have hread : (s.hostRead a).2 = s.withHostSide (s.hostRead a).2 := by
    rcases hostRead_snd s a with e | e <;> rw [e] <;> rfl
  exact eq_withHostSide_trans hread rfl

/-- R70, R103, R216, R218: a host step resets a pending command or leaves it pending and its inputs alone. -/
theorem hostStep_of_pending (hp : s.Pending) (hs : s.hostStep = .next t) :
    (t.AtReset ∧ ∃ v, s.host.script[s.host.pc]? = some (.wr 0x008 4 v) ∧ (s.hostVal v).getLsbD 1 = true) ∨
      t = s.withHostSide t := by
  rcases hostStep_cases hs with ⟨_, rfl⟩ | ⟨a, v, hst, ha, _, _, rfl⟩ | ⟨a, _, _, _, _, rfl⟩
  · exact .inr rfl
  · rcases hostWrite_of_busy hp.1 a (s.hostVal v) with ⟨ha2, hv, e⟩ | e
    · obtain rfl : a = 0x008 := by omega
      rw [e]
      exact .inl ⟨resetCore_atReset s.hostNext, v, hst, hv⟩
    · exact .inr (eq_withHostSide_trans e rfl)
  · exact .inr (eq_withHostSide_trans (readIntoT_eq_withHostSide s a) rfl)

/-- R70: so does any number of host steps while the command stays pending. -/
theorem HostDelay.eq_withHostSide (h : s.HostDelay t) (hp : s.Pending) : t = s.withHostSide t := by
  induction h with
  | none => rfl
  | step _ hs hu ih =>
    rcases hostStep_of_pending (hp.of_eq_withHostSide ih) hs with ⟨hreset, _⟩ | e
    · have hidle := hu.1
      rw [hreset.status] at hidle
      cases hidle
    · exact eq_withHostSide_trans ih e

end Pending

/-! ## Two runs of one command

What a command writes is the same from two states that agree on what `SameResults` speaks of, since the tails it leaves
free are not part of it. -/

section TwoRuns

variable {s t : State}

/-- What the host can change while a command is pending is no result of the command. -/
theorem sameResults_complete_withHostSide (s t : State) : s.complete.SameResults (s.withHostSide t).complete where
  err := rfl
  done := ⟨rfl, rfl⟩
  soft := ⟨rfl, rfl⟩
  locked := rfl
  config := ⟨rfl, rfl, rfl, rfl, rfl⟩
  input := ⟨rfl, rfl, rfl⟩
  output := ⟨rfl, rfl⟩
  located := ⟨rfl, rfl⟩
  results := ⟨rfl, rfl, rfl, rfl, rfl⟩
  tblIdx := rfl

theorem sameResults_raiseError_withHostSide (s t : State) (c : ErrCode) :
    (s.raiseError c).SameResults ((s.withHostSide t).raiseError c) :=
  { sameResults_complete_withHostSide s t with err := rfl }

theorem SameResults.setUnderlenWhen (h : s.SameResults t) (b : Bool) :
    (s.setUnderlenWhen b).SameResults (t.setUnderlenWhen b) :=
  { h with soft := ⟨h.soft.1, congrArg (· || b) h.soft.2⟩ }

theorem SameResults.writeBlockResults (h : s.SameResults t) (results : List BlockResult) :
    (s.writeBlockResults results).SameResults (t.writeBlockResults results) :=
  { h with
    soft := ⟨congrArg (· || results.any fun b => !b.correctable) h.soft.1, h.soft.2⟩
    results := ⟨rfl, rfl, rfl, rfl, rfl⟩ }

/-- The part of a buffer below its length register does not reach the free tail. -/
theorem take_length_append {α : Type} {out : List α} {n : Nat} (hn : n = out.length) (tail : List α) :
    (out ++ tail).take (BitVec.ofNat 32 n).toNat = out.take (BitVec.ofNat 32 n).toNat := by
  rw [List.take_append_of_le_length]
  rw [hn, BitVec.toNat_ofNat]
  exact Nat.mod_le _ _

/-- R33, R40. -/
theorem SameResults.writeObuf (h : s.SameResults t) (out : Bits) : (s.writeObuf out).SameResults (t.writeObuf out) :=
  { h with output := ⟨rfl, (take_length_append rfl _).trans (take_length_append rfl _).symm⟩ }

/-- R37, R41. -/
theorem SameResults.writeLocbuf (h : s.SameResults t) (positions : List Nat) :
    (s.writeLocbuf positions).SameResults (t.writeLocbuf positions) :=
  have hn := (List.length_map (BitVec.ofNat 32)).symm
  { h with located := ⟨rfl, (take_length_append hn _).trans (take_length_append hn _).symm⟩ }

/-- Two bodies end alike: in the same error, or in states with the same results once completed. -/
inductive SameEnd : Except ErrCode State → Except ErrCode State → Prop
  | ok {u v : State} (h : u.complete.SameResults v.complete) : SameEnd (.ok u) (.ok v)
  | error (c : ErrCode) : SameEnd (.error c) (.error c)

theorem SameEnd.check {c : Prop} [Decidable c] {code : ErrCode} {x y : Except ErrCode State} (h : SameEnd x y) :
    SameEnd (if c then .error code else x) (if c then .error code else y) := by
  split
  · exact .error code
  · exact h

theorem SameEnd.runCommand {body : State → Except ErrCode State} {t' u u' : State} (h : SameEnd (body t) (body t'))
    (herr : ∀ c, (t.raiseError c).SameResults (t'.raiseError c)) (hu : runCommand body t = .next u)
    (hu' : runCommand body t' = .next u') : u.SameResults u' := by
  unfold Machine.runCommand at hu hu'
  generalize body t = x at h hu
  generalize body t' = x' at h hu'
  cases h with
  | ok h => cases hu; cases hu'; exact h
  | error c => cases hu; cases hu'; exact herr c

/-- R101: what a command does depends on nothing that the host can change while it is pending. `complete` commutes with
every write, so the writes are compared on the completed states. -/
theorem bodyOf_withHostSide (i : Instr) (s t : State) : SameEnd (bodyOf i s) (bodyOf i (s.withHostSide t)) := by
  have h := sameResults_complete_withHostSide s t
  cases i with
  | nop => exact .ok h
  | cfgBuild =>
    refine .check (.check (.check ?_))
    rw [withHostSide_code]
    cases s.code.deriveMpos with
    | none => exact .error _
    | some l => exact .ok { h with locked := rfl, config := ⟨rfl, rfl, rfl, rfl, rfl⟩ }
  | cfgUnlock => exact .ok { h with locked := rfl, config := ⟨rfl, rfl, rfl, rfl, rfl⟩ }
  | xfer => exact .ok { h with input := ⟨rfl, rfl, rfl⟩ }
  | encBlk => exact .check (.check (.check (.ok (h.writeObuf _))))
  | synBlk => exact .check (.check (.check (.ok { h.writeObuf _ with results := ⟨rfl, rfl, rfl, rfl, rfl⟩ })))
  | decBlk => exact .check (.check (.check (.ok ((h.writeObuf _).writeBlockResults _))))
  | encKey => exact .check (.check (.check (.ok (h.writeObuf _))))
  | decKey orig => exact .check (.check (.check (.ok ((h.writeObuf _).writeBlockResults _))))
  | locate orig => exact .check (.check (.ok ((h.writeLocbuf _).writeBlockResults _)))
  | paCompress => exact .check (.check (.ok ((h.writeObuf _).setUnderlenWhen _)))
  | paRecover seed => exact .check (.check (.check (.ok ((h.writeObuf _).setUnderlenWhen _))))

end TwoRuns

section CoreStep

variable {s : State}

theorem coreStep_of_decode_ok (hp : s.Pending) {i : Instr} (hd : decode s.pend = .ok i) :
    coreStep s = runCommand (bodyOf i) s := by
  rw [← exec_eq_runCommand, coreStep, if_pos (show _ ∧ _ from hp), execPending, hd]

theorem coreStep_of_decode_error (hp : s.Pending) {e : DecodeError} (hd : decode s.pend = .error e) :
    coreStep s = .next (s.raiseError .illegalCmd) := by
  rw [coreStep, if_pos (show _ ∧ _ from hp), execPending, hd]

/-- R68, R101: the core's step from two states that differ in what the host can change meanwhile. -/
theorem coreStep_withHostSide (hp : s.Pending) {s' t t' : State} (ht : coreStep s = .next t)
    (ht' : coreStep (s.withHostSide s') = .next t') : t.SameResults t' := by
  have hp' : (s.withHostSide s').Pending := hp
  cases hd : decode s.pend with
  | ok i =>
    rw [coreStep_of_decode_ok hp hd] at ht
    rw [coreStep_of_decode_ok hp' hd] at ht'
    exact (bodyOf_withHostSide i s s').runCommand (sameResults_raiseError_withHostSide s s') ht ht'
  | error e =>
    rw [coreStep_of_decode_error hp hd] at ht
    rw [coreStep_of_decode_error hp' hd] at ht'
    cases ht
    cases ht'
    exact sameResults_raiseError_withHostSide s s' _

end CoreStep

/-! ## The obligations -/

/-- Settles O50: the map gives the word of the buffer, and bit i mod 32 of word ⌊i/32⌋ is bit i. -/
theorem bufferPackingAndByteLanes : Obligations.BufferPackingAndByteLanes := by
  intro s hp
  have hdiv {i : Nat} (hi : i < s.params.kmaxBits) : i / 32 < s.params.kmaxBits / 32 := by
    have := hp.kmaxBits_mod
    omega
  refine ⟨fun i hi => ⟨?_, ?_⟩, fun e he => ?_, fun a b k ha hb hk => ?_⟩
  · rw [windowWord_of_regAt (regAt_ibuf_of_lt hp (hdiv hi))]
    exact Bits.getLsbD_wordAt_div s.mem.ibuf i
  · rw [windowWord_of_regAt (regAt_obuf_of_lt hp (hdiv hi))]
    exact Bits.getLsbD_wordAt_div s.mem.obuf i
  · exact windowWord_of_regAt (regAt_locbuf_of_lt hp he)
  · rw [windowByte_add s ha hb, BitVec.getLsbD_extractLsb']
    simp [hk]

/-- Settles O56: every command answers a state, so only the host's turn can be refused. -/
theorem onlyHostStatementsAreRefused : Obligations.OnlyHostStatementsAreRefused := by
  intro s
  refine ⟨coreStep_runs s, ?_⟩
  obtain ⟨q, e | e | e | e⟩ := step_cases s <;> rw [e]
  · exact runsOrRefusesHost_hostStep { s with sched := q }
  · exact .inl (coreStep_runs _)
  · exact .inl ⟨_, rfl⟩
  · exact .inl ⟨_, rfl⟩

/-- Settles O57: in a busy core a host write is SRST, sets a sticky bit, or writes IE or STATUS. -/
theorem pendingCommandIsUndisturbed : Obligations.PendingCommandIsUndisturbed := by
  intro s t hp hs
  exact (hostStep_of_pending hp hs).imp_right fun e => ⟨hp.of_eq_withHostSide e, e⟩

/-- Settles O58: a delay changes only what `withHostSide` takes from the later state, and no command reads that. -/
theorem resultsIndependentOfDelay : Obligations.ResultsIndependentOfDelay := by
  intro s s' t t' hp hdelay ht ht'
  rw [hdelay.eq_withHostSide hp] at ht'
  exact coreStep_withHostSide hp ht ht'

/-- Settles O48: only a read while BUSY = 1 takes a draw. -/
theorem readsHaveNoSideEffects : Obligations.ReadsHaveNoSideEffects := by
  refine fun s a => ⟨?_, fun hb => ?_⟩
  · rcases hostRead_snd s a with e | e <;> rw [e]
  · rw [hostRead, hb, if_neg Bool.false_ne_true]

/-- Settles O53: `wr` and `rd` are both one guarded access. -/
theorem undefinedAccessIsRefused : Obligations.UndefinedAccessIsRefused := fun _ _ _ _ hr =>
  ⟨fun h => ⟨hostAccess_of_undefined hr h _, hostAccess_of_undefined hr h _⟩,
    fun hw ha hwin => ⟨hostAccess_of_defined hr hw ha hwin _, hostAccess_of_defined hr hw ha hwin _⟩⟩

end State

end Sys2Proof.Machine
end

section
/-! PROOFS of the family 30_encoding: decoding and encoding (O2), the legal words (O3, O1), what a step runs (O4) and
the host's control flow (O59). -/

namespace Sys2Proof

/-! ## Command words -/

/-- R80, R83: a word decodes to the command its fields name exactly when they meet the other three conditions. -/
theorem decode_eq_ok_iff {w : Word} {i : Instr} :
    decode w = .ok i ↔
      commandOf (CmdFields.ofWord w).opc (CmdFields.ofWord w).orig (CmdFields.ofWord w).seed = some i ∧
        (CmdFields.ofWord w).reservedZero = true ∧ (CmdFields.ofWord w).origAllowed = true ∧
        (CmdFields.ofWord w).seedAllowed = true := by
  refine ⟨decode_ok_fields, fun ⟨hc, hr, ho, hs⟩ => ?_⟩
  simp [decode, hc, hr, ho, hs]

section CommandOf

variable {opc : BitVec 8} {orig seed : Bool} {rsvd : BitVec 22} {i : Instr}

theorem opcode_of_commandOf (h : commandOf opc orig seed = some i) : opc = i.opcode := by
  apply BitVec.eq_of_toNat_eq
  unfold commandOf at h
  split at h <;> cases h <;> assumption

/-- R82, R83: the twelve opcodes that name a command. -/
theorem exists_commandOf_iff :
    (∃ i, commandOf opc orig seed = some i) ↔
      opc.toNat ∈ [0x00, 0x01, 0x02, 0x03, 0x10, 0x11, 0x12, 0x20, 0x21, 0x28, 0x30, 0x31] := by
  constructor
  · rintro ⟨i, h⟩
    rw [opcode_of_commandOf h]
    cases i <;> simp [Instr.opcode]
  · intro h
    simp only [List.mem_cons, List.not_mem_nil, or_false] at h
    rcases h with h | h | h | h | h | h | h | h | h | h | h | h <;> simp [commandOf, h]

/-- R83: ORIG is an operand of DEC_KEY and LOCATE and 0 elsewhere. -/
theorem origBit_of_origAllowed (hc : commandOf i.opcode orig seed = some i)
    (ho : CmdFields.origAllowed ⟨i.opcode, orig, seed, rsvd⟩ = true) : orig = i.origBit := by
  cases i with
  | decKey b | locate b => cases hc; rfl
  | _ => simpa [CmdFields.origAllowed, Instr.opcode, Instr.origBit] using ho

/-- R83: SEED is an operand of PA_RECOVER and 0 elsewhere. -/
theorem seedBit_of_seedAllowed (hc : commandOf i.opcode orig seed = some i)
    (hs : CmdFields.seedAllowed ⟨i.opcode, orig, seed, rsvd⟩ = true) : seed = i.seedBit := by
  cases i with
  | paRecover b => cases hc; rfl
  | _ => simpa [CmdFields.seedAllowed, Instr.opcode, Instr.seedBit] using hs

end CommandOf

/-- R82, R83: legal fields are those of the command they name. -/
theorem CmdFields.eq_fields {f : CmdFields} {i : Instr} (hc : commandOf f.opc f.orig f.seed = some i)
    (hr : f.reservedZero = true) (ho : f.origAllowed = true) (hs : f.seedAllowed = true) : f = i.fields := by
  obtain ⟨opc, orig, seed, rsvd⟩ := f
  obtain rfl := opcode_of_commandOf hc
  obtain rfl := beq_iff_eq.1 hr
  rw [Instr.fields, ← origBit_of_origAllowed hc ho, ← seedBit_of_seedAllowed hc hs]

theorem decode_encode (i : Instr) : decode (encode i) = .ok i := by
  rw [decode_eq_ok_iff, encode, CmdFields.ofWord_toWord]
  cases i with
  | decKey b | locate b | paRecover b => cases b <;> decide
  | _ => decide

theorem encode_of_decode {w : Word} {i : Instr} (h : decode w = .ok i) : w = encode i := by
  obtain ⟨hc, hr, ho, hs⟩ := decode_eq_ok_iff.1 h
  rw [encode, ← CmdFields.eq_fields hc hr ho hs, CmdFields.toWord_ofWord]

theorem encode_injective : Function.Injective encode := fun i j h =>
  Except.ok.inj <| by rw [← decode_encode i, h, decode_encode]

theorem mem_allInstrs (i : Instr) : i ∈ allInstrs := by
  cases i with
  | decKey b | locate b | paRecover b => cases b <;> decide
  | _ => decide

theorem origAllowed_iff {f : CmdFields} :
    f.origAllowed = true ↔ f.orig = false ∨ f.opc.toNat ∈ [0x21, 0x28] := by
  simp [CmdFields.origAllowed, ← BitVec.toNat_inj, or_assoc]

theorem seedAllowed_iff {f : CmdFields} : f.seedAllowed = true ↔ f.seed = false ∨ f.opc.toNat = 0x31 := by
  simp [CmdFields.seedAllowed, ← BitVec.toNat_inj]

namespace Machine

/-! ## Whose turn it is -/

section Turns

variable {s : State}

theorem coreStep_of_not_pending (hp : ¬ s.Pending) : coreStep s = .next s := if_neg hp

theorem coreStep_of_decode (hp : s.Pending) {i : Instr} (hd : decode s.pend = .ok i) : coreStep s = exec i s := by
  rw [exec_eq_runCommand, State.coreStep_of_decode_ok hp hd]

/-- R83, R191: an illegal word completes with ILLEGAL_CMD. -/
theorem coreStep_of_illegal (hp : s.Pending) (hd : ∀ i, decode s.pend ≠ .ok i) :
    coreStep s = .next (s.failedWith .illegalCmd) := by
  cases h : decode s.pend with
  | ok i => exact absurd h (hd i)
  | error e => exact State.coreStep_of_decode_error hp h

theorem step_of_pending (hn : s.sched = []) (hp : s.Pending) : step s = coreStep s :=
  (step_of_sched_nil hn).elim And.right fun h => absurd hp h.1

theorem step_of_not_pending (hn : s.sched = []) (hp : ¬ s.Pending) : step s = s.hostStep :=
  (step_of_sched_nil hn).elim (fun h => absurd h.1 hp) And.right

theorem step_of_sched_core {rest : List Turn} (h : s.sched = .core :: rest) :
    step s = coreStep { s with sched := rest } := step_of_sched h

end Turns

/-! ## The host's statements and the labels of its script -/

namespace State

variable {s : State}

theorem hostStep_of_some {st : HostStmt} (h : s.host.script[s.host.pc]? = some st) : s.hostStep = s.hostStmt st := by
  rw [hostStep, h]

theorem hostStep_of_none (h : s.host.script[s.host.pc]? = none) : s.hostStep = .next s := by
  rw [hostStep, h]

/-- R86: of two equal labels the first counts. -/
theorem labelIndex_of_first {l i : Nat} (hi : s.host.script[i]? = some (.label l))
    (hfirst : ∀ j < i, s.host.script[j]? ≠ some (.label l)) : s.labelIndex l = some i := by
  obtain ⟨hlt, hget⟩ := List.getElem?_eq_some_iff.1 hi
  refine List.findIdx?_eq_some_iff_getElem.2 ⟨hlt, beq_iff_eq.2 hget, fun j hj hlab => hfirst j hj ?_⟩
  rw [List.getElem?_eq_getElem (hj.trans hlt), beq_iff_eq.1 hlab]

theorem labelIndex_eq_none {l : Nat} (h : ∀ i : Nat, s.host.script[i]? ≠ some (.label l)) :
    s.labelIndex l = none := by
  refine List.findIdx?_eq_none_iff.2 fun st hst => beq_eq_false_iff_ne.2 ?_
  rintro rfl
  obtain ⟨i, hi⟩ := List.mem_iff_getElem?.1 hst
  exact h i hi

theorem hostJump_of_some {l i : Nat} (h : s.labelIndex l = some i) :
    s.hostJump l = .next { s with host.pc := i } := by
  rw [hostJump, h]

theorem hostJump_of_none {l : Nat} (h : s.labelIndex l = none) : s.hostJump l = .refused (.undefinedLabel l) := by
  rw [hostJump, h]

end State

/-! ## The obligations -/

/-- Settles O2: the fields of a word that decodes are those of the command, and words and fields are inverse. -/
theorem decodeInvertsEncode : Obligations.DecodeInvertsEncode := by
  intro w i
  refine ⟨encode_of_decode, ?_⟩
  rintro rfl
  exact decode_encode i

/-- Settles O1: each legal word is the word of its command. -/
theorem opcodeMapWordsDecode : Obligations.OpcodeMapWordsDecode :=
  ⟨decode_encode .nop, decode_encode .cfgBuild, decode_encode .cfgUnlock, decode_encode .xfer, decode_encode .encBlk,
    decode_encode .synBlk, decode_encode .decBlk, decode_encode .encKey, decode_encode (.decKey false),
    decode_encode (.decKey true), decode_encode (.locate false), decode_encode (.locate true),
    decode_encode .paCompress, decode_encode (.paRecover false), decode_encode (.paRecover true),
    by decide, by decide, by decide, by decide⟩

/-- Settles O3: the fifteen words are those of `allInstrs`, which lists every command. -/
theorem legalityOfCommandWords : Obligations.LegalityOfCommandWords := by
  refine ⟨fun w => ?_, ⟨allInstrs.map encode, rfl, .map encode_injective (by decide), fun w => ?_⟩,
    fun s => coreStep_of_illegal⟩
  · simp only [decode_eq_ok_iff, exists_and_right, exists_commandOf_iff, origAllowed_iff, seedAllowed_iff,
      CmdFields.reservedZero, beq_iff_eq, CmdFields.ofWord]
  · simp only [decodeInvertsEncode w, List.mem_map, mem_allInstrs, true_and, eq_comm]

/-- Settles O4: `step_of_sched` and `step_of_sched_nil` say whose turn it is, the lemmas about `coreStep`
what the core does in its turn. -/
theorem stepRunsDecodedCommand : Obligations.StepRunsDecodedCommand := by
  refine fun s => ⟨fun hp i hd => ⟨fun hn => ?_, fun rest hs => ?_⟩,
    fun hp hd => ⟨fun hn => ?_, fun rest hs => ?_⟩, fun hp => ⟨fun hn => step_of_not_pending hn hp, fun rest hs => ?_⟩,
    fun rest => step_of_sched, fun st => State.hostStep_of_some, State.hostStep_of_none,
    fun rest hs => ⟨step_of_sched hs, step_of_sched hs⟩, fun rest hs => ⟨step_of_sched hs, step_of_sched hs⟩⟩
  · exact (step_of_pending hn hp).trans (coreStep_of_decode hp hd)
  · exact (step_of_sched_core hs).trans (coreStep_of_decode (s := { s with sched := rest }) hp hd)
  · exact (step_of_pending hn hp).trans (coreStep_of_illegal hp hd)
  · exact (step_of_sched_core hs).trans (coreStep_of_illegal (s := { s with sched := rest }) hp hd)
  · exact (step_of_sched_core hs).trans (coreStep_of_not_pending (s := { s with sched := rest }) hp)

/-- Settles O59: both branches are `hostJump`, which goes to the first index of the label. -/
theorem hostControlFlow : Obligations.HostControlFlow := fun _ _ =>
  ⟨rfl, fun _ _ => ⟨fun h => if_pos h, fun h => if_neg (not_not.2 h)⟩,
    fun _ hi hfirst => State.hostJump_of_some (State.labelIndex_of_first hi hfirst),
    fun h => State.hostJump_of_none (State.labelIndex_eq_none h)⟩

end Machine

end Sys2Proof
end

section
/-! PROOFS of the family 40_control: the life cycle of a command (O5, O6, O7, O8), what a command leaves of the window
(O11), the control commands (O12, O13, O15, O16) and the laws of a built table (O14). -/

namespace Sys2Proof.Machine

/-! ## The life cycle of a command -/

/-- R63: the byte lanes of a word are that word. -/
theorem wordOfBytes_bytesOfWord (w : Word) : wordOfBytes (bytesOfWord w) = some w := by
  have hw := w.isLt
  refine congrArg some (BitVec.eq_of_toNat_eq ?_)
  simp only [BitVec.toNat_ofNat, BitVec.extractLsb'_toNat, Nat.shiftRight_eq_div_pow]
  omega

theorem decodeBytes_bytesOfWord (w : Word) : decodeBytes (bytesOfWord w) = decode w := by
  rw [decodeBytes, wordOfBytes_bytesOfWord]

theorem decode_of_decodeTableWord {nbits w : Nat} {i : Instr} (h : decodeTableWord nbits w = some i) :
    decode (tableWord nbits w) = .ok i := by
  rw [decodeTableWord, decodeBytes_bytesOfWord] at h
  cases hd : decode (tableWord nbits w) with
  | ok j => rw [hd] at h; exact congrArg _ (Option.some.inj h)
  | error e => rw [hd] at h; cases h

/-- The core's step after `giveCommand` runs on the accepted state with reset released. -/
theorem step_giveCommand (w : Word) (s : State) :
    step (giveCommand w s) = coreStep { s.accept w with resetIn := false } :=
  step_of_sched_core rfl

/-- How EXEC ends (R101, R102): BUSY falls, DONE rises, and the readback and IE stay. -/
structure State.Completes (s t : State) : Prop where
  busy : t.status.busy = false
  done : t.status.done = true
  pend : t.pend = s.pend
  ie   : t.ie = s.ie

theorem completes_of_exec {i : Instr} {s t : State} (h : exec i s = .next t) : s.Completes t := by
  rcases (exec_eq_next_iff i s t).1 h with ⟨u, hb, rfl⟩ | ⟨c, -, rfl⟩
  · obtain ⟨hpend, hie, -⟩ := body_ok_keeps hb
    exact ⟨rfl, rfl, hpend, hie⟩
  · exact ⟨rfl, rfl, rfl, rfl⟩

/-- R101, R102: a pending command, legal or not, completes in the core's next step. -/
theorem coreStep_completes {s : State} (hp : s.Pending) : ∃ t, coreStep s = .next t ∧ s.Completes t := by
  rcases coreStep_cases s with ⟨hn, -⟩ | ⟨i, -, -, e⟩ | ⟨_, -, -, e⟩
  · exact absurd hp hn
  · obtain ⟨t, ht⟩ := exec_runs i s
    exact ⟨t, e.trans ht, completes_of_exec ht⟩
  · exact ⟨_, e, rfl, rfl, rfl, rfl⟩

/-- R25: with no error recorded ERR reads 0. -/
theorem State.errWord_of_none {s : State} (h : s.err = { code := .none, opc := 0 }) : s.errWord = 0 := by
  rw [errWord, h]
  rfl

/-- R23, R100, R102: STATUS when a command without effect on it has been accepted and has completed. -/
theorem State.statusWord_complete_accept (s : State) (w : Word) :
    (s.accept w).complete.statusWord =
      Bits.toWord [false, true, false, false, false, s.status.ovr, s.status.wign, s.status.locked] := rfl

/-! ## What a command leaves of the window

Each operation of the command bodies changes the readings of a few registers only; that a command may write those is what
its rule says. -/

namespace State

section Readings

variable {i : Instr} {r : Reg} (s : State)

theorem readReg_complete (h : mayWrite i r = false) : s.complete.readReg r = s.readReg r := by
  cases r with
  | status => cases h
  | _ => rfl

theorem readReg_raiseError (h : mayWrite i r = false) (c : ErrCode) : (s.raiseError c).readReg r = s.readReg r := by
  cases r with
  | status | err => cases h
  | _ => rfl

theorem readReg_setUnderlenWhen (h : mayWrite i r = false) (b : Bool) :
    (s.setUnderlenWhen b).readReg r = s.readReg r := by
  cases r with
  | status => cases h
  | _ => rfl

theorem readReg_writeObuf (hi : writesOutput i = true) (h : mayWrite i r = false) (out : Bits) :
    (s.writeObuf out).readReg r = s.readReg r := by
  cases r with
  | olen | obuf w => cases hi.symm.trans h
  | _ => rfl

theorem readReg_writeBlockResults (hi : writesBlockResults i = true) (h : mayWrite i r = false)
    (results : List BlockResult) : (s.writeBlockResults results).readReg r = s.readReg r := by
  cases r with
  | status => cases h
  | synd => simp [mayWrite, hi] at h
  | epat | nblk | ncorr | nuncorr => cases hi.symm.trans h
  | _ => rfl

theorem readReg_writeLocbuf {orig : Bool} (h : mayWrite (.locate orig) r = false) (positions : List Nat) :
    (s.writeLocbuf positions).readReg r = s.readReg r := by
  cases r with
  | loccnt | locbuf e => cases orig <;> cases h
  | _ => rfl

theorem readReg_commitBuild (h : mayWrite .cfgBuild r = false) (mpos : List Nat) (table : List (Option TblEntry)) :
    (s.commitBuild mpos table).readReg r = s.readReg r := by
  cases r with
  | status | tblPat | tblInfo | mpos j => cases h
  | _ => rfl

theorem readReg_unlock (h : mayWrite .cfgUnlock r = false) : s.unlock.readReg r = s.readReg r := by
  cases r with
  | status | tblPat | tblInfo | mpos j => cases h
  | _ => rfl

theorem readReg_transfer (h : mayWrite .xfer r = false) : s.transfer.readReg r = s.readReg r := by
  cases r with
  | ilen | ibuf w => cases h
  | _ => rfl

/-- R129: SYN_BLK writes SYND besides the output. -/
theorem readReg_writeSynd (h : mayWrite .synBlk r = false) (x : BitVec 16) :
    ({ s with synd := x } : State).readReg r = s.readReg r := by
  cases r with
  | synd => cases h
  | _ => rfl

end Readings

end State

open State in
/-- "Status written" of the command rules, for a command that succeeds. -/
theorem readReg_body {i : Instr} {s u : State} (hb : bodyOf i s = .ok u) {r : Reg} (h : mayWrite i r = false) :
    u.readReg r = s.readReg r := by
  cases i with
  | nop => cases hb; rfl
  | cfgBuild =>
    obtain ⟨-, -, -, l, -, rfl⟩ := cfgBuildBody_eq_ok_iff.1 hb
    exact readReg_commitBuild s h l _
  | cfgUnlock => cases hb; exact readReg_unlock s h
  | xfer => cases hb; exact readReg_transfer s h
  | encBlk =>
    obtain ⟨-, -, -, rfl⟩ := encBlkBody_eq_ok_iff.1 hb
    exact readReg_writeObuf s rfl h _
  | synBlk =>
    obtain ⟨-, -, -, rfl⟩ := synBlkBody_eq_ok_iff.1 hb
    exact (readReg_writeSynd _ h _).trans (readReg_writeObuf s rfl h _)
  | decBlk =>
    obtain ⟨-, -, -, rfl⟩ := decBlkBody_eq_ok_iff.1 hb
    exact (readReg_writeBlockResults _ rfl h _).trans (readReg_writeObuf s rfl h _)
  | encKey =>
    obtain ⟨-, -, -, rfl⟩ := encKeyBody_eq_ok_iff.1 hb
    exact readReg_writeObuf s rfl h _
  | decKey orig =>
    obtain ⟨-, -, -, rfl⟩ := decKeyBody_eq_ok_iff.1 hb
    exact (readReg_writeBlockResults _ rfl h _).trans (readReg_writeObuf s rfl h _)
  | locate orig =>
    obtain ⟨-, -, rfl⟩ := locateBody_eq_ok_iff.1 hb
    exact (readReg_writeBlockResults _ rfl h _).trans (readReg_writeLocbuf s h _)
  | paCompress =>
    obtain ⟨-, -, rfl⟩ := paCompressBody_eq_ok_iff.1 hb
    exact (readReg_setUnderlenWhen _ h _).trans (readReg_writeObuf s rfl h _)
  | paRecover seed =>
    obtain ⟨-, -, -, rfl⟩ := paRecoverBody_eq_ok_iff.1 hb
    exact (readReg_setUnderlenWhen _ h _).trans (readReg_writeObuf s rfl h _)

theorem readReg_exec {i : Instr} {s t : State} (he : exec i s = .next t) {r : Reg} (h : mayWrite i r = false) :
    t.readReg r = s.readReg r := by
  rcases (exec_eq_next_iff i s t).1 he with ⟨u, hb, rfl⟩ | ⟨c, -, rfl⟩
  · exact (u.readReg_complete h).trans (readReg_body hb h)
  · exact s.readReg_raiseError h c

theorem params_exec {i : Instr} {s t : State} (he : exec i s = .next t) : t.params = s.params := by
  rcases (exec_eq_next_iff i s t).1 he with ⟨u, hb, rfl⟩ | ⟨c, -, rfl⟩
  · obtain ⟨-, -, hp, -⟩ := body_ok_keeps hb
    exact hp
  · rfl

/-! ## CFG_BUILD and the table it builds -/

namespace Code

/-- R108: derive_mpos finds given lowest unit columns. -/
theorem deriveMpos_of_lowest {c : Code} {pos : Nat → Nat} (h : ∀ j < c.k, c.LowestUnitColumn j (pos j)) :
    c.deriveMpos = some ((List.range c.k).map pos) := by
  refine (deriveMpos_eq_some_iff c _).2 ⟨by simp, fun j hj => ?_⟩
  simpa [List.getD_eq_getElem?_getD, hj] using h j hj

end Code

/-! ### Weights in the enumeration -/

/-- R8: the weight of a vector is the number of its set positions, however listed. -/
theorem Bits.weight_eq_length {v : Bits} {l : List Nat} (hl : l.Nodup) (h : ∀ i, bit v i = true ↔ i ∈ l) :
    weight v = l.length := by
  have hv : v = (List.range v.length).map (bit v) :=
    ext_bit (by simp) fun i hi => by simp [bit_map_range, hi]
  have hperm : ((List.range v.length).filter (bit v)).Perm l := by
    refine (List.perm_ext_iff_of_nodup (List.nodup_range.filter _) hl).2 fun i => ?_
    rw [List.mem_filter, List.mem_range, h i, and_iff_right_iff_imp, ← h i]
    exact fun hi => Nat.lt_of_not_le fun hle => by simp [bit_of_length_le hle] at hi
  calc
    weight v = ((List.range v.length).map (bit v)).count true := by rw [weight, ← hv]
    _ = ((List.range v.length).filter (bit v)).length := by
      rw [List.count, List.countP_map, List.countP_eq_length_filter]
      congr 2
      funext i
      simp
    _ = l.length := hperm.length_eq

namespace Code

section Enumeration

variable {c : Code} {e : Bits}

theorem weight_of_mem_patterns0 (h : e ∈ c.patterns0) : Bits.weight e = 0 := by
  obtain rfl := List.mem_singleton.1 h
  exact Bits.weight_eq_length List.nodup_nil fun i => by simp

theorem weight_of_mem_patterns1 (h : e ∈ c.patterns1) : Bits.weight e = 1 := by
  obtain ⟨p, hp, rfl⟩ := List.mem_map.1 h
  have hp := List.mem_range.1 hp
  refine Bits.weight_eq_length (List.nodup_singleton p) fun i => ?_
  rw [Bits.bit_unit, List.mem_singleton, Bool.and_eq_true, decide_eq_true_eq, beq_iff_eq]
  omega

theorem weight_of_mem_patterns2 (h : e ∈ c.patterns2) : Bits.weight e = 2 := by
  simp only [patterns2, List.mem_flatMap, List.mem_map, List.mem_range, List.mem_range'_1] at h
  obtain ⟨p, hp, q, hq, rfl⟩ := h
  refine Bits.weight_eq_length (l := [p, q]) (by simp; omega) fun i => ?_
  rw [Bits.bit_add (by simp), Bits.bit_unit, Bits.bit_unit]
  by_cases hip : i = p
  · simp [hip, hp, show p ≠ q by omega]
  · by_cases hiq : i = q
    · simp [hiq, show q < c.n by omega, show q ≠ p by omega]
    · simp [hip, hiq, beq_eq_false_iff_ne.2]

theorem weight_le_two (h : e ∈ c.patterns) : Bits.weight e ≤ 2 := by
  rcases List.mem_append.1 h with h | h
  · rcases List.mem_append.1 h with h | h
    · rw [weight_of_mem_patterns0 h]; decide
    · rw [weight_of_mem_patterns1 h]; decide
  · exact (weight_of_mem_patterns2 h).le

/-- R123: the enumeration goes by ascending weight. -/
theorem patterns_sorted_by_weight (c : Code) :
    c.patterns.Pairwise fun e f => Bits.weight e ≤ Bits.weight f := by
  have sorted {l : List Bits} {w : Nat} (h : ∀ e ∈ l, Bits.weight e = w) :
      l.Pairwise fun e f => Bits.weight e ≤ Bits.weight f :=
    List.pairwise_of_forall_mem_list fun e he f hf => by rw [h e he, h f hf]
  refine List.pairwise_append.2 ⟨List.pairwise_append.2 ⟨sorted fun _ => weight_of_mem_patterns0,
    sorted fun _ => weight_of_mem_patterns1, fun e he f _ => ?_⟩, sorted fun _ => weight_of_mem_patterns2,
    fun e he f hf => ?_⟩
  · rw [weight_of_mem_patterns0 he]
    exact Nat.zero_le _
  · rw [weight_of_mem_patterns2 hf]
    exact weight_le_two (List.mem_append_left _ he)

theorem syn_of_first {x : Nat} (h : c.first x = some e) : c.syn e = x := by
  simpa using List.find?_some h

/-- R125: the first pattern of a syndrome has the least weight. -/
theorem weight_first_le {x : Nat} (h : c.first x = some e) {f : Bits} (hf : f ∈ c.patterns) (hx : c.syn f = x) :
    Bits.weight e ≤ Bits.weight f := by
  obtain ⟨-, before, after, happ, hbefore⟩ := List.find?_eq_some_iff_append.1 h
  have hsorted := c.patterns_sorted_by_weight
  rw [happ] at hf hsorted
  rcases List.mem_append.1 hf with hf | hf
  · exact absurd (beq_iff_eq.2 hx) (by simpa using hbefore f hf)
  · rcases List.mem_cons.1 hf with rfl | hf
    · exact Nat.le_refl _
    · exact List.rel_of_pairwise_cons (List.pairwise_append.1 hsorted).2.1 hf

/-- R123: how many patterns the enumeration has. -/
theorem length_patterns (c : Code) : c.patterns.length = 1 + c.n + c.n * (c.n - 1) / 2 := by
  have hpairs : c.patterns2.length = c.n * (c.n - 1) / 2 :=
    calc
      c.patterns2.length = ∑ p ∈ Finset.range c.n, (c.n - (p + 1)) := by
        simp only [patterns2, List.length_flatMap, List.length_map, List.length_range']
        rfl
      _ = ∑ p ∈ Finset.range c.n, (c.n - 1 - p) := Finset.sum_congr rfl fun p _ => by omega
      _ = ∑ p ∈ Finset.range c.n, p := Finset.sum_range_reflect (fun p => p) c.n
      _ = c.n * (c.n - 1) / 2 := Finset.sum_range_id c.n
  simp only [patterns, List.length_append, hpairs, patterns0, patterns1, List.length_map, List.length_range,
    List.length_singleton]

/-- R123: the enumeration starts with the zero pattern, so that is the first of syndrome 0. -/
theorem first_zero (c : Code) : c.first 0 = some (Bits.zeros c.n) :=
  List.find?_cons_of_pos (by simp)

end Enumeration

/-! ### The entries of the table -/

section Table

variable {c : Code} {p : Params}

/-- R109: a valid entry holds the first pattern of its syndrome. -/
theorem entry_of_buildTable (hr : c.InRange p) {x : Nat} {e : TblEntry} (h : (c.buildTable p).getD x none = some e) :
    c.first x = some e.pattern ∧ e.weight = BitVec.ofNat 2 (Bits.weight e.pattern) := by
  obtain ⟨-, -, -, hle⟩ := hr
  rw [getD_buildTable hle, Option.map_eq_some_iff] at h
  obtain ⟨f, hf, rfl⟩ := h
  exact ⟨hf, rfl⟩

theorem countP_claim_le (c : Code) (table : List (Option TblEntry)) (e : Bits) :
    (c.claim table e).countP Option.isSome ≤ table.countP Option.isSome + 1 := by
  unfold claim
  split
  next h =>
    obtain ⟨hlt, hfree⟩ := List.getElem?_eq_some_iff.1 h
    simp [List.countP_set hlt, hfree]
  next => omega
  next => omega

/-- R113 law 4: each pattern claims at most one entry. -/
theorem countP_foldl_claim_le (c : Code) (es : List Bits) (table : List (Option TblEntry)) :
    (es.foldl c.claim table).countP Option.isSome ≤ table.countP Option.isSome + es.length := by
  induction es generalizing table with
  | nil => exact Nat.le_refl _
  | cons e es ih =>
    have := ih (c.claim table e)
    have := c.countP_claim_le table e
    rw [List.foldl_cons, List.length_cons]
    omega

theorem countP_buildTable_le_patterns (c : Code) (p : Params) :
    (c.buildTable p).countP Option.isSome ≤ c.patterns.length := by
  have := c.countP_foldl_claim_le c.patterns (List.replicate (2 ^ p.rmax) none)
  rwa [List.countP_replicate, Option.isSome_none, if_neg Bool.false_ne_true, Nat.zero_add] at this

/-- R113 law 4: every valid entry stands below 2^R, where syndromes are. -/
theorem countP_buildTable_le_two_pow (hr : c.InRange p) : (c.buildTable p).countP Option.isSome ≤ 2 ^ c.r := by
  have htail : ((c.buildTable p).drop (2 ^ c.r)).countP Option.isSome = 0 := by
    refine List.countP_eq_zero.2 fun o ho hsome => ?_
    obtain ⟨y, hy⟩ := List.mem_iff_getElem?.1 ho
    obtain ⟨e, rfl⟩ := Option.isSome_iff_exists.1 hsome
    rw [List.getElem?_drop] at hy
    obtain ⟨hf, -⟩ := entry_of_buildTable hr (x := 2 ^ c.r + y) (by rw [List.getD_eq_getElem?_getD, hy]; rfl)
    have hsyn := syn_of_first hf
    have := c.syn_lt e.pattern
    omega
  calc
    (c.buildTable p).countP Option.isSome
      = ((c.buildTable p).take (2 ^ c.r)).countP Option.isSome := by
        rw [← Nat.add_zero (List.countP _ (List.take _ _)), ← htail, ← List.countP_append, List.take_append_drop]
    _ ≤ ((c.buildTable p).take (2 ^ c.r)).length := List.countP_le_length
    _ ≤ 2 ^ c.r := List.length_take_le _ _

/-- R113 laws 2 and 3, for one valid entry. -/
theorem laws_of_entry (hr : c.InRange p) {x : Nat} {e : TblEntry} (h : (c.buildTable p).getD x none = some e) :
    c.syn e.pattern = x ∧ e.pattern.length = c.n ∧ e.weight.toNat = Bits.weight e.pattern ∧ e.weight.toNat ≤ 2 ∧
      ∀ f ∈ c.patterns, c.syn f = x → e.weight.toNat ≤ Bits.weight f := by
  obtain ⟨hfirst, hweight⟩ := entry_of_buildTable hr h
  have hmem := List.mem_of_find?_eq_some hfirst
  have hle := weight_le_two hmem
  have hw : e.weight.toNat = Bits.weight e.pattern := by
    rw [hweight, BitVec.toNat_ofNat, Nat.mod_eq_of_lt (by omega)]
  refine ⟨syn_of_first hfirst, length_of_mem_patterns hmem, hw, hw.trans_le hle, fun f hf hx => ?_⟩
  exact hw.trans_le (weight_first_le hfirst hf hx)

end Table

end Code

/-! ## The obligations -/

/-- Settles O8: a command completes in its own step, and an idle core's step changes nothing. -/
theorem everyCommandCompletes : Obligations.EveryCommandCompletes := by
  intro s hp
  obtain ⟨t, ht, hbusy, hdone, hpend, hie⟩ := coreStep_completes hp
  refine ⟨t, ht, hbusy, hdone, hpend, hpend, hie, ?_, t.errf_eq_decide, coreStep_of_not_pending fun h => ?_⟩
  · rw [State.irq, hdone, hie, Bool.true_and]
  · exact Bool.false_ne_true (hbusy.symm.trans h.1)

/-- Settles O11: a byte of the window is a lane of a register's reading, and the map of the window stays. -/
theorem commandsLeaveOtherBytes : Obligations.CommandsLeaveOtherBytes := by
  intro i s t he a _ h
  rw [State.windowByte, State.windowByte, State.windowWord, State.windowWord, params_exec he, readReg_exec he h]

/-- Settles O13: the checks pass, so the commit is what derive_mpos and build_table give. -/
theorem buildCommitsConfiguration : Obligations.BuildCommitsConfiguration := by
  intro s pos hp hl hr ho hpos
  have hderive := Code.deriveMpos_of_lowest hpos
  have hbody : bodyOf .cfgBuild s = .ok _ := cfgBuildBody_eq_ok_iff.2 ⟨hl, hr, ho, _, hderive, rfl⟩
  obtain ⟨-, hkn, hn, hrm⟩ := hr
  have hmax := hp.nmax_le
  refine ⟨_, (exec_eq_runCommand _ _).trans (runCommand_ok hbody), fun j hj => ?_, fun j hj => ?_,
    Code.length_buildTable _ _, fun x _ => Code.getD_buildTable hrm x, rfl⟩
  · obtain ⟨hlt, -⟩ := hpos j hj
    rw [State.complete_mpos, State.mpos_commitBuild _ (by simp; omega), BitVec.toNat_ofNat]
    simp only [List.getD_eq_getElem?_getD, List.getElem?_map, List.getElem?_range hj, Option.map_some, Option.getD_some]
    omega
  · rw [State.complete_mpos, State.mpos_commitBuild _ (by simp; omega), List.getD_eq_default _ _ (by simpa using hj)]
    rfl

/-- Settles O14: a valid entry is the first pattern of its syndrome in an enumeration by ascending weight. -/
theorem builtTableLaws : Obligations.BuiltTableLaws := by
  intro p c _ hr
  have ⟨_, _, _, hle⟩ := hr
  refine ⟨?_, fun x e => Code.laws_of_entry hr, ?_, Code.countP_buildTable_le_two_pow hr⟩
  · rw [Code.getD_buildTable hle, c.first_zero, Option.map_some,
      Code.weight_of_mem_patterns0 (List.mem_singleton_self (Bits.zeros c.n))]
    rfl
  · exact c.length_patterns ▸ c.countP_buildTable_le_patterns p

/-- Settles O16: the OLEN bits of OBUF are laid over IBUF, both at their full size. -/
theorem xferCopiesOutputToInput : Obligations.XferCopiesOutputToInput := by
  intro s hw ho
  have hlen : (Bits.slice s.mem.obuf 0 s.olen.toNat).length = s.olen.toNat := by
    obtain ⟨-, hobuf, -⟩ := (Memory.wf_iff _ _).1 hw
    rw [Bits.length_slice, hobuf]
    omega
  refine ⟨_, rfl, fun i hi => ?_, fun i hi => ?_, State.transfer_wf hw, rfl⟩
  · rw [State.complete_mem, State.transfer_mem_ibuf, Bits.bit_overlay, hlen, if_pos hi, Bits.bit_slice, Nat.zero_add]
    simp [hi]
  · rw [State.complete_mem, State.transfer_mem_ibuf, Bits.bit_overlay, hlen, if_neg (Nat.not_lt.2 hi)]

/-- Settles O5: the accepted word is the table word, which decodes to the command. -/
theorem fetchedWordRunsNext : Obligations.FetchedWordRunsNext := by
  intro s nbits w i h
  have hp : ({ s.accept (tableWord nbits w) with resetIn := false } : State).Pending := ⟨rfl, rfl⟩
  exact (step_giveCommand _ s).trans (coreStep_of_decode hp (decode_of_decodeTableWord h))

/-- Settles O6: a CMD write to an idle core is its acceptance. -/
theorem commandWriteIsAccepted : Obligations.CommandWriteIsAccepted := by
  intro s w hb
  rw [State.hostWrite_cmd_of_idle hb]
  exact ⟨rfl, rfl, rfl, rfl⟩

/-- Settles O7: the CMD arm of a write to a busy core is `setOvr`. -/
theorem commandWriteWhileBusySetsOvr : Obligations.CommandWriteWhileBusySetsOvr := fun _ _ hb => if_pos hb

/-- Settles O12: NOP's body changes nothing, and acceptance has cleared ERR, UNCORR and UNDERLEN. -/
theorem nopOnlyCompletes : Obligations.NopOnlyCompletes := by
  refine ⟨fun _ => rfl, fun s hb hr ho hg => ?_⟩
  have hp : (s.accept 0).Pending := ⟨rfl, hr⟩
  refine ⟨(s.accept 0).complete, ?_, State.errWord_of_none rfl, ?_⟩
  · rw [State.hostWrite_cmd_of_idle hb, coreStep_of_decode hp (decode_encode .nop)]
    rfl
  · rw [State.statusWord_complete_accept, ho, hg]
    cases s.status.locked <;> rfl

/-- Settles O15: CFG_UNLOCK has no check, and what it releases is at its reset value. -/
theorem unlockReleasesConfiguration : Obligations.UnlockReleasesConfiguration := fun _ =>
  ⟨_, rfl, getElem?_replicate_getD 32 0, List.length_replicate, getD_replicate_none _, rfl⟩

end Sys2Proof.Machine
end

section
/-! PROOFS of the family 41_linear_block_code: the syndrome (O18), the enumeration and resolution (O19, O20), the block
commands (O21, O22, O23) and which errors decoding corrects (O24, O25, O26). -/

namespace Sys2Proof.Machine

/-! ## Vectors by their set positions -/

namespace Bits

/-- R8: adding the zero vector changes nothing. -/
theorem add_zeros (v : Bits) : add v (zeros v.length) = v :=
  ext_bit (by simp) fun i _ => by rw [bit_add (by simp), bit_zeros, Bool.xor_false]

/-- R8: the weight of a vector is the number of positions below its length that are set. -/
theorem weight_eq_length_filter (v : Bits) : weight v = ((List.range v.length).filter (bit v)).length :=
  weight_eq_length (List.nodup_range.filter _) fun i => by
    rw [List.mem_filter, List.mem_range, iff_and_self]
    exact fun hi => Nat.lt_of_not_le fun hle => by simp [bit_of_length_le hle] at hi

end Bits

/-- Bit i of an XOR over chosen positions is the GF(2) sum of the bits i at these positions. -/
theorem testBit_foldl_xor (n : Nat) (chosen : Nat → Bool) (f : Nat → Nat) (i : Nat) :
    (((List.range n).filter chosen).foldl (fun x p => x ^^^ f p) 0).testBit i =
      bitSum n fun p => (f p).testBit i && chosen p := by
  induction n with
  | zero => simp [bitSum]
  | succ n ih =>
    rw [List.range_succ, List.filter_append, List.foldl_append, bitSum, ← ih]
    cases h : chosen n <;> simp [h]

/-- In a strictly sorted list the smaller of two elements stands earlier. -/
theorem index_lt_of_rel {α : Type} {r : α → α → Prop} [Std.Asymm r] {l : List α} (h : l.Pairwise r) {a b : α}
    {i j : Nat} (hi : l[i]? = some a) (hj : l[j]? = some b) (hr : r a b) : i < j := by
  obtain ⟨hil, rfl⟩ := List.getElem?_eq_some_iff.1 hi
  obtain ⟨hjl, rfl⟩ := List.getElem?_eq_some_iff.1 hj
  rcases Nat.lt_trichotomy i j with hij | rfl | hji
  · exact hij
  · exact absurd hr (Std.Asymm.asymm _ _ hr)
  · exact absurd hr (Std.Asymm.asymm _ _ (List.pairwise_iff_getElem.1 h j i hjl hil hji))

namespace Code

/-! ## The syndrome -/

theorem testBit_hcol (c : Code) (p i : Nat) : (c.hcol p).testBit i = (decide (i < c.r) && c.hBit i p) := by
  rw [hcol, Bits.testBit_toNat, Bits.bit_map_range]

/-- R121: the syndrome is the XOR of the columns of H at the set positions. -/
theorem syn_eq_foldl_hcol (c : Code) (v : Bits) :
    c.syn v = ((List.range c.n).filter (Bits.bit v)).foldl (fun x p => x ^^^ c.hcol p) 0 := by
  refine Nat.eq_of_testBit_eq fun i => ?_
  simp only [testBit_foldl_xor, testBit_hcol, testBit_syn, bit_svec, Bool.and_assoc, bitSum_and_left]

/-- R107, R131: a codeword has syndrome 0, since H·Gᵗ = 0. -/
theorem syn_enc {c : Code} (ho : c.Orthogonal) (m : Bits) : c.syn (c.enc m) = 0 := by
  refine Nat.eq_of_testBit_eq fun r => ?_
  rw [testBit_syn, bit_svec, Nat.zero_testBit, Bool.and_eq_false_imp, decide_eq_true_eq]
  intro hr
  calc
    (bitSum c.n fun p => c.hBit r p && Bits.bit (c.enc m) p)
      = bitSum c.n fun p => bitSum c.k fun i => Bits.bit m i && (c.hBit r p && c.gBit i p) := by
        refine bitSum_congr fun p hp => ?_
        rw [bit_enc, decide_eq_true hp, Bool.true_and, ← bitSum_and_left]
        exact bitSum_congr fun i _ => Bool.and_left_comm _ _ _
    _ = bitSum c.k fun i => bitSum c.n fun p => Bits.bit m i && (c.hBit r p && c.gBit i p) := bitSum_comm _ _ _
    _ = bitSum c.k fun _ => false := bitSum_congr fun i hi => by rw [bitSum_and_left, ho r hr i hi, Bool.and_false]
    _ = false := bitSum_false _

/-! ## The enumeration -/

/-- R123: the pairs of positions p < q below `n`, in the order of E2. -/
def positionPairs (n : Nat) : List (Nat × Nat) :=
  (List.range n).flatMap fun p => (List.range' (p + 1) (n - (p + 1))).map (Prod.mk p)

theorem patterns2_eq_map (c : Code) :
    c.patterns2 = (positionPairs c.n).map fun x => Bits.add (Bits.unit c.n x.1) (Bits.unit c.n x.2) := by
  simp only [patterns2, positionPairs, List.map_flatMap, List.map_map, Function.comp_def]

theorem mem_positionPairs {n p q : Nat} : (p, q) ∈ positionPairs n ↔ p < q ∧ q < n := by
  simp only [positionPairs, List.mem_flatMap, List.mem_range, List.mem_map, List.mem_range'_1, Prod.mk.injEq]
  constructor
  · rintro ⟨_, _, _, _, rfl, rfl⟩
    omega
  · rintro ⟨hpq, hq⟩
    exact ⟨p, by omega, q, by omega, rfl, rfl⟩

theorem positionPairs_sorted (n : Nat) : (positionPairs n).Pairwise (Prod.Lex (· < ·) (· < ·)) := by
  refine List.pairwise_flatMap.2 ⟨fun p _ => ?_, List.pairwise_lt_range.imp fun {p p'} hp x hx y hy => ?_⟩
  · exact List.pairwise_map.2 ((List.pairwise_lt_range' 1 Nat.one_pos).imp (Prod.Lex.right p))
  · obtain ⟨q, -, rfl⟩ := List.mem_map.1 hx
    obtain ⟨q', -, rfl⟩ := List.mem_map.1 hy
    exact Prod.Lex.left q q' hp

/-- R123: where the pattern of a pair of positions stands in the enumeration. -/
theorem patterns_getElem?_pair {c : Code} {i p q : Nat} (h : (positionPairs c.n)[i]? = some (p, q)) :
    c.patterns[1 + c.n + i]? = some (Bits.add (Bits.unit c.n p) (Bits.unit c.n q)) := by
  have hlen : (c.patterns0 ++ c.patterns1).length = 1 + c.n := by simp [patterns0, patterns1, Nat.add_comm]
  rw [patterns, List.getElem?_append_right (by omega), hlen, Nat.add_sub_cancel_left, patterns2_eq_map,
    List.getElem?_map, h, Option.map_some]

theorem patterns_getElem?_unit {c : Code} {p : Nat} (hp : p < c.n) :
    c.patterns[1 + p]? = some (Bits.unit c.n p) := by
  have hget : (c.patterns0 ++ c.patterns1)[1 + p]? = some (Bits.unit c.n p) := by
    rw [patterns0, patterns1, List.getElem?_append_right (by simp)]
    simp [hp]
  rw [patterns, List.getElem?_append_left (List.getElem?_eq_some_iff.1 hget).1, hget]

theorem unit_mem_patterns {c : Code} {p : Nat} (hp : p < c.n) : Bits.unit c.n p ∈ c.patterns :=
  List.mem_of_getElem? (patterns_getElem?_unit hp)

theorem pair_mem_patterns {c : Code} {p q : Nat} (hpq : p < q) (hq : q < c.n) :
    Bits.add (Bits.unit c.n p) (Bits.unit c.n q) ∈ c.patterns := by
  obtain ⟨i, hi⟩ := List.mem_iff_getElem?.1 (mem_positionPairs.2 ⟨hpq, hq⟩)
  exact List.mem_of_getElem? (patterns_getElem?_pair hi)

/-- R123: every vector of weight at most 2 is in the enumeration: it is 0, a unit vector or the sum of two. -/
theorem mem_patterns_of_weight_le {c : Code} {v : Bits} (hl : v.length = c.n) (hw : Bits.weight v ≤ 2) :
    v ∈ c.patterns := by
  rw [Bits.weight_eq_length_filter, hl] at hw
  have hsorted : ((List.range c.n).filter (Bits.bit v)).Pairwise (· < ·) := List.pairwise_lt_range.filter _
  have hmem (i : Nat) : i ∈ (List.range c.n).filter (Bits.bit v) ↔ i < c.n ∧ Bits.bit v i = true := by
    rw [List.mem_filter, List.mem_range]
  generalize (List.range c.n).filter (Bits.bit v) = l at hw hsorted hmem
  have hbit {i : Nat} (hi : i < v.length) : Bits.bit v i = decide (i ∈ l) := by
    rw [Bool.eq_iff_iff, decide_eq_true_eq, hmem, and_iff_right (hl ▸ hi)]
  match l with
  | [] =>
    have hv : v = Bits.zeros c.n := Bits.ext_bit (by simp [hl]) fun i hi => by simp [hbit hi]
    exact hv ▸ c.zeros_mem_patterns
  | [p] =>
    obtain ⟨hp, -⟩ := (hmem p).1 (by simp)
    have hv : v = Bits.unit c.n p := Bits.ext_bit (by simp [hl]) fun i hi => by
      simp [hbit hi, Bits.bit_unit, hl ▸ hi, Bool.beq_eq_decide_eq]
    exact hv ▸ unit_mem_patterns hp
  | [p, q] =>
    obtain ⟨hq, -⟩ := (hmem q).1 (by simp)
    have hpq : p < q := by simpa using hsorted
    have hv : v = Bits.add (Bits.unit c.n p) (Bits.unit c.n q) := Bits.ext_bit (by simp [hl]) fun i hi => by
      rw [Bits.bit_add (by simp), Bits.bit_unit, Bits.bit_unit, hbit hi]
      by_cases hip : i = p
      · simp [hip, hpq.ne, hpq.trans hq]
      · simp [hip, hl ▸ hi, Bool.beq_eq_decide_eq]
    exact hv ▸ pair_mem_patterns hpq hq
  | _ :: _ :: _ :: _ => simp at hw

/-! ## Resolution -/

section Resolution

variable {c : Code} {p : Params}

theorem search_eq_or (c : Code) (x : Nat) :
    c.search x = (c.patterns1.find? fun e => c.syn e == x).or (c.patterns2.find? fun e => c.syn e == x) :=
  List.find?_append

theorem first_eq_or (c : Code) (x : Nat) :
    c.first x = ((c.patterns0 ++ c.patterns1).find? fun e => c.syn e == x).or
      (c.patterns2.find? fun e => c.syn e == x) :=
  List.find?_append

/-- R109: a table built from any list of patterns holds the first of them with each syndrome. -/
theorem getD_foldl_claim (hr : c.r ≤ p.rmax) (es : List Bits) (x : Nat) :
    (es.foldl c.claim (List.replicate (2 ^ p.rmax) none)).getD x none =
      (es.find? fun e => c.syn e == x).map fun e => { pattern := e, weight := BitVec.ofNat 2 (Bits.weight e) } := by
  rw [List.getD_eq_getElem?_getD, getElem?_foldl_claim, List.getElem?_replicate]
  by_cases hx : x < 2 ^ p.rmax
  · simp [hx]
  · have hnone : (es.find? fun e => c.syn e == x) = none := List.find?_eq_none.2 fun e _ he => by
      have hlt := c.syn_lt e
      have hpow := Nat.pow_le_pow_right (show 0 < 2 by decide) hr
      rw [beq_iff_eq.1 he] at hlt
      omega
    simp [hx, hnone]

/-- R124: resolution with a table built from any list of patterns: the lookup, then the search. -/
theorem resolve_foldl_claim (hr : c.r ≤ p.rmax) (es : List Bits) (x : Nat) :
    c.resolve (es.foldl c.claim (List.replicate (2 ^ p.rmax) none)) x =
      (es.find? fun e => c.syn e == x).or (c.search x) := by
  rw [resolve, getD_foldl_claim hr]
  cases es.find? fun e => c.syn e == x <;> rfl

/-- R125: the search finds nothing that the enumeration does not. -/
theorem search_eq_none_of_first {x : Nat} (h : c.first x = none) : c.search x = none := by
  rw [first, List.find?_eq_none] at h
  refine List.find?_eq_none.2 fun e he => h e ?_
  rw [patterns, List.append_assoc]
  exact List.mem_append_right _ he

/-- R125: a built table resolves every syndrome to the first pattern that has it. -/
theorem resolve_buildTable (hr : c.r ≤ p.rmax) (x : Nat) : c.resolve (c.buildTable p) x = c.first x := by
  rw [buildTable, resolve_foldl_claim hr]
  show (c.first x).or (c.search x) = c.first x
  cases h : c.first x with
  | some e => rfl
  | none => exact search_eq_none_of_first h

/-- R125: so does a table of the patterns of weight 0 and 1 alone, the search supplying those of weight 2. -/
theorem resolve_weights01 (hr : c.r ≤ p.rmax) (x : Nat) :
    c.resolve ((c.patterns0 ++ c.patterns1).foldl c.claim (List.replicate (2 ^ p.rmax) none)) x = c.first x := by
  rw [resolve_foldl_claim hr, first_eq_or, search_eq_or, List.find?_append, Option.or_assoc, Option.or_assoc,
    ← Option.or_assoc (o₁ := c.patterns1.find? _), Option.or_self]

end Resolution

/-! ## Decoding -/

section Decoding

variable {c : Code} {table : List (Option TblEntry)} {v e : Bits}

theorem inspect_of_resolve_some (h : c.resolve table (c.syn v) = some e) :
    c.inspect table v = { synd := c.syn v, pattern := e, correctable := true } := by
  rw [inspect, h]

theorem inspect_of_resolve_none (h : c.resolve table (c.syn v) = none) :
    c.inspect table v = { synd := c.syn v, pattern := Bits.zeros c.n, correctable := false } := by
  rw [inspect, h]

/-- R122, R126: a codeword carries bit j of its message at the unit column e_j of G. -/
theorem bit_enc_of_lowestUnitColumn {j p : Nat} (hj : j < c.k) (hp : c.LowestUnitColumn j p) (m : Bits) :
    Bits.bit (c.enc m) p = Bits.bit m j := by
  obtain ⟨hlt, hunit, -⟩ := hp
  rw [bit_enc, bitSum_eq_single c.k j _ fun i hi hne => by simp [hunit i hi, hne], hunit j hj]
  simp [hlt, hj]

/-- R131: with distinct non-zero columns of H, the flip at `p` is the first pattern with its syndrome: an earlier one
would be 0 or another single flip. -/
theorem first_hcol_of_distinctColumns (hd : c.DistinctColumns) {p : Nat} (hp : p < c.n) :
    c.first (c.hcol p) = some (Bits.unit c.n p) := by
  have hunit : Bits.unit c.n p ∈ c.patterns1 := List.mem_map_of_mem (List.mem_range.2 hp)
  have hmem := unit_mem_patterns hp
  obtain ⟨hne, hinj⟩ := hd p hp
  cases hfirst : c.first (c.hcol p) with
  | none => exact absurd (beq_iff_eq.2 (c.syn_unit hp)) (List.find?_eq_none.1 hfirst _ hmem)
  | some e =>
    have hsyn := syn_of_first hfirst
    have hweight := weight_first_le hfirst hmem (c.syn_unit hp)
    rw [weight_of_mem_patterns1 hunit] at hweight
    rcases List.mem_append.1 (List.mem_of_find?_eq_some hfirst) with he | he
    · rcases List.mem_append.1 he with he | he
      · obtain rfl := List.mem_singleton.1 he
        exact absurd (hsyn.symm.trans c.syn_zeros) hne
      · obtain ⟨q, hq, rfl⟩ := List.mem_map.1 he
        have hq := List.mem_range.1 hq
        rw [c.syn_unit hq] at hsyn
        rw [hinj q hq hsyn.symm]
    · rw [weight_of_mem_patterns2 he] at hweight
      omega

end Decoding

end Code

namespace State

section Locked

variable {s : State} {m e f : Bits}

/-- R125, in a locked core. -/
theorem BuiltConfig.resolve_eq_first (h : s.BuiltConfig) (x : Nat) : s.code.resolve s.table x = s.code.first x := by
  obtain ⟨-, -, -, hr⟩ := h.inRange
  rw [h.table, Code.resolve_buildTable hr]

/-- R131: the syndrome of a codeword with errors is the syndrome of the errors. -/
theorem BuiltConfig.syn_enc_add (h : s.BuiltConfig) (m : Bits) (hf : f.length = s.code.n) :
    s.code.syn (Bits.add (s.code.enc m) f) = s.code.syn f := by
  rw [Code.syn_add _ (by rw [Code.length_enc, hf]), Code.syn_enc h.orthogonal, Nat.zero_xor]

/-- R131: a codeword with errors decodes to its message when the first pattern with the syndrome of the errors agrees
with them at every message position. -/
theorem BuiltConfig.decodeMessage_enc_add (h : s.BuiltConfig) (hm : m.length = s.code.k) (hf : f.length = s.code.n)
    (he : s.code.first (s.code.syn f) = some e)
    (hagree : ∀ j < s.code.k, Bits.bit e (s.mpos[j]?.getD 0).toNat = Bits.bit f (s.mpos[j]?.getD 0).toNat) :
    s.code.decodeMessage s.mpos s.table (Bits.add (s.code.enc m) f) = m := by
  have helen : e.length = s.code.n := Code.length_of_mem_patterns (List.mem_of_find?_eq_some he)
  have hres : s.code.resolve s.table (s.code.syn (Bits.add (s.code.enc m) f)) = some e := by
    rw [h.syn_enc_add m hf, h.resolve_eq_first, he]
  refine Bits.ext_bit (by rw [Code.length_decodeMessage, hm]) fun j hj => ?_
  rw [Code.length_decodeMessage] at hj
  rw [Code.decodeMessage, Code.inspect_of_resolve_some hres, Code.bit_extract, Bits.bit_add (by simp [hf, helen]),
    Bits.bit_add (by simp [hf]), hagree j hj, Code.bit_enc_of_lowestUnitColumn hj (h.positions j hj)]
  simp [hj]

end Locked

/-! ## The input and the result of a block command -/

section Block

variable {s : State}

theorem code_n_lt (s : State) : s.code.n < 64 := s.cfg.n.isLt

theorem code_k_lt (s : State) : s.code.k < 64 := s.cfg.k.isLt

/-- R31: below ILEN the input is IBUF. -/
theorem bit_input_of_lt {i : Nat} (h : i < s.ilen.toNat) : Bits.bit s.input i = Bits.bit s.mem.ibuf i := by
  rw [bit_input, decide_eq_true h, Bool.true_and]

/-- R121: the syndrome vector of the input of a block command, in terms of IBUF. -/
theorem bit_svec_input (h : s.ilen.toNat = s.code.n) (r : Nat) :
    Bits.bit (s.code.svec s.input) r =
      (decide (r < s.code.r) && bitSum s.code.n fun p => s.code.hBit r p && Bits.bit s.mem.ibuf p) := by
  rw [Code.bit_svec, bitSum_congr fun p hp => by rw [bit_input_of_lt (h ▸ hp)]]

/-- R150: an input of N bits is its own block. -/
theorem inputBlock_zero (hw : s.mem.wf s.params = true) (hk : s.ilen.toNat ≤ s.params.kmaxBits) {n : Nat}
    (hn : s.ilen.toNat = n) : s.inputBlock n 0 = s.input := by
  refine Bits.ext_bit ?_ fun i hi => ?_
  · rw [length_input hw hk, inputBlock, List.length_map, List.length_range, hn]
  · rw [inputBlock, Bits.bit_map_range, inputBit, bit_input, Nat.zero_mul, Nat.zero_add, hn, ← Bool.and_assoc,
      Bool.and_self]

/-- R124, R127: what the decoder finds in a block. -/
theorem inspect_eq (s : State) (v : Bits) :
    s.code.inspect s.table v =
      { synd := s.code.syn v, pattern := s.patternOf v, correctable := !s.uncorrectable v } := by
  rw [patternOf, uncorrectable]
  cases h : s.code.resolve s.table (s.code.syn v) with
  | some e => exact Code.inspect_of_resolve_some h
  | none => exact Code.inspect_of_resolve_none h

/-- R34, R35, R36, R194: the block results of a command that decodes one block. -/
theorem writeBlockResults_inspect (s t : State) (v : Bits) :
    t.writeBlockResults [s.code.inspect s.table v] =
      { t.setUncorrWhen (s.uncorrectable v) with
        synd := BitVec.ofNat 16 (s.code.syn v)
        epat := Bits.toWord (s.patternOf v)
        nblk := 1
        ncorr := if s.correctedBlock v = true then 1 else 0
        nuncorr := if s.uncorrectable v = true then 1 else 0 } := by
  have hcorr : BlockResult.corrected
      { synd := s.code.syn v, pattern := s.patternOf v, correctable := !s.uncorrectable v } = s.correctedBlock v := rfl
  simp only [inspect_eq, writeBlockResults, List.any_cons, List.any_nil, Bool.or_false, Bool.not_not,
    List.countP_singleton, hcorr]
  cases s.correctedBlock v <;> cases s.uncorrectable v <;> rfl

end Block

end State

/-! ## The obligations -/

/-- Settles O18: bit by bit, with `svec_add` for the sum and `syn_eq_foldl_hcol` for the columns of H. -/
theorem syndromeIsLinear : Obligations.SyndromeIsLinear := by
  intro c v w hv hw
  refine ⟨fun r hr => ?_, fun r => ?_, c.syn_lt v, c.syn_add (hv.trans hw.symm), c.syn_eq_foldl_hcol v⟩
  · rw [Code.bit_svec, decide_eq_true hr, Bool.true_and]
  · rw [Code.testBit_syn, Code.bit_svec, ← Bool.and_assoc, Bool.and_self]

/-- Settles O19: E2 is the image of the pairs p < q, which are strictly sorted. -/
theorem enumerationOrder : Obligations.EnumerationOrder := by
  intro c
  refine ⟨c.length_patterns, rfl, fun p => Code.patterns_getElem?_unit, fun p q hpq hq => ?_,
    fun v => Code.mem_patterns_of_weight_le⟩
  obtain ⟨i, hi⟩ := List.mem_iff_getElem?.1 (Code.mem_positionPairs.2 ⟨hpq, hq⟩)
  refine ⟨1 + c.n + i, Code.patterns_getElem?_pair hi, by omega, fun p' q' hpq' hq' hlex => ?_⟩
  obtain ⟨i', hi'⟩ := List.mem_iff_getElem?.1 (Code.mem_positionPairs.2 ⟨hpq', hq'⟩)
  have hlt := index_lt_of_rel (Code.positionPairs_sorted c.n) hi hi' (Prod.lex_def.2 hlex)
  exact ⟨1 + c.n + i', by omega, Code.patterns_getElem?_pair hi'⟩

/-- Settles O20: the built table holds first(s) where there is one, and elsewhere the search finds none. -/
theorem resolutionIsFirstPattern : Obligations.ResolutionIsFirstPattern := by
  intro s h hl
  have hb := h.locked hl
  obtain ⟨-, -, -, hr⟩ := hb.inRange
  refine ⟨hb.resolve_eq_first, fun x hx => ?_, Code.resolve_weights01 hr, ?_⟩
  · rw [hb.table, Code.getD_buildTable hr, Option.map_eq_none_iff] at hx
    exact Code.search_eq_none_of_first hx
  · rw [hb.resolve_eq_first, Code.first_zero]

/-- Settles O21: the checks pass, and the output is the codeword of the input. -/
theorem encBlkWritesCodeword : Obligations.EncBlkWritesCodeword := by
  intro s hl hk hi
  have hn := s.code_n_lt
  refine ⟨_, runCommand_ok (encBlkBody_eq_ok_iff.2 ⟨hl, hk, hi, rfl⟩), ?_, fun p hp => ?_, rfl⟩
  · rw [State.complete_olen, State.olen_writeObuf _ (by rw [Code.length_enc]; omega), Code.length_enc]
  · rw [State.complete_mem, State.bit_writeObuf _ (by rwa [Code.length_enc]), Code.bit_enc, decide_eq_true hp,
      Bool.true_and]
    exact bitSum_congr fun i hik => by rw [State.bit_input_of_lt (hi ▸ hik)]

/-- Settles O22: the checks pass, and SYND holds the integer of the output, which has at most 16 bits. -/
theorem synBlkWritesSyndrome : Obligations.SynBlkWritesSyndrome := by
  intro s hl hk hi hr16
  refine ⟨_, runCommand_ok (synBlkBody_eq_ok_iff.2 ⟨hl, hk, hi, rfl⟩), ?_, fun r hr => ?_, fun r => ?_, rfl⟩
  · show (s.writeObuf (s.code.svec s.input)).olen.toNat = s.code.r
    rw [State.olen_writeObuf _ (by rw [Code.length_svec]; omega), Code.length_svec]
  · show Bits.bit (s.writeObuf (s.code.svec s.input)).mem.obuf r = _
    rw [State.bit_writeObuf _ (by rwa [Code.length_svec]), State.bit_svec_input hi, Code.r, decide_eq_true hr,
      Bool.true_and]
  · show (BitVec.ofNat 16 (s.code.syn s.input)).getLsbD r = _
    rw [BitVec.getLsbD_ofNat, Code.testBit_syn, State.bit_svec_input hi, ← Bool.and_assoc, ← Bool.decide_and]
    congr 2
    exact propext (and_iff_right_of_imp fun hr => hr.trans_le hr16)

/-- Settles O23: the checks pass, and the one block of the input is inspected. -/
theorem decBlkCorrectsAndExtracts : Obligations.DecBlkCorrectsAndExtracts := by
  intro s hl hw hk hi
  have hlt := s.code_k_lt
  have hbody := decBlkBody_eq_ok_iff.2 ⟨hl, hk, hi, rfl⟩
  rw [State.writeBlockResults_inspect] at hbody
  rw [State.inputBlock_zero hw hk hi]
  refine ⟨_, runCommand_ok hbody, ?_, fun j hj => ?_, rfl, rfl, rfl, rfl, rfl, rfl⟩
  · show (s.writeObuf (s.code.decodeMessage s.mpos s.table s.input)).olen.toNat = s.code.k
    rw [State.olen_writeObuf _ (by rw [Code.length_decodeMessage]; omega), Code.length_decodeMessage]
  · show Bits.bit (s.writeObuf (s.code.decodeMessage s.mpos s.table s.input)).mem.obuf j = _
    rw [State.bit_writeObuf _ (by rwa [Code.length_decodeMessage]), Code.decodeMessage, Code.bit_extract,
      decide_eq_true hj, Bool.true_and, s.inspect_eq]

/-- Settles O24: the errors are the zero vector, which is the first pattern of syndrome 0. -/
theorem errorFreeBlockDecodes : Obligations.ErrorFreeBlockDecodes := by
  intro s m h hl hm
  have hb := h.locked hl
  have hsyn := Code.syn_enc hb.orthogonal m
  have hres : s.code.resolve s.table (s.code.syn (s.code.enc m)) = some (Bits.zeros s.code.n) := by
    rw [hsyn, hb.resolve_eq_first, Code.first_zero]
  refine ⟨hsyn, ?_, ?_, ?_⟩
  · have hdec := hb.decodeMessage_enc_add hm (Bits.length_zeros _) (e := Bits.zeros s.code.n)
      (by rw [Code.syn_zeros, Code.first_zero]) fun _ _ => rfl
    rwa [← s.code.length_enc m, Bits.add_zeros] at hdec
  · simp [State.correctedBlock, State.patternOf, hres, Bits.zeros]
  · simp [State.uncorrectable, hres]

/-- Settles O25: the errors are one unit vector. -/
theorem singleFlipIsCorrected : Obligations.SingleFlipIsCorrected := by
  intro s m p h hl hm hp
  have hb := h.locked hl
  have hunit := Bits.length_unit s.code.n p
  have hsyn := s.code.syn_unit hp
  refine ⟨(hb.syn_enc_add m hunit).trans hsyn, fun e he => ?_, fun hd => ?_⟩
  · exact hb.decodeMessage_enc_add hm hunit (hsyn ▸ he)
  · exact hb.decodeMessage_enc_add hm hunit (hsyn ▸ Code.first_hcol_of_distinctColumns hd hp) fun _ _ => rfl

/-- Settles O26: the errors are the pair itself. -/
theorem unclaimedDoubleFlipIsCorrected : Obligations.UnclaimedDoubleFlipIsCorrected := by
  intro s m p q h hl hm hpq hq hfirst
  have hsyn : s.code.syn (Bits.add (Bits.unit s.code.n p) (Bits.unit s.code.n q)) =
      s.code.hcol p ^^^ s.code.hcol q := by
    rw [Code.syn_add _ (by simp), Code.syn_unit _ (hpq.trans hq), Code.syn_unit _ hq]
  exact (h.locked hl).decodeMessage_enc_add hm (by simp) (hsyn ▸ hfirst) fun _ _ => rfl

end Sys2Proof.Machine
end

section
/-! PROOFS of the family 42_key_codec: ENC_KEY (O27), DEC_KEY (O28), the round trip of a key (O30) and one flip per
block, corrected by DEC_KEY and reported by LOCATE (O31). -/

namespace Sys2Proof.Machine

/-! ## Lists of blocks -/

/-- Bit `p` of block `b` stands before the end of the last block. -/
theorem mul_add_lt_mul {b p k n : Nat} (hb : b < k) (hp : p < n) : b * n + p < k * n := by
  rw [Nat.mul_comm b]
  exact Nat.mul_add_lt_mul_of_lt_of_lt hb hp

theorem getLast?_map_range {α : Type} (f : Nat → α) (n : Nat) :
    ((List.range n).map f).getLast? = if n = 0 then none else some (f (n - 1)) := by
  rw [List.getLast?_map, List.getLast?_range]
  split <;> rfl

theorem any_eq_decide_countP_pos {α : Type} (p : α → Bool) (l : List α) : l.any p = decide (0 < l.countP p) := by
  rw [Bool.eq_iff_iff, List.any_eq_true, decide_eq_true_eq, List.countP_pos_iff]

/-! ## Results of the blocks of an input -/

namespace State

section BlockResults

variable (t : State) (f : Nat → BlockResult) {n : Nat}

/-- R34: SYND is that of the last block. -/
theorem synd_writeBlockResults_range :
    (t.writeBlockResults ((List.range n).map f)).synd = if n = 0 then 0 else BitVec.ofNat 16 (f (n - 1)).synd := by
  rw [writeBlockResults_synd, getLast?_map_range]
  split <;> rfl

/-- R35: EPAT is that of the last block. -/
theorem epat_writeBlockResults_range :
    (t.writeBlockResults ((List.range n).map f)).epat = if n = 0 then 0 else Bits.toWord (f (n - 1)).pattern := by
  rw [writeBlockResults_epat, getLast?_map_range]
  split <;> rfl

/-- R36: NBLK. -/
theorem toNat_nblk_writeBlockResults_range (hn : n < 2 ^ 32) :
    (t.writeBlockResults ((List.range n).map f)).nblk.toNat = n := by
  rw [writeBlockResults_nblk, List.length_map, List.length_range, BitVec.toNat_ofNat, Nat.mod_eq_of_lt hn]

theorem toNat_ofNat_countP_map_range (p : BlockResult → Bool) (hn : n < 2 ^ 32) :
    (BitVec.ofNat 32 (((List.range n).map f).countP p)).toNat = (List.range n).countP fun b => p (f b) := by
  have hle : (List.range n).countP (p ∘ f) ≤ n := List.countP_le_length.trans_eq List.length_range
  rw [List.countP_map, BitVec.toNat_ofNat, Nat.mod_eq_of_lt (hle.trans_lt hn)]
  rfl

/-- R36: NCORR. -/
theorem toNat_ncorr_writeBlockResults_range (hn : n < 2 ^ 32) :
    (t.writeBlockResults ((List.range n).map f)).ncorr.toNat = (List.range n).countP fun b => (f b).corrected :=
  toNat_ofNat_countP_map_range f _ hn

/-- R36: NUNCORR. -/
theorem toNat_nuncorr_writeBlockResults_range (hn : n < 2 ^ 32) :
    (t.writeBlockResults ((List.range n).map f)).nuncorr.toNat = (List.range n).countP fun b => !(f b).correctable :=
  toNat_ofNat_countP_map_range f _ hn

/-- R194: UNCORR rises with the first uncorrectable block. -/
theorem uncorr_writeBlockResults_range (hn : n < 2 ^ 32) :
    (t.writeBlockResults ((List.range n).map f)).status.uncorr =
      (t.status.uncorr || decide (0 < (t.writeBlockResults ((List.range n).map f)).nuncorr.toNat)) := by
  rw [writeBlockResults_status_uncorr, any_eq_decide_countP_pos, toNat_nuncorr_writeBlockResults_range t f hn,
    List.countP_map]
  rfl

end BlockResults

/-! ## The blocks of the input -/

section Blocks

variable {s : State}

/-- R150: no input has more blocks than bits (and none when the block length is 0). -/
theorem blockCount_le (s : State) (b : Nat) : s.blockCount b ≤ s.ilen.toNat := by
  cases b with
  | zero => simp [blockCount]
  | succ b => exact nblocks_le _ b.succ_pos

theorem blockCount_lt (s : State) (b : Nat) : s.blockCount b < 2 ^ 32 := (s.blockCount_le b).trans_lt s.ilen.isLt

@[simp] theorem length_inputBlock (s : State) (b t : Nat) : (s.inputBlock b t).length = b := by simp [inputBlock]

theorem inputBit_eq (s : State) (b t p : Nat) : s.inputBit b t p = Bits.bit s.input (t * b + p) := by
  rw [bit_input, inputBit]

theorem bit_inputBlock (s : State) (b t : Nat) {p : Nat} (hp : p < b) :
    Bits.bit (s.inputBlock b t) p = s.inputBit b t p := by
  rw [inputBlock, Bits.bit_map_range, decide_eq_true hp, Bool.true_and]

/-- R150: position `i` of the padded input stands at `i % b` in block `i / b`. -/
theorem bit_inputBlock_div_mod (s : State) {b : Nat} (hb : 0 < b) (i : Nat) :
    Bits.bit (s.inputBlock b (i / b)) (i % b) = (decide (i < s.ilen.toNat) && Bits.bit s.mem.ibuf i) := by
  rw [bit_inputBlock s b _ (Nat.mod_lt i hb), inputBit, Nat.div_add_mod']

/-- R150: `blocks_input` for every block length: of length 0 there are no blocks. -/
theorem blocks_input_eq_map (hw : s.mem.wf s.params = true) (hk : s.ilen.toNat ≤ s.params.kmaxBits) (b : Nat) :
    blocks s.input b = (List.range (s.blockCount b)).map (s.inputBlock b) := by
  cases b with
  | zero => simp [blocks, nblocks, blockCount]
  | succ b => exact blocks_input hw hk b.succ_pos

/-! ## The key codec on the input -/

section KeyCodec

variable (hw : s.mem.wf s.params = true) (hk : s.ilen.toNat ≤ s.params.kmaxBits)
include hw hk

theorem length_encodeKey_input : (s.code.encodeKey s.input).length = s.blockCount s.code.k * s.code.n := by
  rw [Code.length_encodeKey, length_input hw hk, nblocks, blockCount]

/-- R151: codeword `b` of the encoded key stands at `b·N`. -/
theorem bit_encodeKey_input {b p : Nat} (hb : b < s.blockCount s.code.k) (hp : p < s.code.n) :
    Bits.bit (s.code.encodeKey s.input) (b * s.code.n + p) =
      Bits.bit (s.code.enc (s.inputBlock s.code.k b)) p := by
  rw [Code.encodeKey, blocks_input_eq_map hw hk, bit_flatMap_const _ _ _ (fun x _ => s.code.length_enc x) (by simpa) hp,
    List.getElem_map, List.getElem_range]

theorem length_decodeKey_input :
    (s.code.decodeKey s.mpos s.table s.input).length = s.blockCount s.code.n * s.code.k := by
  rw [Code.length_decodeKey, length_input hw hk, nblocks, blockCount]

/-- R152: message `b` of the decoded key stands at `b·K`. -/
theorem bit_decodeKey_input {b j : Nat} (hb : b < s.blockCount s.code.n) (hj : j < s.code.k) :
    Bits.bit (s.code.decodeKey s.mpos s.table s.input) (b * s.code.k + j) =
      Bits.bit (s.code.decodeMessage s.mpos s.table (s.inputBlock s.code.n b)) j := by
  rw [Code.decodeKey, blocks_input_eq_map hw hk,
    bit_flatMap_const _ _ _ (fun x _ => s.code.length_decodeMessage _ _ x) (by simpa) hj, List.getElem_map,
    List.getElem_range]

end KeyCodec

/-- R126, R127: message bit j is the bit at MPOS[j] of the corrected block. -/
theorem bit_decodeMessage (s : State) (v : Bits) {j : Nat} (hj : j < s.code.k) :
    Bits.bit (s.code.decodeMessage s.mpos s.table v) j =
      Bits.bit (Bits.add v (s.patternOf v)) (s.mpos[j]?.getD 0).toNat := by
  rw [Code.decodeMessage, Code.bit_extract, decide_eq_true hj, Bool.true_and, inspect_eq]

theorem trimmedLength_le (s : State) (orig : Bool) : s.trimmedLength orig ≤ s.blockCount s.code.n * s.code.k := by
  rw [trimmedLength]
  split
  · exact Nat.min_le_right _ _
  · exact Nat.le_refl _

/-! ## What ENC_KEY, DEC_KEY and LOCATE answer -/

/-- R151: ENC_KEY within capacity. -/
theorem exec_encKey (hl : s.status.locked = true) (hk : s.ilen.toNat ≤ s.params.kmaxBits)
    (hcap : s.blockCount s.code.k * s.code.n ≤ s.params.kmaxBits) :
    exec .encKey s = .next (s.writeObuf (s.code.encodeKey s.input)).complete :=
  runCommand_ok (encKeyBody_eq_ok_iff.2 ⟨hl, hk, hcap, rfl⟩)

/-- R152: what DEC_KEY finds in block `b` of the input. -/
def decodedBlock (s : State) (b : Nat) : BlockResult := s.code.inspect s.table (s.inputBlock s.code.n b)

theorem decodedBlock_eq (s : State) (b : Nat) :
    s.decodedBlock b =
      { synd := s.code.syn (s.inputBlock s.code.n b)
        pattern := s.patternOf (s.inputBlock s.code.n b)
        correctable := !s.uncorrectable (s.inputBlock s.code.n b) } :=
  s.inspect_eq _

theorem corrected_decodedBlock (s : State) (b : Nat) :
    (s.decodedBlock b).corrected = s.correctedBlock (s.inputBlock s.code.n b) := by
  rw [decodedBlock_eq]
  rfl

/-- R152: DEC_KEY within capacity. -/
theorem exec_decKey {orig : Bool} (hl : s.status.locked = true) (hw : s.mem.wf s.params = true)
    (hk : s.ilen.toNat ≤ s.params.kmaxBits) (hcap : s.trimmedLength orig ≤ s.params.kmaxBits) :
    exec (.decKey orig) s =
      .next ((s.writeObuf ((s.code.decodeKey s.mpos s.table s.input).take (s.trimmedLength orig))).writeBlockResults
        ((List.range (s.blockCount s.code.n)).map s.decodedBlock)).complete := by
  have hresults : (blocks s.input s.code.n).map (s.code.inspect s.table) =
      (List.range (s.blockCount s.code.n)).map s.decodedBlock := by
    rw [blocks_input_eq_map hw hk, List.map_map]
    rfl
  rw [← hresults]
  exact runCommand_ok (decKeyBody_eq_ok_iff.2 ⟨hl, hk, hcap, rfl⟩)

/-- R165: what LOCATE takes block `b` of the input for. -/
def locatedBlock (s : State) (b : Nat) : BlockResult := s.code.inspectNonzero s.table (s.inputBlock s.code.n b)

theorem locatedBlock_eq (s : State) (b : Nat) :
    s.locatedBlock b =
      { synd := s.code.syn (s.inputBlock s.code.n b)
        pattern := s.locatedPattern (s.inputBlock s.code.n b)
        correctable := !s.locatedUncorrectable (s.inputBlock s.code.n b) } := by
  rw [locatedBlock, Code.inspectNonzero, inspect_eq, locatedPattern, locatedUncorrectable]
  by_cases hsyn : s.code.syn (s.inputBlock s.code.n b) = 0 <;> simp [hsyn]

/-- R165: the positions LOCATE reports. -/
def locatedPositions (s : State) (orig : Bool) : List Nat :=
  (s.code.globalPositions 0 ((List.range (s.blockCount s.code.n)).map s.locatedBlock)).filter (s.positionKept orig)

/-- R165: LOCATE of an input that fits IBUF. -/
theorem exec_locate (orig : Bool) (hl : s.status.locked = true) (hw : s.mem.wf s.params = true)
    (hk : s.ilen.toNat ≤ s.params.kmaxBits) :
    exec (.locate orig) s =
      .next ((s.writeLocbuf (s.locatedPositions orig)).writeBlockResults
        ((List.range (s.blockCount s.code.n)).map s.locatedBlock)).complete := by
  have hresults : s.code.locateResults s.table s.input = (List.range (s.blockCount s.code.n)).map s.locatedBlock := by
    rw [Code.locateResults, blocks_input_eq_map hw hk, List.map_map]
    rfl
  rw [locatedPositions, ← hresults]
  exact runCommand_ok (locateBody_eq_ok_iff.2 ⟨hl, hk, rfl⟩)

/-- R165: a position is reported when it is set in its block's pattern and, with ORIG = 1, below ORIGLEN. -/
theorem mem_locatedPositions {orig : Bool} {g : Nat} :
    g ∈ s.locatedPositions orig ↔
      ∃ b < s.blockCount s.code.n, ∃ p < s.code.n, g = b * s.code.n + p ∧
        Bits.bit (s.locatedPattern (s.inputBlock s.code.n b)) p = true ∧ (orig = true → g < s.origLen.toNat) := by
  have hkept : s.positionKept orig g = true ↔ (orig = true → g < s.origLen.toNat) := by
    cases orig <;> simp [positionKept]
  rw [locatedPositions, List.mem_filter, Code.mem_globalPositions, hkept]
  constructor
  · rintro ⟨⟨b, hb, p, hp, hbit, rfl⟩, hg⟩
    rw [List.length_map, List.length_range] at hb
    rw [List.getElem_map, List.getElem_range, locatedBlock_eq] at hbit
    rw [Nat.zero_add] at hg ⊢
    exact ⟨b, hb, p, hp, rfl, hbit, hg⟩
  · rintro ⟨b, hb, p, hp, rfl, hbit, hg⟩
    refine ⟨⟨b, by simpa, p, hp, ?_, by rw [Nat.zero_add]⟩, hg⟩
    rwa [List.getElem_map, List.getElem_range, locatedBlock_eq]

theorem locatedPositions_sorted (s : State) (orig : Bool) : (s.locatedPositions orig).Pairwise (· < ·) :=
  (Code.globalPositions_sorted _ _ _).filter _

/-- R5, R150: the positions of the padded input fit a register. -/
theorem lt_of_mem_locatedPositions {orig : Bool} (hp : s.params.Legal) (hk : s.ilen.toNat ≤ s.params.kmaxBits)
    {g : Nat} (hg : g ∈ s.locatedPositions orig) : g < 2 ^ 32 - 1 := by
  obtain ⟨b, hb, p, hpn, rfl, -⟩ := mem_locatedPositions.1 hg
  have hmul : b * s.code.n ≤ 16384 * 64 :=
    Nat.mul_le_mul (hb.le.trans ((s.blockCount_le _).trans (hk.trans hp.kmaxBits_le))) s.code_n_lt.le
  have hn := s.code_n_lt
  omega

/-- R37, R41: the entries of LOCBUF below LOCCNT are the positions written. -/
theorem locbuf_writeLocbuf_iff (t : State) {l : List Nat} (hlen : l.length < 2 ^ 32) (hlt : ∀ g ∈ l, g < 2 ^ 32)
    (g : Nat) :
    (∃ e < (t.writeLocbuf l).loccnt.toNat, ((t.writeLocbuf l).mem.locbuf.getD e 0).toNat = g) ↔ g ∈ l := by
  have hentry {e : Nat} (he : e < l.length) : ((t.writeLocbuf l).mem.locbuf.getD e 0).toNat = l[e] := by
    rw [writeLocbuf_mem_locbuf, List.getD_eq_getElem?_getD, List.getElem?_append_left (by simpa), List.getElem?_map,
      List.getElem?_eq_getElem he, Option.map_some, Option.getD_some, BitVec.toNat_ofNat,
      Nat.mod_eq_of_lt (hlt _ (List.getElem_mem he))]
  rw [writeLocbuf_loccnt, BitVec.toNat_ofNat, Nat.mod_eq_of_lt hlen, List.mem_iff_getElem]
  constructor
  · rintro ⟨e, he, rfl⟩
    exact ⟨e, he, (hentry he).symm⟩
  · rintro ⟨e, he, rfl⟩
    exact ⟨e, he, hentry he⟩

/-- R165: after LOCATE, LOCBUF below LOCCNT holds the reported positions. -/
theorem locbuf_locatedPositions_iff (orig : Bool) (hp : s.params.Legal) (hk : s.ilen.toNat ≤ s.params.kmaxBits)
    (g : Nat) :
    (∃ e < (s.writeLocbuf (s.locatedPositions orig)).loccnt.toNat,
        ((s.writeLocbuf (s.locatedPositions orig)).mem.locbuf.getD e 0).toNat = g) ↔
      g ∈ s.locatedPositions orig := by
  have hlt (g : Nat) (hg : g ∈ s.locatedPositions orig) := lt_of_mem_locatedPositions hp hk hg
  have hlen := Code.length_le_of_sorted (s.locatedPositions_sorted orig) hlt
  exact locbuf_writeLocbuf_iff s (by omega) (fun g hg => (hlt g hg).trans (by decide)) g

end Blocks

end State

/-! ## O27 and O28 -/

/-- Settles O27: the checks pass, and the output is the codewords of the blocks of the input, end to end. -/
theorem encKeyEncodesPaddedBlocks : Obligations.EncKeyEncodesPaddedBlocks := by
  intro s hp hl hw hk hcap
  have hlen := State.length_encodeKey_input hw hk
  have hmax := hp.kmaxBits_le
  refine ⟨_, State.exec_encKey hl hk hcap, ?_, fun b hb p hpn => ?_, rfl⟩
  · rw [State.complete_olen, State.olen_writeObuf _ (by omega), hlen]
  · rw [State.complete_mem, State.bit_writeObuf _ (hlen ▸ mul_add_lt_mul hb hpn),
      State.bit_encodeKey_input hw hk hb hpn, Code.bit_enc, decide_eq_true hpn, Bool.true_and]
    exact bitSum_congr fun i hi => by rw [State.bit_inputBlock _ _ _ hi]

/-- Settles O28: the checks pass, the output is the messages of the blocks of the input, end to end and cut at Lout, and
the block results are those of every block. -/
theorem decKeyDecodesAndTrims : Obligations.DecKeyDecodesAndTrims := by
  intro s orig hp hl hw hk hcap
  have hlen : ((s.code.decodeKey s.mpos s.table s.input).take (s.trimmedLength orig)).length = s.trimmedLength orig :=
    List.length_take_of_le ((s.trimmedLength_le orig).trans_eq (State.length_decodeKey_input hw hk).symm)
  have hmax := hp.kmaxBits_le
  have hcount := s.blockCount_lt s.code.n
  refine ⟨_, State.exec_decKey hl hw hk hcap, ?_, fun b hb j hj hlt => ?_, ?_, ?_, ?_, ?_, ?_, ?_, rfl⟩
  · rw [State.complete_olen, State.writeBlockResults_olen, State.olen_writeObuf _ (by omega), hlen]
  · rw [State.complete_mem, State.writeBlockResults_mem, State.bit_writeObuf _ (hlt.trans_eq hlen.symm), Bits.bit_take,
      decide_eq_true hlt, Bool.true_and, State.bit_decodeKey_input hw hk hb hj, State.bit_decodeMessage _ _ hj]
  · rw [State.complete_synd, State.synd_writeBlockResults_range, State.decodedBlock_eq]
  · rw [State.complete_epat, State.epat_writeBlockResults_range, State.decodedBlock_eq]
  · rw [State.complete_nblk, State.toNat_nblk_writeBlockResults_range _ _ hcount]
  · simp only [State.complete_ncorr, State.toNat_ncorr_writeBlockResults_range _ _ hcount, State.corrected_decodedBlock]
  · simp only [State.complete_nuncorr, State.toNat_nuncorr_writeBlockResults_range _ _ hcount, State.decodedBlock_eq,
      Bool.not_not]
  · exact State.uncorr_writeBlockResults_range _ _ hcount

/-! ## Decoding blocks whose errors are corrected -/

/-- R131, R153: `v` is the codeword of the message `m` with errors `e` that decoding corrects: `e` is the first pattern
with its syndrome. -/
structure Code.Correctable (c : Code) (v m e : Bits) : Prop where
  message  : m.length = c.k
  received : v = Bits.add (c.enc m) e
  first    : c.first (c.syn e) = some e

theorem Code.Correctable.length_errors {c : Code} {v m e : Bits} (h : c.Correctable v m e) : e.length = c.n :=
  length_of_mem_patterns (List.mem_of_find?_eq_some h.first)

/-- R131 law 1: no errors are correctable errors. -/
theorem Code.correctable_enc {c : Code} {m : Bits} (hm : m.length = c.k) :
    c.Correctable (c.enc m) m (Bits.zeros c.n) where
  message := hm
  received := by rw [← c.length_enc m, Bits.add_zeros]
  first := by rw [syn_zeros, first_zero]

/-- R131 law 2: with distinct non-zero columns of H so is a single flip. -/
theorem Code.correctable_unit {c : Code} {m : Bits} {p : Nat} (hd : c.DistinctColumns) (hm : m.length = c.k)
    (hp : p < c.n) : c.Correctable (Bits.add (c.enc m) (Bits.unit c.n p)) m (Bits.unit c.n p) where
  message := hm
  received := rfl
  first := by rw [syn_unit _ hp, first_hcol_of_distinctColumns hd hp]

namespace State

variable {s : State}

section Correctable

variable {v m e : Bits} (hb : s.BuiltConfig) (h : s.code.Correctable v m e)
include hb h

/-- R125, R131: resolution finds the errors. -/
theorem BuiltConfig.resolve_of_correctable : s.code.resolve s.table (s.code.syn v) = some e := by
  rw [h.received, hb.syn_enc_add m h.length_errors, hb.resolve_eq_first, h.first]

theorem BuiltConfig.patternOf_of_correctable : s.patternOf v = e := by
  rw [patternOf, hb.resolve_of_correctable h, Option.getD_some]

theorem BuiltConfig.uncorrectable_of_correctable : s.uncorrectable v = false := by
  rw [uncorrectable, hb.resolve_of_correctable h, Option.isNone_some]

/-- R36: the block counts as corrected when it has errors. -/
theorem BuiltConfig.correctedBlock_of_correctable : s.correctedBlock v = e.any id := by
  rw [correctedBlock, hb.uncorrectable_of_correctable h, hb.patternOf_of_correctable h, Bool.not_false, Bool.true_and]

/-- R131: the message comes back. -/
theorem BuiltConfig.decodeMessage_of_correctable : s.code.decodeMessage s.mpos s.table v = m := by
  rw [h.received]
  exact hb.decodeMessage_enc_add h.message h.length_errors h.first fun _ _ => rfl

/-- R165: LOCATE takes the zero syndrome for no errors without resolving it, as resolution would. -/
theorem BuiltConfig.locatedPattern_of_correctable : s.locatedPattern v = e := by
  rw [locatedPattern]
  split
  next hsyn =>
    have hres := hb.resolve_of_correctable h
    rwa [hsyn, hb.resolve_eq_first, Code.first_zero, Option.some_inj] at hres
  next => exact hb.patternOf_of_correctable h

theorem BuiltConfig.locatedUncorrectable_of_correctable : s.locatedUncorrectable v = false := by
  rw [locatedUncorrectable, hb.uncorrectable_of_correctable h, Bool.and_false]

end Correctable

/-- R131, R152: DEC_KEY of an input whose blocks have correctable errors: the messages, cut at Lout, and no error. -/
theorem exec_decKey_of_correctable {orig : Bool} {m e : Nat → Bits} (hp : s.params.Legal) (hl : s.status.locked = true)
    (hw : s.mem.wf s.params = true) (hk : s.ilen.toNat ≤ s.params.kmaxBits)
    (hcap : s.trimmedLength orig ≤ s.params.kmaxBits) (hb : s.BuiltConfig)
    (hblocks : ∀ b < s.blockCount s.code.n, s.code.Correctable (s.inputBlock s.code.n b) (m b) (e b)) :
    ∃ t, exec (.decKey orig) s = .next t ∧ t.err = s.err ∧ t.olen.toNat = s.trimmedLength orig ∧
      (∀ b < s.blockCount s.code.n, ∀ j < s.code.k, b * s.code.k + j < s.trimmedLength orig →
        Bits.bit t.mem.obuf (b * s.code.k + j) = Bits.bit (m b) j) ∧
      t.ncorr.toNat = (List.range (s.blockCount s.code.n)).countP (fun b => (e b).any id) ∧ t.nuncorr = 0 := by
  obtain ⟨t, hexec, holen, hobuf, -, -, -, hncorr, hnuncorr, -, hframe⟩ := decKeyDecodesAndTrims s orig hp hl hw hk hcap
  have hblock {b : Nat} (hlt : b ∈ List.range (s.blockCount s.code.n)) := hblocks b (List.mem_range.1 hlt)
  refine ⟨t, hexec, by rw [hframe], holen, fun b hlt j hj hout => ?_, ?_, BitVec.eq_of_toNat_eq ?_⟩
  · rw [hobuf b hlt j hj hout, ← bit_decodeMessage s _ hj, hb.decodeMessage_of_correctable (hblocks b hlt)]
  · rw [hncorr]
    exact List.countP_congr fun b hlt => by rw [hb.correctedBlock_of_correctable (hblock hlt)]
  · rw [hnuncorr]
    exact List.countP_eq_zero.2 fun b hlt => by
      rw [hb.uncorrectable_of_correctable (hblock hlt)]
      exact Bool.false_ne_true

end State

/-! ## O30: a key that was encoded and transferred -/

namespace State

variable {s : State}

/-- R151, R112: the state after ENC_KEY and XFER, its input the encoded key (`exec_encKey`, `exec_xfer_encoded`). -/
def withEncodedInput (s : State) : State := (s.writeObuf (s.code.encodeKey s.input)).complete.transfer.complete

theorem exec_xfer_encoded (s : State) :
    exec .xfer (s.writeObuf (s.code.encodeKey s.input)).complete = .next s.withEncodedInput := rfl

/-- R112: XFER after a command with the output `out` makes `out` the input. -/
theorem input_transfer_writeObuf (s : State) {out : Bits} (h : out.length < 2 ^ 32) :
    (s.writeObuf out).transfer.input = out := by
  have hslice :
      Bits.slice (out ++ freeBits s.draws out.length (s.params.kmaxBits - out.length)) 0 out.length = out := by
    rw [Bits.slice, List.drop_zero, List.take_left]
  rw [input, transfer_ilen, transfer_mem_ibuf, olen_writeObuf s h, writeObuf_mem_obuf, hslice, Bits.overlay, Bits.slice,
    List.drop_zero, List.take_left]

section EncodedInput

variable (h : s.Inv) (hk : s.ilen.toNat ≤ s.params.kmaxBits)
  (hcap : s.blockCount s.code.k * s.code.n ≤ s.params.kmaxBits)
include h hk hcap

theorem length_encodeKey_input_lt : (s.code.encodeKey s.input).length < 2 ^ 32 := by
  have hmax := h.params.kmaxBits_le
  rw [length_encodeKey_input h.memory hk]
  omega

theorem ilen_withEncodedInput : s.withEncodedInput.ilen.toNat = s.blockCount s.code.k * s.code.n := by
  rw [← length_encodeKey_input h.memory hk]
  exact olen_writeObuf s (length_encodeKey_input_lt h hk hcap)

theorem wf_withEncodedInput : s.withEncodedInput.mem.wf s.params = true :=
  transfer_wf (s := (s.writeObuf _).complete)
    (writeObuf_wf h.memory ((length_encodeKey_input h.memory hk).trans_le hcap))

/-- R150: the encoded key has as many blocks of N bits as the key has of K bits. -/
theorem blockCount_withEncodedInput (hl : s.status.locked = true) :
    s.withEncodedInput.blockCount s.code.n = s.blockCount s.code.k := by
  rw [blockCount, ilen_withEncodedInput h hk hcap]
  exact nblocks_mul _ (Nat.zero_lt_of_lt (h.locked hl).k_lt_n)

/-- R151: the blocks of the encoded key are the codewords of the blocks of the key. -/
theorem inputBlock_withEncodedInput {b : Nat} (hb : b < s.blockCount s.code.k) :
    s.withEncodedInput.inputBlock s.code.n b = s.code.enc (s.inputBlock s.code.k b) := by
  have hinput : s.withEncodedInput.input = s.code.encodeKey s.input :=
    input_transfer_writeObuf s (length_encodeKey_input_lt h hk hcap)
  refine Bits.ext_bit (by rw [length_inputBlock, Code.length_enc]) fun p hp => ?_
  rw [length_inputBlock] at hp
  rw [bit_inputBlock _ _ _ hp, inputBit_eq, hinput, bit_encodeKey_input h.memory hk hb hp]

/-- R152: Lout of the encoded key, under ORIGLEN = `x`. -/
theorem trimmedLength_withEncodedInput (hl : s.status.locked = true) (orig : Bool) (x : Word) :
    ({ s.withEncodedInput with origLen := x } : State).trimmedLength orig =
      if orig = true then min x.toNat (s.blockCount s.code.k * s.code.k) else s.blockCount s.code.k * s.code.k := by
  rw [← blockCount_withEncodedInput h hk hcap hl]
  rfl

/-- R153: DEC_KEY of the encoded key returns the key with its zero pad, cut at Lout, without any correction. -/
theorem exec_decKey_withEncodedInput (hl : s.status.locked = true) (orig : Bool) (x : Word) :
    ∃ v, exec (.decKey orig) { s.withEncodedInput with origLen := x } = .next v ∧ v.err = s.err ∧
      v.olen.toNat = ({ s.withEncodedInput with origLen := x } : State).trimmedLength orig ∧
      (∀ i < v.olen.toNat, Bits.bit v.mem.obuf i = (decide (i < s.ilen.toNat) && Bits.bit s.mem.ibuf i)) ∧
      v.ncorr = 0 ∧ v.nuncorr = 0 := by
  have hb := h.locked hl
  obtain ⟨hk0, hkn, -⟩ := hb.inRange
  have hcount := blockCount_withEncodedInput h hk hcap hl
  have hle : ({ s.withEncodedInput with origLen := x } : State).trimmedLength orig ≤
      s.blockCount s.code.k * s.code.k := (trimmedLength_le _ orig).trans_eq (congrArg (· * s.code.k) hcount)
  have hmul : s.blockCount s.code.k * s.code.k ≤ s.params.kmaxBits := (Nat.mul_le_mul_left _ hkn.le).trans hcap
  have hblocks (b : Nat) (hlt : b < s.withEncodedInput.blockCount s.code.n) :
      s.code.Correctable (s.withEncodedInput.inputBlock s.code.n b) (s.inputBlock s.code.k b)
        (Bits.zeros s.code.n) := by
    rw [inputBlock_withEncodedInput h hk hcap (hcount ▸ hlt)]
    exact Code.correctable_enc (length_inputBlock _ _ _)
  obtain ⟨v, hv, hverr, hvolen, hvobuf, hvncorr, hvnuncorr⟩ :=
    exec_decKey_of_correctable (s := { s.withEncodedInput with origLen := x }) (orig := orig) h.params hl
      (wf_withEncodedInput h hk hcap) ((ilen_withEncodedInput h hk hcap).trans_le hcap) (hle.trans hmul) (hb.congr rfl)
      hblocks
  refine ⟨v, hv, hverr, hvolen, fun i hi => ?_, BitVec.eq_of_toNat_eq ?_, hvnuncorr⟩
  · rw [hvolen] at hi
    have hsplit : i / s.code.k * s.code.k + i % s.code.k = i := Nat.div_add_mod' i s.code.k
    have hlt : i / s.code.k < s.blockCount s.code.k := (Nat.div_lt_iff_lt_mul hk0).2 (hi.trans_le hle)
    have hbit : Bits.bit v.mem.obuf (i / s.code.k * s.code.k + i % s.code.k) = _ :=
      hvobuf _ (hlt.trans_eq hcount.symm) _ (Nat.mod_lt i hk0) (hsplit.trans_lt hi)
    rwa [hsplit, bit_inputBlock_div_mod s hk0] at hbit
  · rw [hvncorr]
    exact List.countP_eq_zero.2 fun b _ => by simp [Bits.zeros]

end EncodedInput

end State

/-- Settles O30: after ENC_KEY and XFER the blocks of the input are the codewords of the blocks of the key, which
DEC_KEY decodes without errors. -/
theorem keyRoundTrip : Obligations.KeyRoundTrip := by
  intro s h hl hk hcap
  have hpad : s.ilen.toNat ≤ s.blockCount s.code.k * s.code.k := by
    obtain ⟨hk0, -⟩ := (h.locked hl).inRange
    exact le_nblocks_mul _ hk0
  obtain ⟨v, hv, hverr, hvolen, hvobuf, hvncorr, hvnuncorr⟩ :=
    State.exec_decKey_withEncodedInput h hk hcap hl true s.ilen
  obtain ⟨w, hw, hwerr, hwolen, hwobuf, -⟩ :=
    State.exec_decKey_withEncodedInput h hk hcap hl false s.withEncodedInput.origLen
  rw [State.trimmedLength_withEncodedInput h hk hcap hl, if_pos rfl, Nat.min_eq_left hpad] at hvolen
  rw [State.trimmedLength_withEncodedInput h hk hcap hl, if_neg Bool.false_ne_true] at hwolen
  refine ⟨_, _, v, w, State.exec_encKey hl hk hcap, s.exec_xfer_encoded, hv, hw, hverr, BitVec.eq_of_toNat_eq hvolen,
    fun i hi => ?_, hvncorr, hvnuncorr, hwerr, hwolen, fun i hi => hwobuf i (hwolen ▸ hi)⟩
  rw [hvobuf i (hvolen ▸ hi), decide_eq_true hi, Bool.true_and]

/-! ## O31: at most one flipped bit in each block -/

/-- R153: the errors of a block with at most one flipped bit. -/
def flipPattern (n : Nat) : Option Nat → Bits
  | none => Bits.zeros n
  | some p => Bits.unit n p

section Flips

variable {n : Nat} {flip : Option Nat}

theorem bit_flipPattern {p : Nat} (hp : p < n) : Bits.bit (flipPattern n flip) p = true ↔ flip = some p := by
  cases flip with
  | none => simp [flipPattern]
  | some q => rw [flipPattern, Bits.bit_unit, decide_eq_true hp, Bool.true_and, beq_iff_eq, Option.some_inj, eq_comm]

theorem any_flipPattern (hflip : ∀ p, flip = some p → p < n) : (flipPattern n flip).any id = flip.isSome := by
  cases flip with
  | none => simp [flipPattern, Bits.zeros]
  | some p => simpa [flipPattern, Bits.unit] using hflip p rfl

/-- R131 laws 1 and 2. -/
theorem Code.correctable_flipPattern {c : Code} {v m : Bits} (hd : c.DistinctColumns) (hm : m.length = c.k)
    (hnone : flip = none → v = c.enc m)
    (hsome : ∀ p, flip = some p → p < c.n ∧ v = Bits.add (c.enc m) (Bits.unit c.n p)) :
    c.Correctable v m (flipPattern c.n flip) := by
  cases flip with
  | none =>
    rw [hnone rfl]
    exact correctable_enc hm
  | some p =>
    obtain ⟨hp, rfl⟩ := hsome p rfl
    exact correctable_unit hd hm hp

end Flips

/-- R165: LOCATE of an input whose blocks have correctable errors reports their positions. -/
theorem State.exec_locate_of_correctable {s : State} {m e : Nat → Bits} (hp : s.params.Legal)
    (hl : s.status.locked = true) (hw : s.mem.wf s.params = true) (hk : s.ilen.toNat ≤ s.params.kmaxBits)
    (hb : s.BuiltConfig)
    (hblocks : ∀ b < s.blockCount s.code.n, s.code.Correctable (s.inputBlock s.code.n b) (m b) (e b)) :
    ∃ u, exec (.locate false) s = .next u ∧ u.nuncorr = 0 ∧
      (∀ g : Nat, (∃ i < u.loccnt.toNat, (u.mem.locbuf.getD i 0).toNat = g) ↔
        ∃ b < s.blockCount s.code.n, ∃ p < s.code.n, Bits.bit (e b) p = true ∧ g = b * s.code.n + p) := by
  refine ⟨_, exec_locate false hl hw hk, BitVec.eq_of_toNat_eq ?_, fun g => ?_⟩
  · rw [complete_nuncorr, toNat_nuncorr_writeBlockResults_range _ _ (s.blockCount_lt _)]
    exact List.countP_eq_zero.2 fun b hlt => by
      rw [locatedBlock_eq, hb.locatedUncorrectable_of_correctable (hblocks b (List.mem_range.1 hlt))]
      exact Bool.false_ne_true
  · refine (locbuf_locatedPositions_iff false hp hk g).trans (mem_locatedPositions.trans ?_)
    refine exists_congr fun b => and_congr_right fun hlt => exists_congr fun p => and_congr_right fun _ => ?_
    rw [hb.locatedPattern_of_correctable (hblocks b hlt)]
    simp [and_comm]

/-- Settles O31: at most one flip is what resolution finds in a block, so DEC_KEY takes it away and LOCATE
reports it. -/
theorem oneFlipPerBlockIsCorrectedAndLocated : Obligations.OneFlipPerBlockIsCorrectedAndLocated := by
  intro s m flip h hl hd hk hcap hblocks
  have hcorrectable (b : Nat) (hlt : b < s.blockCount s.code.n) :
      s.code.Correctable (s.inputBlock s.code.n b) (m b) (flipPattern s.code.n (flip b)) := by
    obtain ⟨hm, hnone, hsome⟩ := hblocks b hlt
    exact Code.correctable_flipPattern hd hm hnone hsome
  have hflip (b : Nat) (hlt : b < s.blockCount s.code.n) (p : Nat) (hp : flip b = some p) : p < s.code.n := by
    obtain ⟨-, -, hsome⟩ := hblocks b hlt
    exact (hsome p hp).1
  obtain ⟨t, ht, -, holen, hobuf, hncorr, hnuncorr⟩ :=
    State.exec_decKey_of_correctable h.params hl h.memory hk hcap (h.locked hl) hcorrectable
  obtain ⟨u, hu, hununcorr, hlocated⟩ :=
    State.exec_locate_of_correctable h.params hl h.memory hk (h.locked hl) hcorrectable
  refine ⟨t, u, ht, hu, holen, fun b hlt j hj => hobuf b hlt j hj (mul_add_lt_mul hlt hj), ?_, hnuncorr, hununcorr,
    fun g => (hlocated g).trans ?_⟩
  · rw [hncorr]
    exact List.countP_congr fun b hlt => by rw [any_flipPattern (hflip b (List.mem_range.1 hlt))]
  · refine exists_congr fun b => and_congr_right fun hlt => exists_congr fun p => ?_
    constructor
    · rintro ⟨hp, hbit, rfl⟩
      exact ⟨(bit_flipPattern hp).1 hbit, rfl⟩
    · rintro ⟨hf, rfl⟩
      have hp := hflip b hlt p hf
      exact ⟨hp, (bit_flipPattern hp).2 hf, rfl⟩

end Sys2Proof.Machine
end

section
/-! PROOFS of the family 43_error_locator: the positions LOCATE reports (O29) and the error-free encoded key, in which it
finds none (O32). -/

namespace Sys2Proof.Machine

namespace State

/-- R165: on a zero syndrome LOCATE takes no pattern, so the block does not count as corrected. -/
theorem corrected_locatedBlock (s : State) (b : Nat) :
    (s.locatedBlock b).corrected = s.locatedCorrected (s.inputBlock s.code.n b) := by
  rw [locatedBlock_eq, BlockResult.corrected, locatedPattern, locatedUncorrectable, locatedCorrected, correctedBlock]
  by_cases hsyn : s.code.syn (s.inputBlock s.code.n b) = 0
  · simp [hsyn, Bits.zeros]
  · rw [if_neg hsyn, bne_iff_ne.2 hsyn, Bool.true_and, Bool.true_and]

/-- R37, R41: each entry of LOCBUF below LOCCNT is the position at its index. -/
theorem toNat_getD_locbuf_writeLocbuf (t : State) {l : List Nat} (hlt : ∀ g ∈ l, g < 2 ^ 32) {e : Nat}
    (he : e < l.length) : ((t.writeLocbuf l).mem.locbuf.getD e 0).toNat = l[e] := by
  have hleft : e < (l.map (BitVec.ofNat 32)).length := by rwa [List.length_map]
  rw [writeLocbuf_mem_locbuf, List.getD_append _ _ _ _ hleft, List.getD_eq_getElem _ _ hleft, List.getElem_map,
    BitVec.toNat_ofNat, Nat.mod_eq_of_lt (hlt _ (List.getElem_mem he))]

/-- R166 law 1: the entries of LOCBUF below LOCCNT ascend strictly. -/
theorem locbuf_locatedPositions_lt {s : State} {orig : Bool} (hp : s.params.Legal)
    (hk : s.ilen.toNat ≤ s.params.kmaxBits) {e f : Nat} (hef : e < f)
    (hf : f < (s.writeLocbuf (s.locatedPositions orig)).loccnt.toNat) :
    ((s.writeLocbuf (s.locatedPositions orig)).mem.locbuf.getD e 0).toNat <
      ((s.writeLocbuf (s.locatedPositions orig)).mem.locbuf.getD f 0).toNat := by
  have hlt (g : Nat) (hg : g ∈ s.locatedPositions orig) : g < 2 ^ 32 :=
    (lt_of_mem_locatedPositions hp hk hg).trans (by decide)
  have hflen : f < (s.locatedPositions orig).length :=
    hf.trans_le ((BitVec.toNat_ofNat _ 32).trans_le (Nat.mod_le _ _))
  rw [toNat_getD_locbuf_writeLocbuf s hlt (hef.trans hflen), toNat_getD_locbuf_writeLocbuf s hlt hflen]
  exact List.pairwise_iff_getElem.1 (s.locatedPositions_sorted orig) e f _ _ hef

end State

/-- Settles O29: the checks pass, LOCBUF holds the kept positions in order, and the block results are those of every
block. -/
theorem locateReportsPositions : Obligations.LocateReportsPositions := by
  intro s orig hp hl hw hk
  have hcount := s.blockCount_lt s.code.n
  refine ⟨_, State.exec_locate orig hl hw hk, fun g => ?_, fun e f => State.locbuf_locatedPositions_lt hp hk, ?_, ?_, ?_,
    ?_, ?_, ?_, rfl⟩
  · exact (State.locbuf_locatedPositions_iff orig hp hk g).trans State.mem_locatedPositions
  · rw [State.complete_synd, State.synd_writeBlockResults_range, State.locatedBlock_eq]
  · rw [State.complete_epat, State.epat_writeBlockResults_range, State.locatedBlock_eq]
  · rw [State.complete_nblk, State.toNat_nblk_writeBlockResults_range _ _ hcount]
  · simp only [State.complete_ncorr, State.toNat_ncorr_writeBlockResults_range _ _ hcount, State.corrected_locatedBlock]
  · simp only [State.complete_nuncorr, State.toNat_nuncorr_writeBlockResults_range _ _ hcount, State.locatedBlock_eq,
      Bool.not_not]
  · exact State.uncorr_writeBlockResults_range _ _ hcount

/-! ## Blocks with syndrome 0 -/

namespace State

section ZeroSyndrome

variable {s : State} {v : Bits} (h : s.code.syn v = 0)
include h

theorem locatedPattern_of_syn_eq_zero : s.locatedPattern v = Bits.zeros s.code.n := by
  rw [locatedPattern, if_pos h]

theorem locatedUncorrectable_of_syn_eq_zero : s.locatedUncorrectable v = false := by
  rw [locatedUncorrectable, h, bne_self_eq_false, Bool.false_and]

theorem locatedCorrected_of_syn_eq_zero : s.locatedCorrected v = false := by
  rw [locatedCorrected, h, bne_self_eq_false, Bool.false_and]

end ZeroSyndrome

/-- R165: LOCATE finds nothing in an input whose blocks all have syndrome 0. -/
theorem exec_locate_of_syn_eq_zero {s : State} (orig : Bool) (hp : s.params.Legal) (hl : s.status.locked = true)
    (hw : s.mem.wf s.params = true) (hk : s.ilen.toNat ≤ s.params.kmaxBits)
    (hsyn : ∀ b < s.blockCount s.code.n, s.code.syn (s.inputBlock s.code.n b) = 0) :
    ∃ v, exec (.locate orig) s = .next v ∧ v.err = s.err ∧ v.loccnt = 0 ∧ v.ncorr = 0 ∧ v.nuncorr = 0 := by
  obtain ⟨v, hexec, hpositions, -, -, -, -, hncorr, hnuncorr, -, hframe⟩ := locateReportsPositions s orig hp hl hw hk
  have hblock {b : Nat} (hb : b ∈ List.range (s.blockCount s.code.n)) := hsyn b (List.mem_range.1 hb)
  refine ⟨v, hexec, by rw [hframe], BitVec.eq_of_toNat_eq ?_, BitVec.eq_of_toNat_eq ?_, BitVec.eq_of_toNat_eq ?_⟩
  · refine Nat.eq_zero_of_not_pos fun hpos => ?_
    obtain ⟨b, hb, p, -, -, hbit, -⟩ := (hpositions _).1 ⟨0, hpos, rfl⟩
    rw [locatedPattern_of_syn_eq_zero (hsyn b hb), Bits.bit_zeros] at hbit
    exact Bool.false_ne_true hbit
  · rw [hncorr]
    exact List.countP_eq_zero.2 fun b hb => by
      rw [locatedCorrected_of_syn_eq_zero (hblock hb)]
      exact Bool.false_ne_true
  · rw [hnuncorr]
    exact List.countP_eq_zero.2 fun b hb => by
      rw [locatedUncorrectable_of_syn_eq_zero (hblock hb)]
      exact Bool.false_ne_true

end State

/-- Settles O32: after ENC_KEY and XFER the blocks of the input are codewords, which have syndrome 0. -/
theorem errorFreeKeyLocatesNothing : Obligations.ErrorFreeKeyLocatesNothing := by
  intro s orig h hl hk hcap
  have hsyn (b : Nat) (hb : b < s.withEncodedInput.blockCount s.code.n) :
      s.code.syn (s.withEncodedInput.inputBlock s.code.n b) = 0 := by
    rw [State.blockCount_withEncodedInput h hk hcap hl] at hb
    rw [State.inputBlock_withEncodedInput h hk hcap hb, Code.syn_enc (h.locked hl).orthogonal]
  obtain ⟨v, hv, hresults⟩ :=
    State.exec_locate_of_syn_eq_zero (s := s.withEncodedInput) orig h.params hl
      (State.wf_withEncodedInput (s := s) h hk hcap)
      ((State.ilen_withEncodedInput h hk hcap).trans_le hcap) hsyn
  exact ⟨_, _, v, State.exec_encKey hl hk hcap, s.exec_xfer_encoded, hv, hresults⟩

end Sys2Proof.Machine
end

section
/-! PROOFS of the family 44_privacy_amplifier: the compressions (O33, O34), the recoveries (O35, O36), and what a
recovery makes of a compressed key (O37, O38). -/

namespace Sys2Proof.Machine

/-! ## The two schemes, bit by bit -/

namespace Amplifier

section Compression

variable {k : Bits}

theorem compress3_of_lt (h : k.length < 3) : compress3 k = (k, true) := if_pos h

theorem compress3_of_le (h : 3 ≤ k.length) : compress3 k = (windows k, false) := if_neg (Nat.not_lt.2 h)

theorem compressA_of_lt (h : k.length < 2) : compressA k = (k, true) := if_pos h

theorem compressA_of_le (h : 2 ≤ k.length) : compressA k = (List.zipWith xor k (k.drop 1), false) :=
  if_neg (Nat.not_lt.2 h)

end Compression

/-- R176: window `j` = (x, y, z) stands at `3·j` and gives (x ⊕ y, y ⊕ z) at `2·j`. -/
theorem bit_windows : ∀ (k : Bits) {j : Nat}, j < k.length / 3 →
    Bits.bit (windows k) (2 * j) = xor (Bits.bit k (3 * j)) (Bits.bit k (3 * j + 1)) ∧
      Bits.bit (windows k) (2 * j + 1) = xor (Bits.bit k (3 * j + 1)) (Bits.bit k (3 * j + 2))
  | _ :: _ :: _ :: _, 0, _ => ⟨rfl, rfl⟩
  | _ :: _ :: _ :: rest, j + 1, hj => bit_windows rest (by simp only [List.length_cons] at hj; omega)
  | [_, _], _, hj | [_], _, hj | [], _, hj => absurd hj (by simp)

theorem length_adjacent (k : Bits) : (List.zipWith xor k (k.drop 1)).length = k.length - 1 := by
  rw [List.length_zipWith, List.length_drop, Nat.min_eq_right (Nat.sub_le _ _)]

/-- R178. -/
theorem bit_adjacent {k : Bits} {i : Nat} (hi : i < k.length - 1) :
    Bits.bit (List.zipWith xor k (k.drop 1)) i = xor (Bits.bit k i) (Bits.bit k (i + 1)) := by
  rw [Bits.bit_eq_getElem (hi.trans_eq (length_adjacent k).symm), List.getElem_zipWith, List.getElem_drop,
    Bits.bit_eq_getElem (by omega), Bits.bit_eq_getElem (by omega)]
  simp only [Nat.add_comm]

section Recovery

variable {c : Bits} {seed : Bool}

theorem recover3_of_lt (h : c.length < 2) : recover3 c seed = ([], true) :=
  if_pos (Nat.div_eq_of_lt h)

theorem recover3_of_le (h : 2 ≤ c.length) :
    recover3 c seed = (chain seed ((c.take (2 * (c.length / 2))).drop 1), false) :=
  if_neg (Nat.div_pos h Nat.two_pos).ne'

/-- R177: bit 0 is the seed. -/
theorem bit_recover3_zero (h : 2 ≤ c.length) : Bits.bit (recover3 c seed).1 0 = seed := by
  rw [recover3_of_le h, bit_chain_zero]

/-- R177: each further bit adds the stored bit of its own index, so the first stored bit is not read. -/
theorem bit_recover3_succ {i : Nat} (hi : i + 1 < 2 * (c.length / 2)) :
    Bits.bit (recover3 c seed).1 (i + 1) = xor (Bits.bit (recover3 c seed).1 i) (Bits.bit c (i + 1)) := by
  have hstored : i < ((c.take (2 * (c.length / 2))).drop 1).length := by
    rw [List.length_drop, List.length_take]
    omega
  rw [recover3_of_le (by omega), bit_chain_succ _ _ hstored, Bits.bit_drop, Bits.bit_take, Nat.add_comm 1 i,
    decide_eq_true hi, Bool.true_and]

end Recovery

/-- R182 law 1: the chain from the first bit undoes the adjacent XOR. -/
theorem chain_adjacent (x : Bool) (l : Bits) : chain x (List.zipWith xor (x :: l) l) = x :: l := by
  induction l generalizing x with
  | nil => rfl
  | cons y l ih => rw [List.zipWith_cons_cons, chain, ← Bool.xor_assoc, Bool.xor_self, Bool.false_xor, ih]

theorem recoverA_compressA {k : Bits} (h : 2 ≤ k.length) : recoverA (compressA k).1 (Bits.bit k 0) = (k, false) := by
  rw [compressA_of_le h]
  cases k with
  | nil => cases h
  | cons x l => exact congrArg (·, false) (chain_adjacent x l)

/-! ### Three-bit recovery from a compression -/

section Deviation

variable {k : Bits} {j : Nat}

/-- R182 law 3: δ_j, by which recovery from the seed K[1] misses window `j`. -/
def deviation (k : Bits) (j : Nat) : Bool := bitSum j fun i => xor (Bits.bit k (3 * i + 2)) (Bits.bit k (3 * (i + 1)))

theorem deviation_succ (k : Bits) (j : Nat) :
    deviation k (j + 1) = xor (deviation k j) (xor (Bits.bit k (3 * j + 2)) (Bits.bit k (3 * (j + 1)))) := rfl

theorem length_recover3_windows (k : Bits) (seed : Bool) :
    (recover3 (windows k) seed).1.length = 2 * (k.length / 3) := by
  rw [length_recover3, length_windows, Nat.mul_div_cancel_left _ Nat.two_pos]

/-- R177: recovery from the windows of `k` follows the chain through all of them. -/
theorem bit_recover3_windows_succ {seed : Bool} {i : Nat} (hi : i + 1 < 2 * (k.length / 3)) :
    Bits.bit (recover3 (windows k) seed).1 (i + 1) =
      xor (Bits.bit (recover3 (windows k) seed).1 i) (Bits.bit (windows k) (i + 1)) := by
  refine bit_recover3_succ ?_
  rwa [length_windows, Nat.mul_div_cancel_left _ Nat.two_pos]

/-- R177: within window `j` the chain steps from y to z, whatever it has taken for y. -/
theorem bit_recover3_windows_odd {seed d : Bool} (hj : j < k.length / 3)
    (hy : Bits.bit (recover3 (windows k) seed).1 (2 * j) = xor (Bits.bit k (3 * j + 1)) d) :
    Bits.bit (recover3 (windows k) seed).1 (2 * j + 1) = xor (Bits.bit k (3 * j + 2)) d := by
  rw [bit_recover3_windows_succ (by omega), hy, (bit_windows k hj).2, Bool.xor_comm _ d, Bool.xor_assoc,
    ← Bool.xor_assoc (Bits.bit k (3 * j + 1)), Bool.xor_self, Bool.false_xor, Bool.xor_comm]

/-- R182 law 3: the chain takes each window's x for the z before it, so it misses y by δ. -/
theorem bit_recover3_windows_even (hj : j < k.length / 3) :
    Bits.bit (recover3 (windows k) (Bits.bit k 1)).1 (2 * j) = xor (Bits.bit k (3 * j + 1)) (deviation k j) := by
  induction j with
  | zero =>
    rw [Nat.mul_zero, bit_recover3_zero (by rw [length_windows]; omega)]
    exact (Bool.xor_false _).symm
  | succ j ih =>
    have hz := bit_recover3_windows_odd (Nat.lt_of_succ_lt hj) (ih (Nat.lt_of_succ_lt hj))
    have hstep : Bits.bit (recover3 (windows k) (Bits.bit k 1)).1 (2 * (j + 1)) =
        xor (Bits.bit (recover3 (windows k) (Bits.bit k 1)).1 (2 * j + 1)) (Bits.bit (windows k) (2 * (j + 1))) :=
      bit_recover3_windows_succ (i := 2 * j + 1) (by omega)
    rw [hstep, hz, (bit_windows k hj).1, deviation_succ, Bool.xor_comm _ (deviation k j), Bool.xor_assoc,
      Bool.xor_comm (Bits.bit k (3 * (j + 1) + 1)), Bool.xor_assoc, Bool.xor_assoc]

end Deviation

end Amplifier

/-! ## What PA_COMPRESS and PA_RECOVER answer -/

namespace State

variable {s : State}

theorem compressed_of_adjacent (h : s.cfg.pa = true) : s.compressed = Amplifier.compressA s.input := if_pos h

theorem compressed_of_threeBit (h : s.cfg.pa = false) : s.compressed = Amplifier.compress3 s.input :=
  if_neg (Bool.eq_false_iff.1 h)

theorem recovered_of_adjacent (seed : Bool) (h : s.cfg.pa = true) :
    s.recovered seed = (Amplifier.chain seed s.input, false) := if_pos h

theorem recovered_of_threeBit (seed : Bool) (h : s.cfg.pa = false) :
    s.recovered seed = Amplifier.recover3 s.input seed := if_neg (Bool.eq_false_iff.1 h)

/-- R180: PA_COMPRESS of an input that fits IBUF. -/
theorem exec_paCompress (hl : s.status.locked = true) (hk : s.ilen.toNat ≤ s.params.kmaxBits) :
    exec .paCompress s = .next (s.writeAmplified s.compressed).complete :=
  runCommand_ok (paCompressBody_eq_ok_iff.2 ⟨hl, hk, rfl⟩)

/-- R181: PA_RECOVER within capacity. -/
theorem exec_paRecover {seed : Bool} (hl : s.status.locked = true) (hk : s.ilen.toNat ≤ s.params.kmaxBits)
    (hcap : s.cfg.pa = true → s.ilen.toNat + 1 ≤ s.params.kmaxBits) :
    exec (.paRecover seed) s = .next (s.writeAmplified (s.recovered seed)).complete :=
  runCommand_ok (paRecoverBody_eq_ok_iff.2 ⟨hl, hk, hcap, rfl⟩)

/-- R194: without an under-length input UNDERLEN stays as it was. -/
theorem writeAmplified_of_not_under (s : State) (out : Bits) : s.writeAmplified (out, false) = s.writeObuf out := by
  rw [writeAmplified, setUnderlenWhen, Bool.or_false]

/-- R33: OBUF and OLEN after a command whose output is the input of `s`. -/
theorem obuf_writeAmplified_input (hw : s.mem.wf s.params = true) (hk : s.ilen.toNat ≤ s.params.kmaxBits) (t : State)
    (under : Bool) :
    (t.writeAmplified (s.input, under)).olen = s.ilen ∧
      ∀ i < s.ilen.toNat, Bits.bit (t.writeAmplified (s.input, under)).mem.obuf i = Bits.bit s.mem.ibuf i := by
  have hlen := length_input hw hk
  refine ⟨?_, fun i hi => ?_⟩
  · rw [writeAmplified_olen, hlen, BitVec.ofNat_toNat, BitVec.setWidth_eq]
  · exact (bit_writeObuf t (hi.trans_eq hlen.symm)).trans (bit_input_of_lt hi)

/-- R176, R178: an under-length input is copied, and UNDERLEN is set. -/
theorem complete_writeAmplified_under (hw : s.mem.wf s.params = true) (hk : s.ilen.toNat ≤ s.params.kmaxBits) :
    (s.writeAmplified (s.input, true)).complete.olen = s.ilen ∧
      (s.writeAmplified (s.input, true)).complete.status.underlen = true ∧
      ∀ i < s.ilen.toNat, Bits.bit (s.writeAmplified (s.input, true)).complete.mem.obuf i = Bits.bit s.mem.ibuf i := by
  obtain ⟨holen, hobuf⟩ := obuf_writeAmplified_input hw hk s true
  exact ⟨holen, Bool.or_true _, hobuf⟩

/-! ### A key that was compressed and transferred -/

/-- R180, R112: the state after PA_COMPRESS and XFER (`exec_paCompress`, `exec_xfer_compressed`). -/
def withCompressedInput (s : State) : State := (s.writeAmplified s.compressed).complete.transfer.complete

theorem exec_xfer_compressed (s : State) :
    exec .xfer (s.writeAmplified s.compressed).complete = .next s.withCompressedInput := rfl

section CompressedInput

variable (hw : s.mem.wf s.params = true) (hk : s.ilen.toNat ≤ s.params.kmaxBits) (hpa : s.cfg.pa = true)
  (h2 : 2 ≤ s.ilen.toNat)
include hw hk hpa h2

theorem length_compressed_of_adjacent : s.compressed.1.length = s.ilen.toNat - 1 := by
  have hlen := length_input hw hk
  rw [compressed_of_adjacent hpa, Amplifier.compressA_of_le (hlen ▸ h2), Amplifier.length_adjacent, hlen]

theorem length_compressed_lt : s.compressed.1.length < 2 ^ 32 := by
  have hlt := s.ilen.isLt
  rw [length_compressed_of_adjacent hw hk hpa h2]
  omega

theorem ilen_withCompressedInput : s.withCompressedInput.ilen.toNat = s.ilen.toNat - 1 :=
  (olen_writeObuf s (length_compressed_lt hw hk hpa h2)).trans (length_compressed_of_adjacent hw hk hpa h2)

/-- R182 law 1: recovery from the key's first bit finds the key. -/
theorem recovered_withCompressedInput :
    s.withCompressedInput.recovered (Bits.bit s.mem.ibuf 0) = (s.input, false) := by
  have hkey : 2 ≤ s.input.length := length_input hw hk ▸ h2
  have hinput : s.withCompressedInput.input = s.compressed.1 :=
    input_transfer_writeObuf s (length_compressed_lt hw hk hpa h2)
  rw [recovered_of_adjacent (s := s.withCompressedInput) _ hpa, hinput, compressed_of_adjacent hpa,
    ← bit_input_of_lt (Nat.zero_lt_of_lt h2)]
  exact Amplifier.recoverA_compressA hkey

end CompressedInput

end State

/-! ## The obligations -/

/-- Settles O33: the output is the windows of the input, or the input itself when it fills none. -/
theorem threeBitCompress : Obligations.ThreeBitCompress := by
  intro s hl hw hk hpa
  have hlen := State.length_input hw hk
  have hlt := s.ilen.isLt
  refine ⟨_, State.exec_paCompress hl hk, fun h => ?_, fun h => ?_, rfl⟩
  · have hwindows : (Amplifier.windows s.input).length = 2 * (s.ilen.toNat / 3) := by
      rw [Amplifier.length_windows, hlen]
    rw [State.compressed_of_threeBit hpa, Amplifier.compress3_of_le (hlen ▸ h), State.writeAmplified_of_not_under]
    refine ⟨?_, rfl, fun j hj => ?_⟩
    · rw [State.complete_olen, State.olen_writeObuf _ (by omega), hwindows]
    · obtain ⟨hxy, hyz⟩ := Amplifier.bit_windows s.input (hlen.symm ▸ hj)
      rw [State.complete_mem, State.bit_writeObuf _ (by omega), State.bit_writeObuf _ (by omega), hxy, hyz,
        State.bit_input_of_lt (by omega), State.bit_input_of_lt (by omega), State.bit_input_of_lt (by omega)]
      exact ⟨rfl, rfl⟩
  · rw [State.compressed_of_threeBit hpa, Amplifier.compress3_of_lt (hlen ▸ h)]
    exact State.complete_writeAmplified_under hw hk

/-- Settles O34: the output is the XOR of the input's neighbours, or the input itself when it has none. -/
theorem adjacentCompress : Obligations.AdjacentCompress := by
  intro s hl hw hk hpa
  have hlen := State.length_input hw hk
  have hlt := s.ilen.isLt
  refine ⟨_, State.exec_paCompress hl hk, fun h => ?_, fun h => ?_, rfl⟩
  · have hadjacent : (List.zipWith xor s.input (s.input.drop 1)).length = s.ilen.toNat - 1 := by
      rw [Amplifier.length_adjacent, hlen]
    rw [State.compressed_of_adjacent hpa, Amplifier.compressA_of_le (hlen ▸ h), State.writeAmplified_of_not_under]
    refine ⟨?_, rfl, fun i hi => ?_⟩
    · rw [State.complete_olen, State.olen_writeObuf _ (by omega), hadjacent]
    · rw [State.complete_mem, State.bit_writeObuf _ (by omega), Amplifier.bit_adjacent (by omega),
        State.bit_input_of_lt (by omega), State.bit_input_of_lt (by omega)]
  · rw [State.compressed_of_adjacent hpa, Amplifier.compressA_of_lt (hlen ▸ h)]
    exact State.complete_writeAmplified_under hw hk

/-- Settles O35: the output is the chain over the pairs of the input, or nothing when there is no pair. -/
theorem threeBitRecover : Obligations.ThreeBitRecover := by
  intro s seed hl hw hk hpa
  have hlen := State.length_input hw hk
  have hlt := s.ilen.isLt
  have hout : (Amplifier.recover3 s.input seed).1.length = 2 * (s.ilen.toNat / 2) := by
    rw [Amplifier.length_recover3, hlen]
  have hobuf {i : Nat} (hi : i < 2 * (s.ilen.toNat / 2)) :
      Bits.bit (s.writeAmplified (s.recovered seed)).complete.mem.obuf i =
        Bits.bit (Amplifier.recover3 s.input seed).1 i := by
    rw [State.recovered_of_threeBit seed hpa]
    exact State.bit_writeObuf s (hi.trans_eq hout.symm)
  refine ⟨_, State.exec_paRecover hl hk fun h => absurd (hpa.symm.trans h) Bool.false_ne_true, ?_, fun h => ⟨?_, ?_⟩,
    fun i hi1 hi => ?_, fun h => ?_, rfl⟩
  · rw [State.recovered_of_threeBit seed hpa, ← hout]
    exact State.olen_writeObuf s (by omega)
  · rw [State.recovered_of_threeBit seed hpa, Amplifier.recover3_of_le (hlen ▸ h)]
    exact Bool.or_false _
  · rw [hobuf (by omega), Amplifier.bit_recover3_zero (hlen ▸ h)]
  · obtain ⟨i, rfl⟩ := Nat.exists_eq_add_of_le' hi1
    rw [Nat.add_sub_cancel, hobuf hi, hobuf (by omega), Amplifier.bit_recover3_succ (hlen.symm ▸ hi),
      State.bit_input_of_lt (by omega)]
  · rw [State.recovered_of_threeBit seed hpa, Amplifier.recover3_of_lt (hlen ▸ h)]
    exact Bool.or_true _

/-- Settles O36: the output is the chain over the whole input, one bit longer than it. -/
theorem adjacentRecover : Obligations.AdjacentRecover := by
  intro s seed hp hl hw hcap hpa
  have hk := Nat.le_of_succ_le hcap
  have hmax := hp.kmaxBits_le
  have hlen := State.length_input hw hk
  have hout : (Amplifier.chain seed s.input).length = s.ilen.toNat + 1 := by rw [Amplifier.length_chain, hlen]
  have hexec := State.exec_paRecover (seed := seed) hl hk fun _ => hcap
  rw [State.recovered_of_adjacent seed hpa, State.writeAmplified_of_not_under] at hexec
  refine ⟨_, hexec, ?_, ?_, fun i hi => ?_, rfl⟩
  · rw [State.complete_olen, State.olen_writeObuf _ (by omega), hout]
  · rw [State.complete_mem, State.bit_writeObuf _ (by omega), Amplifier.bit_chain_zero]
  · rw [State.complete_mem, State.bit_writeObuf _ (by omega), State.bit_writeObuf _ (by omega),
      Amplifier.bit_chain_succ _ _ (by omega), State.bit_input_of_lt hi]

/-- Settles O37: XFER makes the compressed key the input, and the chain from the key's first bit undoes the
compression. -/
theorem adjacentRoundTrip : Obligations.AdjacentRoundTrip := by
  intro s _ hl hw hk hpa h2
  have hilen := State.ilen_withCompressedInput hw hk hpa h2
  have hfits : s.withCompressedInput.ilen.toNat + 1 ≤ s.params.kmaxBits := by omega
  have hexec := State.exec_paRecover (s := s.withCompressedInput) (seed := Bits.bit s.mem.ibuf 0) hl
    (Nat.le_of_succ_le hfits) fun _ => hfits
  rw [State.recovered_withCompressedInput hw hk hpa h2] at hexec
  obtain ⟨holen, hobuf⟩ := State.obuf_writeAmplified_input hw hk s.withCompressedInput false
  exact ⟨_, _, _, State.exec_paCompress hl hk, s.exec_xfer_compressed, hexec, rfl, holen, hobuf⟩

/-- Settles O38: y by induction along the windows, z by one step of the chain from y. -/
theorem threeBitRecoveryDeviation : Obligations.ThreeBitRecoveryDeviation := by
  intro k j hk hj
  have hy := Amplifier.bit_recover3_windows_even hj
  rw [Amplifier.compress3_of_le hk]
  exact ⟨Amplifier.length_recover3_windows k _, hy, Amplifier.bit_recover3_windows_odd hj hy⟩

end Sys2Proof.Machine
end

section
/-! PROOFS of the family 60_exceptions: a failing command writes ERR and its completion (O9), and the checks of EXEC in
their order (O10). -/

namespace Sys2Proof.Machine

/-! ## How EXEC ends -/

section Ends

variable {i : Instr} {s t u : State}

/-- R195: a failing check discards the whole command. -/
theorem exec_of_error {c : ErrCode} (h : bodyOf i s = .error c) : exec i s = .next (s.failedWith c) :=
  (exec_eq_runCommand i s).trans (runCommand_error h)

/-- R192: a command whose checks all pass raises no code. -/
theorem exec_keeps_err_of_ok (h : bodyOf i s = .ok u) : ∃ t, exec i s = .next t ∧ t.err = s.err :=
  ⟨u.complete, (exec_eq_runCommand i s).trans (runCommand_ok h), u.complete_err.trans (body_ok_err h)⟩

/-- R190, R195: the core's step leaves ERR as it was, or is a failure as a whole. -/
theorem coreStep_keeps_err_or_fails (hs : coreStep s = .next t) : t.err = s.err ∨ ∃ c, t = s.failedWith c := by
  rcases coreStep_cases s with ⟨-, e⟩ | ⟨i, -, -, e⟩ | ⟨_, -, -, e⟩ <;> rw [e] at hs
  · cases hs
    exact .inl rfl
  · rcases (exec_eq_next_iff i s t).1 hs with ⟨u, hb, rfl⟩ | ⟨c, -, rfl⟩
    · exact .inl (u.complete_err.trans (body_ok_err hb))
    · exact .inr ⟨c, rfl⟩
  · cases hs
    exact .inr ⟨.illegalCmd, rfl⟩

end Ends

/-! ## The checks of CFG_BUILD -/

section BuildChecks

variable {s : State}

/-- R108: a message index without a unit column has no message position. -/
theorem Code.deriveMpos_eq_none {c : Code} {j : Nat} (hj : j < c.k) (h : ∀ p < c.n, ¬ c.UnitColumn j p) :
    c.deriveMpos = none := by
  refine Option.eq_none_iff_forall_ne_some.2 fun l hl => ?_
  obtain ⟨-, hpos⟩ := (c.deriveMpos_eq_some_iff l).1 hl
  obtain ⟨hlt, hunit, -⟩ := hpos j hj
  exact h _ hlt hunit

/-- R106. -/
theorem cfgBuildBody_of_not_inRange (hl : s.status.locked = false) (hr : ¬ s.code.InRange s.params) :
    cfgBuildBody s = .error .cfgRange := by
  rw [← Code.rangeOk_iff, Bool.not_eq_true] at hr
  rw [cfgBuildBody, hl, if_neg Bool.false_ne_true, if_pos hr]

/-- R107. -/
theorem cfgBuildBody_of_not_orthogonal (hl : s.status.locked = false) (hr : s.code.InRange s.params)
    (ho : ¬ s.code.Orthogonal) : cfgBuildBody s = .error .cfgOrtho := by
  rw [← Code.rangeOk_iff] at hr
  rw [← Code.orthoOk_iff, Bool.not_eq_true] at ho
  rw [cfgBuildBody, hl, hr, if_neg Bool.false_ne_true, if_neg Bool.false_ne_true.symm, if_pos ho]

/-- R108. -/
theorem cfgBuildBody_of_deriveMpos_none (hl : s.status.locked = false) (hr : s.code.InRange s.params)
    (ho : s.code.Orthogonal) (hd : s.code.deriveMpos = none) : cfgBuildBody s = .error .cfgMpos := by
  rw [← Code.rangeOk_iff] at hr
  rw [← Code.orthoOk_iff] at ho
  rw [cfgBuildBody, hl, hr, ho, if_neg Bool.false_ne_true, if_neg Bool.false_ne_true.symm,
    if_neg Bool.false_ne_true.symm, hd]

end BuildChecks

/-! ## The checks of the data commands -/

section DataChecks

variable {s : State} (hl : s.status.locked = true)
include hl

/-- R193. -/
theorem dataChecks_of_tooLong (hk : s.params.kmaxBits < s.ilen.toNat) (body : Except ErrCode State) :
    (if s.status.locked = false then .error .notConfigured
      else if s.inputTooLong = true then .error .capacity else body) = .error .capacity := by
  rw [hl, if_neg Bool.false_ne_true.symm, State.inputTooLong, decide_eq_true hk, if_pos rfl]

/-- R192, R193: a configured core and an input that fits leave what the command itself checks. -/
theorem dataChecks_of_fits (hk : s.ilen.toNat ≤ s.params.kmaxBits) (body : Except ErrCode State) :
    (if s.status.locked = false then .error .notConfigured
      else if s.inputTooLong = true then .error .capacity else body) = body := by
  rw [hl, if_neg Bool.false_ne_true.symm, State.inputTooLong, decide_eq_false (Nat.not_lt.2 hk),
    if_neg Bool.false_ne_true]

/-- R193: every data command checks its input, whatever it does with it. -/
theorem exec_of_tooLong (hk : s.params.kmaxBits < s.ilen.toNat) {i : Instr} (hi : needsConfig i = true) :
    exec i s = .next (s.failedWith .capacity) := by
  refine exec_of_error ?_
  cases i with
  | nop | cfgBuild | cfgUnlock | xfer => cases hi
  | encBlk | synBlk | decBlk | encKey | decKey | locate | paCompress | paRecover => exact dataChecks_of_tooLong hl hk _

/-- R192: the command's own check comes after the two of every data command. -/
theorem exec_of_failing_check (hk : s.ilen.toNat ≤ s.params.kmaxBits) {i : Instr} {p : Prop} [Decidable p]
    {c : ErrCode} {body : Except ErrCode State} (hp : p)
    (hi : bodyOf i s = if s.status.locked = false then .error .notConfigured
      else if s.inputTooLong = true then .error .capacity else if p then .error c else body) :
    exec i s = .next (s.failedWith c) :=
  exec_of_error (hi.trans ((dataChecks_of_fits hl hk _).trans (if_pos hp)))

end DataChecks

/-! ## The obligations -/

/-- Settles O9: ERR was clear, so the step that set it is a failure as a whole. -/
theorem errorsArePrecise : Obligations.ErrorsArePrecise := by
  intro s t _ hnone hs hne
  rcases coreStep_keeps_err_or_fails hs with h | ⟨c, rfl⟩
  · rw [h] at hne
    exact absurd hnone hne
  · rfl

/-- Settles O10: each clause makes the checks before its own pass and its own fail. -/
theorem checksInOrder : Obligations.ChecksInOrder := by
  intro s
  refine ⟨coreStep_of_illegal, fun hl => exec_of_error (if_pos hl), fun i => State.exec_of_unlocked,
    fun i hi => ?_, fun hl hr => exec_of_error (cfgBuildBody_of_not_inRange hl hr),
    fun hl hr ho => exec_of_error (cfgBuildBody_of_not_orthogonal hl hr ho), fun hl hr ho ⟨j, hj, hcol⟩ => ?_,
    fun hl hk i => exec_of_tooLong hl hk, fun hl hk => ?_⟩
  · simp only [List.mem_cons, List.not_mem_nil, or_false] at hi
    rcases hi with rfl | rfl | rfl <;> exact exec_keeps_err_of_ok rfl
  · exact exec_of_error (cfgBuildBody_of_deriveMpos_none hl hr ho (Code.deriveMpos_eq_none hj hcol))
  · have fails := @exec_of_failing_check s hl hk
    exact ⟨fun h => fails h rfl, fun h => fails h rfl, fun h => fails h rfl, fun h => fails h rfl,
      fun orig h => fails h rfl, fun seed hpa h => fails (And.intro hpa h) rfl⟩

end Sys2Proof.Machine
end

section
/-! PROOFS of the family 70_reset_and_hazards: the reset input (O43) and the reads of a busy core (O49). -/

namespace Sys2Proof.Machine.State

/-! ## The reset input -/

section ResetInput

variable {s : State}

/-- R215: EXEC is not enabled during reset. -/
theorem not_pending_of_resetIn (hr : s.resetIn = true) : ¬ s.Pending := fun hp => by
  rw [hp.2] at hr
  cases hr

/-- R215, U14. -/
theorem hostAccess_of_resetIn (hr : s.resetIn = true) (a width : Nat) (effect : State → State) :
    s.hostAccess a width effect = .refused (.accessDuringReset a) := if_pos hr

/-- R215: the falling edge resets the core too. -/
theorem releaseReset_of_resetIn (hr : s.resetIn = true) :
    s.releaseReset = ({ s with resetIn := false } : State).resetCore := if_pos hr

end ResetInput

/-! ## Reads while BUSY = 1 -/

section BusyReads

variable {s : State}

theorem hostRead_of_busy (hb : s.status.busy = true) (a : Nat) : s.hostRead a = s.readBusy (regAt s.params a) :=
  if_pos hb

/-- R219: what is neither defined while BUSY = 1 nor reserved, STATUS aside, reads as a whole free word. -/
theorem readBusy_of_unspecified {r : Reg} (hr : r ∉ [.id, .param, .ctrl, .status, .cmd, .reserved]) :
    s.readBusy r = s.freeRead id := by
  cases r with
  | id | param | ctrl | status | cmd | reserved => exact absurd (by decide) hr
  | _ => rfl

/-- R23, R219. -/
theorem getLsbD_statusWordBusy (s : State) (draw : Word) (b : Nat) :
    (s.statusWordBusy draw).getLsbD b =
      Bits.bit [s.status.busy, s.status.done, draw.getLsbD 2, draw.getLsbD 3, draw.getLsbD 4, s.status.ovr,
        s.status.wign, draw.getLsbD 7] b :=
  Bits.getLsbD_toWord_of_length_le (by simp) b

end BusyReads

/-! ## The obligations -/

/-- Settles O43: both edges are `resetCore`, which leaves BUSY = 0, and the asserted input disables EXEC and the bus. -/
theorem hardResetHoldsTheCore : Obligations.HardResetHoldsTheCore := by
  refine fun s => ⟨⟨s.assertReset, rfl, resetCore_atReset { s with resetIn := true }, rfl, rfl, ?_,
    s.assertReset.releaseReset, rfl, ?_⟩, fun hr => ⟨?_, fun a width v => ⟨?_, ?_⟩⟩⟩
  · exact coreStep_of_not_pending (not_pending_of_resetIn rfl)
  · rw [releaseReset_of_resetIn rfl]
    exact ⟨resetCore_atReset _, rfl⟩
  · exact coreStep_of_not_pending (not_pending_of_resetIn hr)
  · exact hostAccess_of_resetIn hr a width _
  · exact hostAccess_of_resetIn hr a width _

/-- Settles O49: `readBusy` at each place; DONE is 0 in a busy core by the invariant (R100). -/
theorem readsWhileBusy : Obligations.ReadsWhileBusy := by
  intro s h hb draw drawn
  obtain ⟨hdone, -⟩ := h.busy hb
  have hread := hostRead_of_busy hb
  have hstatus : s.hostRead 0x00C = (s.statusWordBusy draw, drawn) := hread 0x00C
  have hbit := getLsbD_statusWordBusy s draw
  rw [hstatus]
  refine ⟨hread 0x000, hread 0x004, hread 0x008, hread 0x014, rfl, (hbit 0).trans hb, (hbit 1).trans hdone,
    hbit 5, hbit 6, ?_, fun a _ _ hr => ?_⟩
  · simp only [List.forall_mem_cons]
    exact ⟨hbit 2, hbit 3, hbit 4, hbit 7, nofun⟩
  · exact (hread a).trans (readBusy_of_unspecified hr)

end Sys2Proof.Machine.State
end
